-- ==== Sys2Proof/Word.lean ====
section
/-! DEFINITION. The word and byte types of the stegano-lsb codec (spec R8, R16, R52). -/

namespace Sys2Proof

/-- A 32-bit register value or address (R8, R20). -/
abbrev Word := BitVec 32

/-- One byte of data memory (R52). -/
abbrev Byte := BitVec 8

/-- A byte sequence, indexed from 0 (R16). -/
abbrev Bytes := List Byte

/-- A bit sequence, in the order its bits are produced or consumed (R16). -/
abbrev Bits := List Bool

end Sys2Proof
end

