-- ==== Sys2Proof/Syntax.lean ====
section
/-! DEFINITION. The syntax: the seven commands (R72), the sixteen registers of the window (R76) and
the operations of a host program (R80 to R86, R96). -/

namespace Sys2Proof

/-- The seven commands, one constructor per row of the opcode table (R72). None has an operand of its
own: every operand is a register fixed by the opcode (R70, R75). -/
inductive Instr where
  | nop
  | deriveKey
  /-- The command SEAL. -/
  | sealPlain
  /-- The command OPEN. -/
  | openSealed
  | capacity
  | embed
  | extract
deriving DecidableEq, Repr, Inhabited

/-- The sixteen registers of the window, in offset order (R20, R76). -/
inductive Reg where
  | version
  | cmd
  | ctrl
  | status
  | errAddr
  | srcBase
  | dstBase
  | width
  | height
  | inBase
  | inLen
  | outBase
  | outCap
  | keyBase
  | outLen
  | capBits
deriving DecidableEq, Repr, Inhabited

/-- One operation of a host. Accesses to the register window carry the system address they are made at
(R58, R81), so that any width and any alignment can be written down. Accesses to data memory are of one
byte each: DESIGN CHOICE (log 24), since R96 says only "memory accesses" and gives no width. -/
inductive HostOp where
  /-- A bus write of `size` bytes at system address `addr`; WR when aligned and 32 bits wide (R81). -/
  | write (addr size : Nat) (value : Word)
  /-- A bus read of `size` bytes at system address `addr`; RD when aligned and 32 bits wide (R82). -/
  | read (addr size : Nat)
  /-- POLL: repeat RD until the masked result is `value` (R83). -/
  | poll (addr : Nat) (mask value : Word)
  /-- RUN: write the command word to CMD and poll STATUS for DONE (R84). -/
  | run (word : Word)
  /-- A store to data memory (R96), of one byte (DESIGN CHOICE, log 24). -/
  | store (addr : Word) (value : Byte)
  /-- A load of data memory (R96), of one byte (DESIGN CHOICE, log 24). -/
  | load (addr : Word)
deriving DecidableEq, Repr

/-- One bus transaction of an encoded host program (R86); offsets are within the 256-byte window. -/
inductive Transaction where
  | write (off : BitVec 8) (value : Word)
  | read (off : BitVec 8)
  | poll (off : BitVec 8) (mask value : Word)
deriving DecidableEq, Repr

end Sys2Proof
end

