-- ==== Sys2Proof/Machine/Engine.lean ====
section
/-! DEFINITION. The plain data of a running command: the engine's sequencing state, cursors and
latches (R36 to R39), and the named outcomes of one of its accesses. -/

namespace Sys2Proof.Machine

/-- The eleven error codes and success, by name (R182); codes 12 to 15 do not exist. -/
inductive ErrCode where
  | noError
  | illegalOp
  | range
  | overlap
  | capacity
  | framing
  | outOverflow
  | malformed
  | authFail
  | rngFail
  | cipherFail
  | busError
deriving DecidableEq, Repr, Inhabited

/-- PHASE (R36): the access of the command's pseudocode that comes next. -/
inductive Phase where
  /-- The first line of the pseudocode: nothing has been checked or accessed. -/
  | start
  /-- The key reads of SEAL and OPEN (R117). -/
  | key
  /-- The reads of the IN buffer by DERIVE_KEY, SEAL and OPEN. -/
  | input
  /-- The HASH transaction of DERIVE_KEY. -/
  | hash
  /-- The RNG transaction of SEAL. -/
  | rng
  /-- The AEAD_SEAL transaction of SEAL. -/
  | sealing
  /-- The AEAD_OPEN transaction of OPEN. -/
  | unseal
  /-- EMBED's reads of the four source bytes of a pixel. -/
  | source
  /-- EMBED's R, G and B channels of a pixel. -/
  | channel
  /-- EMBED's read of the payload byte that the current channel needs. -/
  | payload
  /-- EMBED's writes of the four destination bytes of a pixel. -/
  | dest
  /-- EXTRACT's reads of the channel slots. -/
  | slots
  /-- The writes of the output bytes at OUT_BASE. -/
  | output
  /-- A port answer has failed the command: the completion step raises the code. -/
  | failed (code : ErrCode)
deriving DecidableEq, Repr, Inhabited

/-- The internal state of the engine (R36 to R39). It holds a command's values while BUSY = 1. -/
structure Engine where
  /-- CUR_OP, the command being run (R36). -/
  curOp  : Instr
  phase  : Phase
  /-- The pixel cursor, column and row (R36). -/
  x      : Word
  y      : Word
  /-- The channel index: 0 = R, 1 = G, 2 = B (R147). -/
  c      : Fin 3
  /-- The frame-bit cursor (R36). -/
  k      : Nat
  /-- The byte cursor of buffer reads and writes (R36). -/
  i      : Nat
  /-- The key latch K (R37, R117). -/
  key    : Bytes
  /-- The transient copy of the input bytes (R39). -/
  input  : Bytes
  /-- The nonce N that SEAL drew (R120). -/
  nonce  : Bytes
  /-- The transient copy of the output bytes (R39). -/
  output : Bytes
  /-- EXTRACT's bit buffer (R38). -/
  bits   : Bits
  /-- EMBED's pixel latch q (R152). -/
  q      : Bytes
  /-- EMBED's frame-byte latch (R39). -/
  cur    : Byte
deriving DecidableEq, Repr, Inhabited

/-- The direction of an engine access, the second argument of BUS_OK (R14). -/
inductive Dir where
  | read
  | write
deriving DecidableEq, Repr

/-- Why one engine access to data memory was not performed. -/
inductive Halt where
  /-- A bus error at the address (R53, R186). -/
  | bus (addr : Nat)
  /-- The address is memory with read side effects (R59). -/
  | device (addr : Nat)
  /-- The address is at 2^32 or above (R50). -/
  | outside (addr : Nat)
deriving DecidableEq, Repr

end Sys2Proof.Machine
end

