-- ==== Sys2Proof/Config.lean ====
section
/-! DEFINITION. What is fixed for one machine: the constants of the format, the platform's open
parameters as plain data (R11, R13, R14), the external crypto port (R12, R110 to R115) and the free
values. -/

namespace Sys2Proof

/-- FORMAT_VERSION (R2). -/
def Config.formatVersion : Nat := 1

/-- KEY_SIZE in bytes (R9). -/
def Config.keySize : Nat := 32

/-- TAG_SIZE in bytes (R10). -/
def Config.tagSize : Nat := 16

/-- The size of the data address space in bytes (R8, R50). -/
def Config.addressSpace : Nat := 2 ^ 32

/-- NONCE_SIZE, an open parameter between 1 and 255 (R11). -/
structure NonceSize where
  val : Nat
  pos : 1 ≤ val
  le  : val ≤ 255
deriving DecidableEq, Repr

/-- A half-open window of addresses `[base, base + size)`. -/
structure Window where
  base : Nat
  size : Nat
deriving DecidableEq, Repr

/-- The open parameters the platform decides (R11, R13, R14, R42). Nothing in the block changes them.
They are plain data, so every claim over all states is a claim over all platforms. -/
structure Platform where
  /-- NONCE_SIZE (R11). -/
  nonceSize   : NonceSize
  /-- CODEC_BASE, the system address of the register window (R13). -/
  codecBase   : Nat
  /-- Where an engine read meets a bus error: BUS_OK(addr, read) = false (R14). -/
  readErrors  : List Window
  /-- Where an engine write meets a bus error: BUS_OK(addr, write) = false (R14). -/
  writeErrors : List Window
  /-- Memory with read side effects, which the block assumes no operand covers (R59). -/
  devices     : List Window
deriving DecidableEq, Repr

/-- The platform of the reset state. PRESUMED: NONCE_SIZE = 12 (log 4). DESIGN CHOICE: base 0, no bus
errors and no device memory (log 4). -/
def Config.resetPlatform : Platform :=
  { nonceSize := ⟨12, by decide, by decide⟩, codecBase := 0, readErrors := [], writeErrors := [],
    devices := [] }

/-- The answer of an RNG transaction (R110, R115). -/
inductive RngAnswer where
  | bytes (b : Bytes)
  | failure
deriving DecidableEq, Repr, Inhabited

/-- The answer of an AEAD_SEAL transaction (R110, R112). -/
inductive SealAnswer where
  | sealedBytes (s : Bytes)
  | cipherFailure
deriving DecidableEq, Repr, Inhabited

/-- The answer of an AEAD_OPEN transaction (R110, R113). -/
inductive OpenAnswer where
  | plain (p : Bytes)
  | authFailure
deriving DecidableEq, Repr, Inhabited

/-- The crypto port: the external functions the block reaches (R12, R110). The block's operations take
it as an argument, so a test can give one that computes. -/
structure CryptoPort where
  /-- HASH: any byte sequence to exactly 32 bytes (R111). -/
  hash     : Bytes → Vector Byte 32
  /-- Whether the random source fails at the draw of this index (R115). -/
  rngFails : Nat → Bool
  /-- Byte j of the draw of this index (R115). -/
  rngByte  : Nat → Nat → Byte
  /-- AEAD_SEAL of key, nonce and plaintext (R112). -/
  aeadSeal : Bytes → Bytes → Bytes → SealAnswer
  /-- AEAD_OPEN of key, nonce and sealed bytes (R113). -/
  aeadOpen : Bytes → Bytes → Bytes → OpenAnswer

/-- HASH is opaque (R111). -/
opaque Config.hash : Bytes → Vector Byte 32

/-- Whether a draw fails is not the model's choice (R115; log 9). -/
opaque Config.rngFails : Nat → Bool

/-- The bytes drawn are not the model's choice (R115; log 9). -/
opaque Config.rngByte : Nat → Nat → Byte

/-- AEAD_OPEN is opaque (R113). -/
opaque Config.aeadOpen : Bytes → Bytes → Bytes → OpenAnswer

/-- What AEAD_SEAL would answer before the law of R114 is imposed: opaque (R112; log 10). -/
opaque Config.sealProposal : Bytes → Bytes → Bytes → SealAnswer

/-- The law of R114 imposed on an answer of AEAD_SEAL: sealed bytes that AEAD_OPEN does not open to the
plaintext are no answer of a lawful port, and count as CIPHER_FAILURE. An answer that meets the law is
left as it is, so every lawful pair of functions is one of these (log 10). -/
def lawfulSeal (opened : Bytes → OpenAnswer) (plain : Bytes) : SealAnswer → SealAnswer
  | .cipherFailure => .cipherFailure
  | .sealedBytes b => if opened b = .plain plain then .sealedBytes b else .cipherFailure

/-- AEAD_SEAL: an opaque function that meets the law of R114 with AEAD_OPEN (R112, R114; log 10). -/
def Config.aeadSeal (key nonce plain : Bytes) : SealAnswer :=
  lawfulSeal (Config.aeadOpen key nonce) plain (Config.sealProposal key nonce plain)

/-- The crypto port of the machine. It meets the law of R114 (`Config.port_lawful`). -/
def Config.port : CryptoPort :=
  { hash := Config.hash, rngFails := Config.rngFails, rngByte := Config.rngByte,
    aeadSeal := Config.aeadSeal, aeadOpen := Config.aeadOpen }

/-- A free byte: the value of a raced byte (R65; log 8), one index a use. -/
opaque Config.freeByte : Nat → Byte

/-- A free engine state: the internal state after a command ends (R36, R43; log 7), one index a use. -/
opaque Config.idleEngine : Nat → Machine.Engine

/-- What a byte of data memory that nothing has written reads as. DESIGN CHOICE (log 5). -/
def Config.unwrittenByte : Byte := 0

/-- The one law of the AEAD functions (R114), for 32-byte keys and nonces of `n` bytes (R110): opening what
was sealed, under the same key and nonce, gives the plaintext. The machine's own port meets it. -/
def CryptoPort.OpenInvertsSeal (port : CryptoPort) (n : Nat) : Prop :=
  ∀ key nonce plain sealed, key.length = Config.keySize → nonce.length = n →
    port.aeadSeal key nonce plain = .sealedBytes sealed →
    port.aeadOpen key nonce sealed = .plain plain

/-- The named hypothesis HASH_DISTINCT (R111), of the two passphrases a claim is about. DESIGN CHOICE (log
10): R111 says "for passphrases S1 != S2" and not whether of two given ones or of all; of all byte
sequences no 32-byte hash could meet it, so a claim that took it would say nothing. -/
def CryptoPort.HashDistinct (port : CryptoPort) (s₁ s₂ : Bytes) : Prop :=
  s₁ ≠ s₂ → port.hash s₁ ≠ port.hash s₂

/-- The named hypothesis WRONG_KEY_REJECT (R114), for all 32-byte keys, nonces of `n` bytes and plaintexts,
as R114 says. DEDUCED (log 10): where the seal under the first key answered bytes. No definition assumes
it. -/
def CryptoPort.WrongKeyReject (port : CryptoPort) (n : Nat) : Prop :=
  ∀ k₁ k₂ nonce plain sealed, k₁.length = Config.keySize → k₂.length = Config.keySize →
    nonce.length = n → k₁ ≠ k₂ → port.aeadSeal k₁ nonce plain = .sealedBytes sealed →
    port.aeadOpen k₂ nonce sealed = .authFailure

/-- The draw of this index for a nonce of `n` bytes: `n` bytes, or RNG_FAILURE (R110, R115). -/
def CryptoPort.draw (port : CryptoPort) (index n : Nat) : RngAnswer :=
  if port.rngFails index then .failure else .bytes ((List.range n).map (port.rngByte index))

/-- The named hypothesis NONCE_DISTINCT (R115), for nonces of `n` bytes, of the two draws a claim is about:
where both succeed they differ. Of all draws no port whose draws all succeed could meet it (log 9). -/
def CryptoPort.NonceDistinct (port : CryptoPort) (n t₁ t₂ : Nat) : Prop :=
  ∀ b₁ b₂, t₁ ≠ t₂ → port.draw t₁ n = .bytes b₁ → port.draw t₂ n = .bytes b₂ → b₁ ≠ b₂

end Sys2Proof
end

