-- ==== Sys2Proof/WellFormed.lean ====
section
/-! DEFINITION. Well-formedness of the syntax: which words are commands (R70 to R74) and which host
operations are operations of the notation (R80 to R84). A term that fails a check is still given to
the machine: it answers ILLEGAL_OP (R100) or a host bus error (R58). -/

namespace Sys2Proof

/-- A command has no operand, so every command is well-formed (R70, R80). -/
def Instr.wf : Instr → Bool
  | .nop | .deriveKey | .sealPlain | .openSealed | .capacity | .embed | .extract => true

/-- A word is a command word when its reserved bits are 0 and its opcode is 0 to 6 (R70, R73, R74). -/
def commandWordWf (w : Word) : Bool :=
  w.extractLsb' 4 28 == 0#28 && decide ((w.extractLsb' 0 4).toNat ≤ 6)

/-- An access names a register when it is 32 bits wide, aligned, and at one of the sixteen offsets of
R76 (R58, R81, R82). -/
def registerAccessWf (codecBase addr size : Nat) : Bool :=
  size == 4 && decide (codecBase ≤ addr) && (addr - codecBase) % 4 == 0
    && decide (addr - codecBase ≤ 0x3C)

/-- A host operation of the notation (R80 to R84), for a window at `codecBase`. -/
def HostOp.wf (codecBase : Nat) : HostOp → Bool
  | .write addr size _ => registerAccessWf codecBase addr size
  | .read addr size    => registerAccessWf codecBase addr size
  | .poll addr _ _     => registerAccessWf codecBase addr 4
  | .run word          => commandWordWf word
  | .store _ _         => true
  | .load _            => true

end Sys2Proof
end

