-- ==== Sys2Proof/Decode.lean ====
section
/-! DEFINITION. Decoding a command word (R70 to R74), total on every 32-bit word, and its encoder,
written from the same table (R72). The register map (R76) and the assembler (R80) stand here too. -/

namespace Sys2Proof

/-- The field OP, bits 3:0 (R70). -/
def opField (w : Word) : BitVec 4 := w.extractLsb' 0 4

/-- The field RSV, bits 31:4 (R70). -/
def rsvField (w : Word) : BitVec 28 := w.extractLsb' 4 28

/-- Why a word is ILLEGAL (R71). -/
inductive DecodeError where
  /-- A bit of RSV is set (R74). -/
  | reservedBits
  /-- RSV is 0 and OP is 7 to 15 (R73). -/
  | reservedOpcode
deriving DecidableEq, Repr

/-- The opcode map (R72). -/
def decodeOpcode (op : BitVec 4) : Except DecodeError Instr :=
  match op.toNat with
  | 0 => .ok .nop
  | 1 => .ok .deriveKey
  | 2 => .ok .sealPlain
  | 3 => .ok .openSealed
  | 4 => .ok .capacity
  | 5 => .ok .embed
  | 6 => .ok .extract
  | _ => .error .reservedOpcode

/-- Decode a command word (R71). -/
def decode (w : Word) : Except DecodeError Instr :=
  if rsvField w = 0#28 then decodeOpcode (opField w) else .error .reservedBits

/-- The opcode of a command (R72). -/
def Instr.opcode : Instr → BitVec 4
  | .nop        => 0
  | .deriveKey  => 1
  | .sealPlain  => 2
  | .openSealed => 3
  | .capacity   => 4
  | .embed      => 5
  | .extract    => 6

/-- The command word of a command: RSV = 0, then OP (R70, R72). -/
def encode (i : Instr) : Word := 0#28 ++ i.opcode

/-- The mnemonic of a command (R72, R80). -/
def Instr.mnemonic : Instr → String
  | .nop        => "NOP"
  | .deriveKey  => "DERIVE_KEY"
  | .sealPlain  => "SEAL"
  | .openSealed => "OPEN"
  | .capacity   => "CAPACITY"
  | .embed      => "EMBED"
  | .extract    => "EXTRACT"

/-- Every command, in opcode order (R72). -/
def Instr.all : List Instr :=
  [.nop, .deriveKey, .sealPlain, .openSealed, .capacity, .embed, .extract]

/-- Assemble one line: a mnemonic with no operand gives its word, anything else is refused (R80). -/
def assemble (line : String) : Option Word :=
  (Instr.all.find? (fun i => i.mnemonic == line)).map encode

/-- The offset of a register in the window (R76). -/
def Reg.offset : Reg → BitVec 8
  | .version => 0x00
  | .cmd     => 0x04
  | .ctrl    => 0x08
  | .status  => 0x0C
  | .errAddr => 0x10
  | .srcBase => 0x14
  | .dstBase => 0x18
  | .width   => 0x1C
  | .height  => 0x20
  | .inBase  => 0x24
  | .inLen   => 0x28
  | .outBase => 0x2C
  | .outCap  => 0x30
  | .keyBase => 0x34
  | .outLen  => 0x38
  | .capBits => 0x3C

/-- Every register, in offset order (R76). -/
def Reg.all : List Reg :=
  [.version, .cmd, .ctrl, .status, .errAddr, .srcBase, .dstBase, .width, .height, .inBase, .inLen,
   .outBase, .outCap, .keyBase, .outLen, .capBits]

/-- The register at an offset; none at a reserved or unaligned offset (R40, R76). -/
def Reg.ofOffset (off : BitVec 8) : Option Reg := Reg.all.find? (fun r => r.offset == off)

/-- The system address of a register (R76, R81). -/
def Reg.address (codecBase : Nat) (r : Reg) : Nat := codecBase + r.offset.toNat

/-- `WR reg, value` (R81). -/
def HostOp.wr (codecBase : Nat) (r : Reg) (value : Word) : HostOp :=
  .write (r.address codecBase) 4 value

/-- `RD reg` (R82). -/
def HostOp.rd (codecBase : Nat) (r : Reg) : HostOp := .read (r.address codecBase) 4

/-- The bit of STATUS that POLL waits for in RUN: DONE (R84). -/
def doneMask : Word := 2

/-- `RUN` expands to the CMD write and the POLL for DONE; every other operation is itself (R84). -/
def HostOp.expand (codecBase : Nat) : HostOp → List HostOp
  | .run word => [.wr codecBase .cmd word, .poll (Reg.address codecBase .status) doneMask doneMask]
  | op        => [op]

/-- The offset that an aligned 32-bit access at a system address has in the 256-byte window; none for
any other access (R58). -/
def alignedOffset (codecBase addr size : Nat) : Option (BitVec 8) :=
  if size = 4 ∧ codecBase ≤ addr ∧ addr < codecBase + 256 ∧ (addr - codecBase) % 4 = 0 then
    some (BitVec.ofNat 8 (addr - codecBase))
  else none

/-- The bus transactions of a host operation on the window, RUN by its expansion (R86); none for an
operation that is no aligned 32-bit access of the window. -/
def HostOp.transactions (codecBase : Nat) : HostOp → List Transaction
  | .write addr size value =>
      ((alignedOffset codecBase addr size).map (fun off => Transaction.write off value)).toList
  | .read addr size => ((alignedOffset codecBase addr size).map Transaction.read).toList
  | .poll addr mask value =>
      ((alignedOffset codecBase addr 4).map (fun off => Transaction.poll off mask value)).toList
  | .run word =>
      [.write Reg.cmd.offset word, .poll Reg.status.offset doneMask doneMask]
  | .store _ _ => []
  | .load _ => []

/-- The host operation of a bus transaction (R86). -/
def Transaction.hostOp (codecBase : Nat) : Transaction → HostOp
  | .write off value     => .write (codecBase + off.toNat) 4 value
  | .read off            => .read (codecBase + off.toNat) 4
  | .poll off mask value => .poll (codecBase + off.toNat) mask value

/-- The command the decoder reads from a table word: `nbits` bits given, every bit above them 0. A
command is one 32-bit word (R70), so a longer row is no command. -/
def decodeTableWord (nbits w : Nat) : Option Instr :=
  if nbits ≤ 32 then (decode (BitVec.ofNat 32 (w % 2 ^ nbits))).toOption else none

end Sys2Proof
end

