-- ==== Sys2Proof/Machine/State.lean ====
section
/-! DEFINITION. The state of the machine as plain data (10_state.md), its stops, and reset (R43). -/

namespace Sys2Proof.Machine

/-- CTRL, its two stored bits (R23). -/
structure Ctrl where
  /-- 0 hardened, 1 legacy. -/
  truncPolicy : Bool
  irqEn       : Bool
deriving DecidableEq, Repr

/-- STATUS, its stored fields (R24 to R32); reserved bits are not stored (R31). -/
structure Status where
  busy    : Bool
  done    : Bool
  err     : Bool
  overrun : Bool
  trunc   : Bool
  fits    : Bool
  errcode : ErrCode
deriving DecidableEq, Repr

/-- The nine operand registers (R34). -/
structure Operands where
  srcBase : Word
  dstBase : Word
  width   : Word
  height  : Word
  inBase  : Word
  inLen   : Word
  outBase : Word
  outCap  : Word
  keyBase : Word
deriving DecidableEq, Repr

/-- One turn of the schedule: which agent moves next (R96, R225; log 2). -/
inductive Turn where
  /-- The host performs the next operation of its program. -/
  | host
  /-- Another host or bus master performs an operation of its own (R65, R197). -/
  | other (op : HostOp)
  /-- The engine takes one step. -/
  | engine
  /-- Reset from outside the block (R210). -/
  | reset
deriving DecidableEq, Repr

/-- What the host bus answered to the last host access. The model's own field (log 13). -/
inductive Response where
  /-- No access has been made. -/
  | none
  /-- A write was taken by the bus. -/
  | written
  /-- A read of the window returned this word. -/
  | word (w : Word)
  /-- A load of data memory returned this byte. -/
  | byte (b : Byte)
  /-- The access got a bus error from the window (R58). -/
  | busError
  /-- The access is not at the register window. -/
  | notSelected
deriving DecidableEq, Repr

/-- Everything the spec gives the machine, and the model's own fields after it. -/
structure State where
  ctrl     : Ctrl
  status   : Status
  /-- ERR_ADDR (R33). -/
  errAddr  : Word
  /-- The operand registers (R34). -/
  ops      : Operands
  /-- OUT_LEN (R35). -/
  outLen   : Word
  /-- CAP_BITS (R35). -/
  capBits  : Word
  /-- The internal state (R36 to R39). -/
  engine   : Engine
  /-- Data memory in canonical form (R50): addresses rising, no entry that reads as an unlisted one. -/
  mem      : List Host.Cell
  /-- The platform's parameters (R42). -/
  plat     : Platform
  /-- The bytes of the running command that another agent has raced on so far (R65). The model's own
  (log 8). -/
  raced    : List Nat
  /-- The number of random draws made (R115). The model's own (log 9). -/
  draws    : Nat
  /-- The index of the next free value. The model's own (log 7). -/
  free     : Nat
  /-- The host's remaining operations. The model's own (log 2). -/
  program  : List HostOp
  /-- The schedule. The model's own (log 2). -/
  turns    : List Turn
  /-- The host bus's last answer. The model's own (log 13). -/
  response : Response
deriving DecidableEq, Repr

/-- How a step can stop with a fault. -/
inductive Fault where
  /-- An engine access at an address of 2^32 or above, where data memory has no byte (R50). Raised by
  `engineRead` and `engineWrite`. Safe: the RANGE check of every command rules it out (R93), so only a
  state that no run reaches meets it (log 12). -/
  | outsideDataMemory (addr : Nat)
deriving DecidableEq, Repr

/-- How a step can be refused. -/
inductive Refusal where
  /-- The instruction has no meaning yet. Raised by `exec` only. Safe. -/
  | notModelled (mnemonic : String)
  /-- An engine access reaches memory with read side effects, which gives results the spec does not
  define (R59) and which a model should refuse (93_implementation_defined.md row 24). Raised by
  `engineRead` and `engineWrite`. Safe (log 11). -/
  | deviceMemory (addr : Nat)
deriving DecidableEq, Repr

/-- The outcome of one step. -/
abbrev Outcome := Host.Outcome State Fault Refusal

/-- CTRL after reset (R43). -/
def Ctrl.reset : Ctrl := { truncPolicy := false, irqEn := false }

/-- STATUS after reset (R43). -/
def Status.reset : Status :=
  { busy := false, done := false, err := false, overrun := false, trunc := false, fits := false,
    errcode := .noError }

/-- The operand registers after reset (R34, R43). -/
def Operands.reset : Operands :=
  { srcBase := 0, dstBase := 0, width := 0, height := 0, inBase := 0, inLen := 0, outBase := 0,
    outCap := 0, keyBase := 0 }

/-- The engine's internal state at a command's first step: cursors at 0, buffers empty (R38, R90). -/
def Engine.atStart (op : Instr) : Engine :=
  { curOp := op, phase := .start, x := 0, y := 0, c := 0, k := 0, i := 0, key := [], input := [],
    nonce := [], output := [], bits := [], q := [], cur := 0 }

/-- The machine right after reset (R43, R211). DESIGN CHOICE: the internal state (log 6), the empty
memory (log 5), the platform (log 4) and the model's own fields (log 2). -/
def State.reset : State :=
  { ctrl := Ctrl.reset, status := Status.reset, errAddr := 0, ops := Operands.reset, outLen := 0,
    capBits := 0, engine := Engine.atStart .nop, mem := [], plat := Config.resetPlatform, raced := [],
    draws := 0, free := 0, program := [], turns := [], response := .none }

end Sys2Proof.Machine
end

