-- ==== Sys2Proof/Machine/Bits.lean ====
section
/-! DEFINITION. The bit-packing primitives of the codec (R140 to R149) and the number primitives of the
pseudocode (R17). -/

namespace Sys2Proof.Machine

/-- Bit expansion of one byte, bit 7 first (R140). -/
def expand (b : Byte) : Bits :=
  [b.getLsbD 7, b.getLsbD 6, b.getLsbD 5, b.getLsbD 4, b.getLsbD 3, b.getLsbD 2, b.getLsbD 1,
   b.getLsbD 0]

/-- Bit expansion of a byte sequence, in byte order (R141). -/
def expandBytes (bs : Bytes) : Bits := bs.flatMap expand

/-- LE32: the four bytes of a number, least significant first (R17). -/
def le32 (n : Nat) : Bytes :=
  [BitVec.ofNat 8 n, BitVec.ofNat 8 (n / 256), BitVec.ofNat 8 (n / 65536),
   BitVec.ofNat 8 (n / 16777216)]

/-- U32LE: the number of the first four bytes, least significant first (R17). -/
def u32le (bs : Bytes) : Nat :=
  (bs.getD 0 0).toNat + 256 * (bs.getD 1 0).toNat + 65536 * (bs.getD 2 0).toNat
    + 16777216 * (bs.getD 3 0).toNat

/-- The frame bytes of a ciphertext: its length prefix, then its bytes (R142). -/
def frameBytes (c : Bytes) : Bytes := le32 c.length ++ c

/-- The frame bits of a ciphertext (R143). -/
def frame (c : Bytes) : Bits := expandBytes (frameBytes c)

/-- NBITS: the frame bit count of a payload of `len` bytes (R143). -/
def frameBitCount (len : Nat) : Nat := 32 + 8 * len

/-- LSB substitution: bit `f` into bit 0 of a channel byte (R145, conflict C1). -/
def lsbPut (v : Byte) (f : Bool) : Byte := (v &&& 0xFE#8) ||| (BitVec.ofBool f).setWidth 8

/-- LSB extraction (R145). -/
def lsbGet (v : Byte) : Bool := v.getLsbD 0

/-- The bit of a frame byte that frame bit `k` is: bit 7 first (R141, R152). -/
def frameBitOf (cur : Byte) (k : Nat) : Bool := cur.getLsbD (7 - k % 8)

/-- One reassembled byte; the first bit is bit 7 (R148). -/
def byteOfBits (b7 b6 b5 b4 b3 b2 b1 b0 : Bool) : Byte :=
  BitVec.ofBool b7 ++ BitVec.ofBool b6 ++ BitVec.ofBool b5 ++ BitVec.ofBool b4
    ++ BitVec.ofBool b3 ++ BitVec.ofBool b2 ++ BitVec.ofBool b1 ++ BitVec.ofBool b0

/-- Reassembly: a byte of each full group of eight bits; a trailing partial group is dropped (R148). -/
def reassemble : Bits → Bytes
  | b7 :: b6 :: b5 :: b4 :: b3 :: b2 :: b1 :: b0 :: rest =>
      byteOfBits b7 b6 b5 b4 b3 b2 b1 b0 :: reassemble rest
  | _ => []

/-- Length slicing: the declared bytes after the prefix, or none for FRAMING (R149). -/
def slicePayload (rb : Bytes) : Option Bytes :=
  if rb.length < 4 then none
  else if 4 + u32le rb > rb.length then none
  else some ((rb.drop 4).take (u32le rb))

/-- sat32 (R17). -/
def sat32 (n : Nat) : Word := BitVec.ofNat 32 (min n 0xFFFFFFFF)

end Sys2Proof.Machine
end

