-- ==== Sys2Proof/Machine/Flags.lean ====
section
/-! DEFINITION. Every status and flag computation: the packing of CTRL, STATUS and VERSION (R21, R23,
R77), the W1C write (R24), FITS (R30), and IRQ (R41, R191). -/

namespace Sys2Proof.Machine

/-- The code of an error (R182). -/
def ErrCode.code : ErrCode → BitVec 4
  | .noError     => 0
  | .illegalOp   => 1
  | .range       => 2
  | .overlap     => 3
  | .capacity    => 4
  | .framing     => 5
  | .outOverflow => 6
  | .malformed   => 7
  | .authFail    => 8
  | .rngFail     => 9
  | .cipherFail  => 10
  | .busError    => 11

/-- A flag as a number at bit `n` of a word. -/
def flagAt (f : Bool) (n : Nat) : Word := (BitVec.ofBool f).setWidth 32 <<< n

/-- The STATUS word (R24, R77); bits 7:6 and 31:12 read 0 (R31). -/
def Status.toWord (st : Status) : Word :=
  flagAt st.busy 0 ||| flagAt st.done 1 ||| flagAt st.err 2 ||| flagAt st.overrun 3
    ||| flagAt st.trunc 4 ||| flagAt st.fits 5 ||| (st.errcode.code.setWidth 32 <<< 8)

/-- A host write to STATUS: a 1 clears DONE, ERR or OVERRUN, every other bit is ignored (R24). -/
def Status.clearWritten (st : Status) (w : Word) : Status :=
  { st with done := st.done && !w.getLsbD 1, err := st.err && !w.getLsbD 2,
            overrun := st.overrun && !w.getLsbD 3 }

/-- The CTRL word (R23). -/
def Ctrl.toWord (ct : Ctrl) : Word := flagAt ct.truncPolicy 0 ||| flagAt ct.irqEn 1

/-- The stored bits of a word written to CTRL: bits 1:0 only (R23, R44). -/
def Ctrl.ofWord (w : Word) : Ctrl := { truncPolicy := w.getLsbD 0, irqEn := w.getLsbD 1 }

/-- The VERSION word (R21). -/
def versionWord (p : Platform) : Word :=
  BitVec.ofNat 8 Config.keySize ++ BitVec.ofNat 8 Config.tagSize
    ++ BitVec.ofNat 8 p.nonceSize.val ++ BitVec.ofNat 8 Config.formatVersion

/-- The IRQ output (R41, R191). -/
def State.irq (s : State) : Bool := s.ctrl.irqEn && s.status.done

/-- Whether a payload of `len` bytes fits a capacity of `cap` bits, on exact integers (R150). -/
def frameFits (len cap : Nat) : Bool := decide (frameBitCount len ≤ cap)

end Sys2Proof.Machine
end

