-- ==== Sys2Proof/Machine/Operands.lean ====
section
/-! DEFINITION. Every operand form: the registers as exact numbers (R75, R95), the regions they form
(R79), the range and overlap predicates (R93, R94), the addresses of pixels and slots (R55, R146), and
the parameter checks of each command in its order (R184). -/

namespace Sys2Proof.Machine

/-- A half-open region of data memory `[base, base + size)` (R79). -/
structure Region where
  base : Nat
  size : Nat
deriving DecidableEq, Repr

/-- NPIX = WIDTH * HEIGHT (R95). -/
def Operands.npix (o : Operands) : Nat := o.width.toNat * o.height.toNat

/-- GRID_BYTES = 4 * NPIX (R95). -/
def Operands.gridBytes (o : Operands) : Nat := 4 * o.npix

/-- CAP = 3 * NPIX, in bits (R95). -/
def Operands.capacity (o : Operands) : Nat := 3 * o.npix

/-- The SRC grid (R79). -/
def Operands.srcGrid (o : Operands) : Region := { base := o.srcBase.toNat, size := o.gridBytes }

/-- The DST grid (R79). -/
def Operands.dstGrid (o : Operands) : Region := { base := o.dstBase.toNat, size := o.gridBytes }

/-- The IN buffer (R79). -/
def Operands.inBuffer (o : Operands) : Region := { base := o.inBase.toNat, size := o.inLen.toNat }

/-- The OUT buffer, all of its room (R79, decision D38). -/
def Operands.outBuffer (o : Operands) : Region := { base := o.outBase.toNat, size := o.outCap.toNat }

/-- The KEY buffer (R79). -/
def Operands.keyBuffer (o : Operands) : Region := { base := o.keyBase.toNat, size := Config.keySize }

/-- Whether an address lies in a region. -/
def Region.contains (r : Region) (addr : Nat) : Bool :=
  decide (r.base ≤ addr) && decide (addr < r.base + r.size)

/-- RANGE_OK, on exact integers (R93). -/
def rangeOk (base n : Nat) : Bool := decide (base + n ≤ 2 ^ 32)

/-- RANGE_OK of a region (R93). -/
def Region.rangeOk (r : Region) : Bool := Machine.rangeOk r.base r.size

/-- OVERLAPS, on exact integers (R94). -/
def overlaps (a n b m : Nat) : Bool :=
  decide (n > 0) && decide (m > 0) && decide (a < b + m) && decide (b < a + n)

/-- OVERLAPS of two regions (R94). -/
def Region.overlaps (r t : Region) : Bool := Machine.overlaps r.base r.size t.base t.size

/-- The regions a command reads (R79). -/
def readRegions (op : Instr) (o : Operands) : List Region :=
  match op with
  | .nop        => []
  | .deriveKey  => [o.inBuffer]
  | .sealPlain  => [o.keyBuffer, o.inBuffer]
  | .openSealed => [o.keyBuffer, o.inBuffer]
  | .capacity   => []
  | .embed      => [o.srcGrid, o.inBuffer]
  | .extract    => [o.srcGrid]

/-- The regions a command writes (R79). -/
def writeRegions (op : Instr) (o : Operands) : List Region :=
  match op with
  | .nop        => []
  | .deriveKey  => [o.outBuffer]
  | .sealPlain  => [o.outBuffer]
  | .openSealed => [o.outBuffer]
  | .capacity   => []
  | .embed      => [o.dstGrid]
  | .extract    => [o.outBuffer]

/-- The offset in a grid of the pixel at column x and row y (R55). -/
def pixelOffset (width x y : Nat) : Nat := 4 * (y * width + x)

/-- The offset in a grid of slot j: channel j mod 3 of pixel j div 3 (R146). -/
def slotOffset (j : Nat) : Nat := 4 * (j / 3) + j % 3

/-- SEAL's NEED: the bytes of the ciphertext of `len` plaintext bytes (R119, R120). -/
def sealNeed (p : Platform) (len : Nat) : Nat := p.nonceSize.val + len + Config.tagSize

/-- The parameter checks of DERIVE_KEY, in order (R118). -/
def checkDeriveKey (o : Operands) : Option ErrCode :=
  if !o.inBuffer.rangeOk || !o.outBuffer.rangeOk then some .range
  else if o.inBuffer.overlaps o.outBuffer then some .overlap
  else if o.outCap.toNat < 32 then some .outOverflow
  else none

/-- The parameter checks of SEAL, in order (R120). -/
def checkSeal (p : Platform) (o : Operands) : Option ErrCode :=
  if !o.inBuffer.rangeOk || !o.outBuffer.rangeOk || !o.keyBuffer.rangeOk then some .range
  else if o.outBuffer.overlaps o.inBuffer || o.outBuffer.overlaps o.keyBuffer then some .overlap
  else if sealNeed p o.inLen.toNat > o.outCap.toNat then some .outOverflow
  else none

/-- The parameter checks of OPEN, in order (R122). -/
def checkOpen (p : Platform) (o : Operands) : Option ErrCode :=
  if !o.inBuffer.rangeOk || !o.outBuffer.rangeOk || !o.keyBuffer.rangeOk then some .range
  else if o.outBuffer.overlaps o.inBuffer || o.outBuffer.overlaps o.keyBuffer then some .overlap
  else if o.inLen.toNat < p.nonceSize.val then some .malformed
  else if o.inLen.toNat - p.nonceSize.val < Config.tagSize then some .authFail
  else if o.inLen.toNat - p.nonceSize.val - Config.tagSize > o.outCap.toNat then some .outOverflow
  else none

/-- The parameter checks of EMBED, in order (R152). -/
def checkEmbed (ct : Ctrl) (o : Operands) : Option ErrCode :=
  if !o.srcGrid.rangeOk || !o.dstGrid.rangeOk || !o.inBuffer.rangeOk then some .range
  else if o.dstGrid.overlaps o.srcGrid || o.dstGrid.overlaps o.inBuffer then some .overlap
  else if frameBitCount o.inLen.toNat > o.capacity && !ct.truncPolicy then some .capacity
  else none

/-- The parameter checks of EXTRACT, in order (R153). -/
def checkExtract (o : Operands) : Option ErrCode :=
  if !o.srcGrid.rangeOk || !o.outBuffer.rangeOk then some .range
  else if o.outBuffer.overlaps o.srcGrid then some .overlap
  else none

end Sys2Proof.Machine
end

