-- ==== Sys2Proof/Machine/Ops.lean ====
section
/-! DEFINITION. The named operations over memory and registers: data memory in canonical form, one
engine access (R52, R53), acceptance (R90, R92), completion and raise, which is all of taking an
exception (R97, R181), the return from it (R188), and reset (R210 to R213). -/

namespace Sys2Proof.Machine

/-! ## Data memory -/

/-- The byte at an address; an unlisted address reads as `Config.unwrittenByte` (log 5). -/
def Memory.read : List Host.Cell → Nat → Byte
  | [], _ => Config.unwrittenByte
  | (b, v) :: rest, a => if a = b then v else Memory.read rest a

/-- Put a listed byte at its place in the rising order. -/
def Memory.insert : List Host.Cell → Nat → Byte → List Host.Cell
  | [], a, v => [(a, v)]
  | (b, w) :: rest, a, v =>
      if a < b then (a, v) :: (b, w) :: rest
      else if a = b then (a, v) :: rest
      else (b, w) :: Memory.insert rest a v

/-- Take an address off the list. -/
def Memory.erase (m : List Host.Cell) (a : Nat) : List Host.Cell := m.filter (fun cell => cell.1 != a)

/-- Write one byte, keeping the canonical form. -/
def Memory.write (m : List Host.Cell) (a : Nat) (v : Byte) : List Host.Cell :=
  if v = Config.unwrittenByte then Memory.erase m a else Memory.insert m a v

/-- Write a byte sequence upward from an address. -/
def Memory.writeAll : List Host.Cell → Nat → Bytes → List Host.Cell
  | m, _, [] => m
  | m, a, b :: bs => Memory.writeAll (Memory.write m a b) (a + 1) bs

/-- Read `n` bytes upward from an address. -/
def Memory.readAll (m : List Host.Cell) (a n : Nat) : Bytes :=
  (List.range n).map (fun j => Memory.read m (a + j))

/-- The canonical form: addresses below 2^32 (R50), strictly rising, and no entry equal to what an
unlisted address reads as. -/
def Memory.wf : List Host.Cell → Bool
  | [] => true
  | (a, v) :: rest =>
      decide (a < Config.addressSpace) && v != Config.unwrittenByte
        && rest.all (fun cell => decide (a < cell.1)) && Memory.wf rest

/-! ## One engine access (R52) -/

/-- Whether an address lies in a window. -/
def windowCovers (addr : Nat) (w : Window) : Bool :=
  decide (w.base ≤ addr) && decide (addr < w.base + w.size)

/-- BUS_OK(addr, dir) (R14). -/
def busOk (p : Platform) (addr : Nat) : Dir → Bool
  | .read  => !p.readErrors.any (windowCovers addr)
  | .write => !p.writeErrors.any (windowCovers addr)

/-- Whether an address is memory with read side effects (R59). -/
def isDevice (p : Platform) (addr : Nat) : Bool := p.devices.any (windowCovers addr)

/-- What stops an access at an address, if anything does: a bus error (R53), device memory (R59), or an
address outside data memory (R50). -/
def accessHalt (p : Platform) (addr : Nat) (dir : Dir) : Option Halt :=
  if Config.addressSpace ≤ addr then some (.outside addr)
  else if !busOk p addr dir then some (.bus addr)
  else if isDevice p addr then some (.device addr)
  else none

/-- MemRead(addr, 1) with no race (R17). -/
def readByte (s : State) (addr : Nat) : Except Halt Byte :=
  match accessHalt s.plat addr .read with
  | some h => .error h
  | none   => .ok (Memory.read s.mem addr)

/-- MemWrite(addr, 1, v) with no race (R17). -/
def writeByte (s : State) (addr : Nat) (v : Byte) : Except Halt State :=
  match accessHalt s.plat addr .write with
  | some h => .error h
  | none   => .ok { s with mem := Memory.write s.mem addr v }

/-- `n` byte reads upward from an address, stopping at the first that is not performed (R59, R60). -/
def readBytes (s : State) : Nat → Nat → Except Halt Bytes
  | _, 0 => .ok []
  | addr, n + 1 =>
      match readByte s addr with
      | .error h => .error h
      | .ok b =>
          match readBytes s (addr + 1) n with
          | .error h => .error h
          | .ok bs   => .ok (b :: bs)

/-- Byte writes upward from an address. At the first that is not performed it gives the state with the
writes already performed, which stay (R53). -/
def writeBytes : State → Nat → Bytes → Except (State × Halt) State
  | s, _, [] => .ok s
  | s, addr, b :: bs =>
      match writeByte s addr b with
      | .error h => .error (s, h)
      | .ok s'   => writeBytes s' (addr + 1) bs

/-! ## Acceptance, completion and errors -/

/-- The clearing of acceptance (R92). -/
def clearForCommand (s : State) : State :=
  { s with status := { s.status with done := false, err := false, errcode := .noError, trunc := false },
           errAddr := 0, outLen := 0 }

/-- Start a decoded command: CUR_OP, BUSY, the first step (R90), an empty bit buffer (R38). -/
def beginCommand (op : Instr) (s : State) : State :=
  { s with status := { s.status with busy := true }, engine := Engine.atStart op, raced := [] }

/-- Acceptance of a decoded command (R90, R92). -/
def accept (op : Instr) (s : State) : State := beginCommand op (clearForCommand s)

/-- The completion step (R97): `complete()` with code 0, `raise E` with E's code. This is the whole of
taking an exception (R181). The internal state holds nothing afterwards (R36 to R39): it is a free value
(log 7). -/
def finish (code : ErrCode) (s : State) : State :=
  { s with status := { s.status with errcode := code, err := decide (code ≠ .noError), done := true,
                                     busy := false },
           engine := Config.idleEngine s.free, free := s.free + 1, raced := [] }

/-- `complete()` of a command that writes OUT_LEN (R35, R97). -/
def completeWith (len : Nat) (s : State) : State :=
  finish .noError { s with outLen := BitVec.ofNat 32 len }

/-- `raise BUS_ERROR(addr)`: the only error that records an address (R33, R186). -/
def raiseBusError (addr : Nat) (s : State) : State :=
  finish .busError { s with errAddr := BitVec.ofNat 32 addr }

/-- What a command's access that is not performed does: a bus error ends the command (R186). -/
def halt (h : Halt) (s : State) : Outcome :=
  match h with
  | .bus addr     => .next (raiseBusError addr s)
  | .device addr  => .refused (.deviceMemory addr)
  | .outside addr => .fault (.outsideDataMemory addr)

/-- The return from an error, where the host asks for it: DONE and ERR cleared by a write of 6 to STATUS,
ERRCODE kept (R188). -/
def acknowledge (s : State) : State := { s with status := s.status.clearWritten 6 }

/-- A write that BUSY makes ignored (R28, R91, R217). -/
def setOverrun (s : State) : State := { s with status := { s.status with overrun := true } }

/-- A command word at CMD: ignored while BUSY (R91), otherwise accepted and run by `body` (R90). -/
def issue (op : Instr) (body : State → Outcome) (s : State) : Outcome :=
  if s.status.busy then .next (setOverrun s) else body (accept op s)

/-- An ILLEGAL word at acceptance: it completes at once and BUSY is never set (R100). -/
def acceptIllegal (s : State) : State := finish .illegalOp (clearForCommand s)

/-- Reset (R210 to R213): every piece of block state takes its reset value; memory, the platform and
what belongs to the host stay (log 18). -/
def resetBlock (s : State) : State :=
  { State.reset with mem := s.mem, plat := s.plat, draws := s.draws, free := s.free,
                     program := s.program, turns := s.turns, response := s.response }

/-- The output bytes at OUT_BASE, then OUT_LEN and completion (R118, R120, R122, R153). -/
def writeOutput (out : Bytes) (s : State) : Outcome :=
  match writeBytes s s.ops.outBase.toNat out with
  | .error (s', h) => halt h s'
  | .ok s'         => .next (completeWith out.length s')

/-- The register updates that CAPACITY, EMBED and EXTRACT begin with (R150). -/
def writeCapBits (s : State) : State := { s with capBits := sat32 s.ops.capacity }

/-- STATUS.FITS, as CAPACITY and EMBED write it (R150). -/
def writeFits (s : State) : State :=
  { s with status := { s.status with fits := frameFits s.ops.inLen.toNat s.ops.capacity } }

/-- STATUS.TRUNC, set by EMBED when the frame does not fit and the policy is legacy (R29, R152). -/
def writeTrunc (s : State) : State :=
  if frameBitCount s.ops.inLen.toNat > s.ops.capacity then
    { s with status := { s.status with trunc := true } }
  else s

/-- The pseudocode before a command's first access: its register updates and its parameter checks, with
the code of the first check that fails (R98, R184). -/
def opening (op : Instr) (s : State) : State × Option ErrCode :=
  match op with
  | .nop        => (s, none)
  | .deriveKey  => (s, checkDeriveKey s.ops)
  | .sealPlain  => (s, checkSeal s.plat s.ops)
  | .openSealed => (s, checkOpen s.plat s.ops)
  | .capacity   => (writeFits (writeCapBits s), none)
  | .embed      =>
      match checkEmbed s.ctrl s.ops with
      | some e => (writeFits (writeCapBits s), some e)
      | none   => (writeTrunc (writeFits (writeCapBits s)), none)
  | .extract    => (writeCapBits s, checkExtract s.ops)

end Sys2Proof.Machine
end

