-- ==== Sys2Proof/Machine/Codec.lean ====
section
/-! DEFINITION. The meanings of the bit-packing codec: CAPACITY (R151), EMBED (R152) and EXTRACT (R153),
each from its first line to its completion. -/

namespace Sys2Proof.Machine

/-- CAPACITY (R151): the lines of R150, then `complete()`. -/
def capacityBody (s : State) : Outcome := .next (finish .noError (writeFits (writeCapBits s)))

/-- EMBED's frame-bit cursor `k`, frame-byte latch `cur` and pixel latch `q` (R152). -/
structure PixelWork where
  k   : Nat
  cur : Byte
  q   : Bytes
deriving DecidableEq, Repr

/-- Frame byte `n`: of the length prefix, or the payload byte read now (R142, R152). -/
def frameByte (s : State) (n : Nat) : Except Halt Byte :=
  if n < 4 then .ok ((le32 s.ops.inLen.toNat).getD n 0)
  else readByte s (s.ops.inBase.toNat + (n - 4))

/-- One channel of a pixel: while frame bits remain, its next frame bit goes into bit 0 of the channel
(R145, R152). -/
def embedChannel (s : State) (c : Nat) (w : PixelWork) : Except Halt PixelWork :=
  if w.k < frameBitCount s.ops.inLen.toNat then
    match (if w.k % 8 = 0 then frameByte s (w.k / 8) else .ok w.cur) with
    | .error h => .error h
    | .ok cur  =>
        .ok { k := w.k + 1, cur := cur,
              q := w.q.set c (lsbPut (w.q.getD c 0) (frameBitOf cur w.k)) }
  else .ok w

/-- The channels of a list, in order. -/
def embedChannels (s : State) : List Nat → PixelWork → Except Halt PixelWork
  | [], w => .ok w
  | c :: cs, w =>
      match embedChannel s c w with
      | .error h => .error h
      | .ok w'   => embedChannels s cs w'

/-- The pixels of EMBED from pixel `p` on, `n` of them, in raster order (R146, R152): four source reads,
the R, G and B channels, four destination writes. -/
def embedPixels : State → Nat → Nat → Nat → Byte → Except (State × Halt) State
  | s, _, 0, _, _ => .ok s
  | s, p, n + 1, k, cur =>
      match readBytes s (s.ops.srcBase.toNat + 4 * p) 4 with
      | .error h => .error (s, h)
      | .ok q =>
          match embedChannels s [0, 1, 2] { k := k, cur := cur, q := q } with
          | .error h => .error (s, h)
          | .ok w =>
              match writeBytes s (s.ops.dstBase.toNat + 4 * p) w.q with
              | .error e => .error e
              | .ok s'   => embedPixels s' (p + 1) n w.k w.cur

/-- EMBED (R152). -/
def embedBody (s : State) : Outcome :=
  let s1 := writeFits (writeCapBits s)
  match checkEmbed s.ctrl s.ops with
  | some e => .next (finish e s1)
  | none =>
      match embedPixels (writeTrunc s1) 0 s.ops.npix 0 0 with
      | .error (s', h) => halt h s'
      | .ok s'         => .next (finish .noError s')

/-- The slot LSBs of `n` pixels from pixel `p` on, in slot order; alpha is never read (R146, R153). -/
def readSlots (s : State) : Nat → Nat → Except Halt Bits
  | _, 0 => .ok []
  | p, n + 1 =>
      match readBytes s (s.ops.srcBase.toNat + 4 * p) 3 with
      | .error h => .error h
      | .ok rgb =>
          match readSlots s (p + 1) n with
          | .error h => .error h
          | .ok bits => .ok (rgb.map lsbGet ++ bits)

/-- EXTRACT after its reads: reassembly, the FRAMING and OUT_OVERFLOW checks, the writes (R149, R153). -/
def extractFrom (bits : Bits) (s : State) : Outcome :=
  match slicePayload (reassemble bits) with
  | none => .next (finish .framing s)
  | some payload =>
      if payload.length > s.ops.outCap.toNat then .next (finish .outOverflow s)
      else writeOutput payload s

/-- EXTRACT (R153). -/
def extractBody (s : State) : Outcome :=
  let s1 := writeCapBits s
  match checkExtract s.ops with
  | some e => .next (finish e s1)
  | none =>
      match readSlots s1 0 s.ops.npix with
      | .error h => halt h s1
      | .ok bits => extractFrom bits s1

/-- CAPACITY, accepted and run to its completion (R151). -/
def execCapacity (s : State) : Outcome := issue .capacity capacityBody s

/-- EMBED, accepted and run to its completion (R152). -/
def execEmbed (s : State) : Outcome := issue .embed embedBody s

/-- EXTRACT, accepted and run to its completion (R153). -/
def execExtract (s : State) : Outcome := issue .extract extractBody s

end Sys2Proof.Machine
end

