-- ==== Sys2Proof/Machine/Control.lean ====
section
/-! DEFINITION. The meaning of NOP (R99). -/

namespace Sys2Proof.Machine

/-- NOP: `complete()` (R99). -/
def nopBody (s : State) : Outcome := .next (finish .noError s)

/-- NOP, accepted and run to its completion (R99). -/
def execNop (s : State) : Outcome := issue .nop nopBody s

end Sys2Proof.Machine
end

