-- ==== Sys2Proof/Machine/Crypto.lean ====
section
/-! DEFINITION. The meanings of the cryptographic layer: DERIVE_KEY (R118), SEAL (R120) and OPEN (R122),
each from its first line to its completion, over a crypto port given as an argument (R110). -/

namespace Sys2Proof.Machine

/-- DERIVE_KEY (R118). -/
def deriveKeyBody (port : CryptoPort) (s : State) : Outcome :=
  match checkDeriveKey s.ops with
  | some e => .next (finish e s)
  | none =>
      match readBytes s s.ops.inBase.toNat s.ops.inLen.toNat with
      | .error h      => halt h s
      | .ok passphrase => writeOutput (port.hash passphrase).toList s

/-- SEAL after its reads: the draw, the seal, the length check and the writes (R120). -/
def sealWith (port : CryptoPort) (key plain : Bytes) (s : State) : Outcome :=
  let s1 := { s with draws := s.draws + 1 }
  match port.draw s.draws s.plat.nonceSize.val with
  | .failure => .next (finish .rngFail s1)
  | .bytes nonce =>
      match port.aeadSeal key nonce plain with
      | .cipherFailure => .next (finish .cipherFail s1)
      | .sealedBytes sealed =>
          if sealed.length ≠ plain.length + Config.tagSize then .next (finish .cipherFail s1)
          else writeOutput (nonce ++ sealed) s1

/-- SEAL (R120). -/
def sealBody (port : CryptoPort) (s : State) : Outcome :=
  match checkSeal s.plat s.ops with
  | some e => .next (finish e s)
  | none =>
      match readBytes s s.ops.keyBase.toNat Config.keySize with
      | .error h => halt h s
      | .ok key =>
          match readBytes s s.ops.inBase.toNat s.ops.inLen.toNat with
          | .error h  => halt h s
          | .ok plain => sealWith port key plain s

/-- OPEN after its reads: the split at the nonce, the open, the length check and the writes (R122). -/
def openWith (port : CryptoPort) (key cipher : Bytes) (s : State) : Outcome :=
  let nonce := cipher.take s.plat.nonceSize.val
  let sealed := cipher.drop s.plat.nonceSize.val
  match port.aeadOpen key nonce sealed with
  | .authFailure => .next (finish .authFail s)
  | .plain p =>
      if p.length ≠ sealed.length - Config.tagSize then .next (finish .cipherFail s)
      else writeOutput p s

/-- OPEN (R122). -/
def openBody (port : CryptoPort) (s : State) : Outcome :=
  match checkOpen s.plat s.ops with
  | some e => .next (finish e s)
  | none =>
      match readBytes s s.ops.keyBase.toNat Config.keySize with
      | .error h => halt h s
      | .ok key =>
          match readBytes s s.ops.inBase.toNat s.ops.inLen.toNat with
          | .error h   => halt h s
          | .ok cipher => openWith port key cipher s

/-- DERIVE_KEY, accepted and run to its completion (R118). -/
def execDeriveKey (s : State) : Outcome := issue .deriveKey (deriveKeyBody Config.port) s

/-- SEAL, accepted and run to its completion (R120). -/
def execSeal (s : State) : Outcome := issue .sealPlain (sealBody Config.port) s

/-- OPEN, accepted and run to its completion (R122). -/
def execOpen (s : State) : Outcome := issue .openSealed (openBody Config.port) s

end Sys2Proof.Machine
end

