-- ==== Sys2Proof/Machine/Dispatch.lean ====
section
/-! DEFINITION. The meaning of each command: one arm a constructor. -/

namespace Sys2Proof.Machine

def exec (i : Instr) (s : State) : Host.Outcome State Fault Refusal :=
  match i with
  | .nop => Sys2Proof.Machine.execNop s
  | .deriveKey => Sys2Proof.Machine.execDeriveKey s
  | .sealPlain => Sys2Proof.Machine.execSeal s
  | .openSealed => Sys2Proof.Machine.execOpen s
  | .capacity => Sys2Proof.Machine.execCapacity s
  | .embed => Sys2Proof.Machine.execEmbed s
  | .extract => Sys2Proof.Machine.execExtract s

end Sys2Proof.Machine
end

