-- ==== Sys2Proof/Machine/Sequencer.lean ====
section
/-! DEFINITION. The engine as the spec steps it (R96): one step per memory access or crypto-port
transaction of the running command, in the order of its pseudocode (R60). `planStep` is the pure
computation up to the next access; `engineStep` performs that access or the completion step. -/

namespace Sys2Proof.Machine

/-- What an engine step does after its pure computation (R96). -/
inductive Action where
  /-- One byte read. -/
  | read (addr : Nat)
  /-- One byte write. -/
  | write (addr : Nat) (v : Byte)
  /-- One crypto-port transaction: the one the phase names, its request in the latches. -/
  | transact
  /-- The completion step of a success, with the value for OUT_LEN. -/
  | complete (len : Nat)
  /-- The completion step of a success that leaves OUT_LEN as acceptance cleared it. -/
  | completePlain
  /-- The completion step of an error. -/
  | raise (code : ErrCode)
deriving DecidableEq, Repr

/-- The engine moved to a phase, its byte cursor at 0. -/
def enterPhase (ph : Phase) (s : State) : State :=
  { s with engine := { s.engine with phase := ph, i := 0 } }

/-- The port transaction that follows the IN buffer reads (R118, R120, R122). -/
def transactionPhase : Instr → Phase
  | .deriveKey  => .hash
  | .sealPlain  => .rng
  | .openSealed => .unseal
  | .nop | .capacity | .embed | .extract => .start

/-- The next output write, or success when every output byte is written. -/
def planOutput (s : State) : State × Action :=
  match s.engine.output[s.engine.i]? with
  | some b => (s, .write (s.ops.outBase.toNat + s.engine.i) b)
  | none   => (s, .complete s.engine.output.length)

/-- The next IN buffer read, or the transaction after the last (R118, R120, R122). -/
def planInput (s : State) : State × Action :=
  if s.engine.i < s.ops.inLen.toNat then (s, .read (s.ops.inBase.toNat + s.engine.i))
  else (enterPhase (transactionPhase s.engine.curOp) s, .transact)

/-- The next key read, or what follows the last (R117). -/
def planKey (s : State) : State × Action :=
  if s.engine.i < Config.keySize then (s, .read (s.ops.keyBase.toNat + s.engine.i))
  else planInput (enterPhase .input s)

/-- Whether the pixel cursor is in the grid: the loops of EMBED and EXTRACT go on (R152, R153). -/
def cursorInGrid (s : State) : Bool :=
  decide (s.engine.y.toNat < s.ops.height.toNat) && decide (s.engine.x.toNat < s.ops.width.toNat)

/-- The address of the cursor's pixel in a grid (R55). -/
def cursorPixel (base : Word) (s : State) : Nat :=
  base.toNat + pixelOffset s.ops.width.toNat s.engine.x.toNat s.engine.y.toNat

/-- The cursor at the next pixel in raster order (R146). -/
def nextPixel (o : Operands) (e : Engine) : Engine :=
  if e.x.toNat + 1 < o.width.toNat then { e with x := e.x + 1 } else { e with x := 0, y := e.y + 1 }

/-- The next source read of EMBED, or its success after the last pixel (R152). -/
def planSource (s : State) : State × Action :=
  if cursorInGrid s then (s, .read (cursorPixel s.ops.srcBase s + s.engine.i)) else (s, .completePlain)

/-- The next destination write of EMBED (R152). -/
def planDest (s : State) : State × Action :=
  (s, .write (cursorPixel s.ops.dstBase s + s.engine.i) (s.engine.q.getD s.engine.i 0))

/-- Frame bit `k` of the frame byte `cur`, put into channel `c`; then the frame cursor moves on (R152). -/
def putFrameBit (c : Nat) (cur : Byte) (e : Engine) : Engine :=
  { e with cur := cur, q := e.q.set c (lsbPut (e.q.getD c 0) (frameBitOf cur e.k)), k := e.k + 1 }

/-- The channels that remain of the pixel, `n` of them, up to the payload read that one needs or to the
destination writes (R152). -/
def planChannels : Nat → State → State × Action
  | 0, s => planDest (enterPhase .dest s)
  | n + 1, s =>
      if s.engine.k < frameBitCount s.ops.inLen.toNat then
        if s.engine.k % 8 ≠ 0 then
          planChannels n { s with engine := putFrameBit (2 - n) s.engine.cur s.engine }
        else if s.engine.k / 8 < 4 then
          planChannels n
            { s with engine :=
                putFrameBit (2 - n) ((le32 s.ops.inLen.toNat).getD (s.engine.k / 8) 0) s.engine }
        else
          ({ s with engine := { s.engine with phase := .payload, c := Fin.ofNat 3 (2 - n) } },
            .read (s.ops.inBase.toNat + (s.engine.k / 8 - 4)))
      else planChannels n s

/-- The next slot read of EXTRACT; after the last, reassembly, slicing and the size check, then the first
output write, success or an error (R149, R153). -/
def planSlots (s : State) : State × Action :=
  if cursorInGrid s then (s, .read (cursorPixel s.ops.srcBase s + s.engine.c.val))
  else
    match slicePayload (reassemble s.engine.bits) with
    | none => (s, .raise .framing)
    | some payload =>
        if payload.length > s.ops.outCap.toNat then (s, .raise .outOverflow)
        else planOutput { s with engine := { s.engine with phase := .output, i := 0, output := payload } }

/-- After the parameter checks: the way to the command's first access. -/
def planFirst (s : State) : State × Action :=
  match s.engine.curOp with
  | .nop        => (s, .completePlain)
  | .deriveKey  => planInput (enterPhase .input s)
  | .sealPlain  => planKey (enterPhase .key s)
  | .openSealed => planKey (enterPhase .key s)
  | .capacity   => (s, .completePlain)
  | .embed      => planSource (enterPhase .source s)
  | .extract    => planSlots (enterPhase .slots s)

/-- The pseudocode from its first line: register updates, parameter checks, first access (R184). -/
def planStart (s : State) : State × Action :=
  match opening s.engine.curOp s with
  | (s', some e) => (s', .raise e)
  | (s', none)   => planFirst s'

/-- The pure computation of the engine's next step (R96). -/
def planStep (s : State) : State × Action :=
  match s.engine.phase with
  | .start       => planStart s
  | .key         => planKey s
  | .input       => planInput s
  | .hash        => (s, .transact)
  | .rng         => (s, .transact)
  | .sealing     => (s, .transact)
  | .unseal      => (s, .transact)
  | .source      => planSource s
  | .channel     => planChannels (3 - s.engine.c.val) s
  | .payload     => (s, .read (s.ops.inBase.toNat + (s.engine.k / 8 - 4)))
  | .dest        => planDest s
  | .slots       => planSlots s
  | .output      => planOutput s
  | .failed code => (s, .raise code)

/-! ## One access -/

/-- MemRead(addr, 1). A byte that another agent writes while the command runs reads as a free value,
where that agent has been there already (`State.raced`) and where it is still to come (`raced`; R65,
log 8). -/
def engineRead (raced : Bool) (s : State) (addr : Nat) : Except Halt (Byte × State) :=
  match accessHalt s.plat addr .read with
  | some h => .error h
  | none   =>
      if raced || s.raced.contains addr then
        .ok (Config.freeByte s.free, { s with free := s.free + 1 })
      else .ok (Memory.read s.mem addr, s)

/-- MemWrite(addr, 1, v). A byte that another agent has accessed while the command runs is left with a free
value (R65; log 8); an agent that comes to it later leaves a free value itself (`raceAt`). -/
def engineWrite (s : State) (addr : Nat) (v : Byte) : Except Halt State :=
  match accessHalt s.plat addr .write with
  | some h => .error h
  | none   =>
      if s.raced.contains addr then
        .ok { s with mem := Memory.write s.mem addr (Config.freeByte s.free), free := s.free + 1 }
      else .ok { s with mem := Memory.write s.mem addr v }

/-- The engine after the channel step that a payload byte completes (R152). -/
def afterPayload (b : Byte) (e : Engine) : Engine :=
  if e.c.val < 2 then { putFrameBit e.c.val b e with phase := .channel, c := e.c + 1 }
  else { putFrameBit e.c.val b e with phase := .dest, i := 0 }

/-- The engine after a byte has been read: the latch of its phase takes it and its cursor moves on. -/
def afterRead (o : Operands) (b : Byte) (e : Engine) : Engine :=
  match e.phase with
  | .key     => { e with key := e.key ++ [b], i := e.i + 1 }
  | .input   => { e with input := e.input ++ [b], i := e.i + 1 }
  | .source  =>
      if e.i < 3 then { e with q := e.q ++ [b], i := e.i + 1 }
      else { e with q := e.q ++ [b], i := 0, phase := .channel, c := 0 }
  | .payload => afterPayload b e
  | .slots   =>
      if e.c.val < 2 then { e with bits := e.bits ++ [lsbGet b], c := e.c + 1 }
      else nextPixel o { e with bits := e.bits ++ [lsbGet b], c := 0 }
  | .start | .hash | .rng | .sealing | .unseal | .channel | .dest | .output | .failed _ => e

/-- The engine after a byte has been written. -/
def afterWrite (o : Operands) (e : Engine) : Engine :=
  match e.phase with
  | .dest   =>
      if e.i < 3 then { e with i := e.i + 1 }
      else nextPixel o { e with i := 0, q := [], phase := .source }
  | .output => { e with i := e.i + 1 }
  | .start | .key | .input | .hash | .rng | .sealing | .unseal | .source | .channel | .payload | .slots
  | .failed _ => e

/-- The engine with its output bytes ready (R118, R120, R122). -/
def withOutput (out : Bytes) (e : Engine) : Engine := { e with phase := .output, i := 0, output := out }

/-- The engine after a port answer has failed the command; the completion step raises the code (R98). -/
def withFailure (code : ErrCode) (e : Engine) : Engine := { e with phase := .failed code }

/-- The answer of AEAD_SEAL (R112, R120). -/
def afterSeal (answer : SealAnswer) (e : Engine) : Engine :=
  match answer with
  | .cipherFailure => withFailure .cipherFail e
  | .sealedBytes sealed =>
      if sealed.length ≠ e.input.length + Config.tagSize then withFailure .cipherFail e
      else withOutput (e.nonce ++ sealed) e

/-- The answer of AEAD_OPEN, for sealed bytes of length `sealedLen` (R113, R122). -/
def afterOpen (sealedLen : Nat) (answer : OpenAnswer) (e : Engine) : Engine :=
  match answer with
  | .authFailure => withFailure .authFail e
  | .plain p =>
      if p.length ≠ sealedLen - Config.tagSize then withFailure .cipherFail e else withOutput p e

/-- One crypto-port transaction: its request and its answer (R110). -/
def transact (port : CryptoPort) (s : State) : State :=
  match s.engine.phase with
  | .hash   => { s with engine := withOutput (port.hash s.engine.input).toList s.engine }
  | .rng    =>
      match port.draw s.draws s.plat.nonceSize.val with
      | .failure     =>
          { s with draws := s.draws + 1, engine := withFailure .rngFail s.engine }
      | .bytes nonce =>
          { s with draws := s.draws + 1, engine := { s.engine with nonce := nonce, phase := .sealing } }
  | .sealing =>
      { s with engine :=
          afterSeal (port.aeadSeal s.engine.key s.engine.nonce s.engine.input) s.engine }
  | .unseal =>
      let nonce := s.engine.input.take s.plat.nonceSize.val
      let sealed := s.engine.input.drop s.plat.nonceSize.val
      { s with engine := afterOpen sealed.length (port.aeadOpen s.engine.key nonce sealed) s.engine }
  | .start | .key | .input | .source | .channel | .payload | .dest | .slots | .output | .failed _ => s

/-- Perform the action of an engine step; `raced` says of a read that its byte is in a race to come. -/
def performAction (port : CryptoPort) (raced : Bool) (s : State) : Action → Outcome
  | .read addr =>
      match engineRead raced s addr with
      | .error h     => halt h s
      | .ok (b, s')  => .next { s' with engine := afterRead s'.ops b s'.engine }
  | .write addr v =>
      match engineWrite s addr v with
      | .error h => halt h s
      | .ok s'   => .next { s' with engine := afterWrite s'.ops s'.engine }
  | .transact     => .next (transact port s)
  | .complete len => .next (completeWith len s)
  | .completePlain => .next (finish .noError s)
  | .raise code   => .next (finish code s)

/-- One engine step (R96). The engine steps only while BUSY = 1; otherwise nothing changes. -/
def engineStep (port : CryptoPort) (raced : Bool) (s : State) : Outcome :=
  if s.status.busy then
    match planStep s with
    | (s', act) => performAction port raced s' act
  else .next s

/-- Engine steps until the command has ended, at most `n` of them, with no other agent's access between
(R102, R225). -/
def runEngine (port : CryptoPort) : Nat → State → Outcome
  | 0, s => .next s
  | n + 1, s =>
      if s.status.busy then
        match engineStep port false s with
        | .next s'   => runEngine port n s'
        | .fault r   => .fault r
        | .refused r => .refused r
      else .next s

/-- A bound on the engine steps of a command: its accesses, its port transactions and its completion
(R102; log 15). -/
def stepBound (op : Instr) (o : Operands) : Nat :=
  match op with
  | .nop        => 1
  | .capacity   => 1
  | .deriveKey  => o.inLen.toNat + 1 + Config.keySize + 1
  | .sealPlain  => Config.keySize + o.inLen.toNat + 2 + o.outCap.toNat + 1
  | .openSealed => Config.keySize + o.inLen.toNat + 1 + o.outCap.toNat + 1
  | .embed      => 2 * o.gridBytes + o.inLen.toNat + 1
  | .extract    => 3 * o.npix + o.outCap.toNat + 1

end Sys2Proof.Machine
end

