-- ==== Sys2Proof/Machine/Window.lean ====
section
/-! DEFINITION. Host access to the register window (R20 to R44, R58): reading and writing a register, and
one host access at a system address. -/

namespace Sys2Proof.Machine

/-- The value a read of a register returns (R20 to R35); CMD reads 0 (R22). -/
def readReg (s : State) : Reg → Word
  | .version => versionWord s.plat
  | .cmd     => 0
  | .ctrl    => s.ctrl.toWord
  | .status  => s.status.toWord
  | .errAddr => s.errAddr
  | .srcBase => s.ops.srcBase
  | .dstBase => s.ops.dstBase
  | .width   => s.ops.width
  | .height  => s.ops.height
  | .inBase  => s.ops.inBase
  | .inLen   => s.ops.inLen
  | .outBase => s.ops.outBase
  | .outCap  => s.ops.outCap
  | .keyBase => s.ops.keyBase
  | .outLen  => s.outLen
  | .capBits => s.capBits

/-- The value a read at an offset returns: a reserved offset reads 0 (R40). -/
def readOffset (s : State) (off : BitVec 8) : Word :=
  match Reg.ofOffset off with
  | some r => readReg s r
  | none   => 0

/-- A write of CMD, CTRL or an operand register: ignored while BUSY, and OVERRUN is set (R28, R217). -/
def unlessBusy (update : State → State) (s : State) : State :=
  if s.status.busy then setOverrun s else update s

/-- A command word accepted at CMD: an ILLEGAL word completes at once, a command starts (R90). -/
def acceptWord (w : Word) (s : State) : State :=
  match decode w with
  | .ok op   => accept op s
  | .error _ => acceptIllegal s

/-- A write to a register (R20 to R35, R44). -/
def writeReg (s : State) (r : Reg) (v : Word) : State :=
  match r with
  | .version => s
  | .cmd     => unlessBusy (acceptWord v) s
  | .ctrl    => unlessBusy (fun s => { s with ctrl := Ctrl.ofWord v }) s
  | .status  => { s with status := s.status.clearWritten v }
  | .errAddr => s
  | .srcBase => unlessBusy (fun s => { s with ops := { s.ops with srcBase := v } }) s
  | .dstBase => unlessBusy (fun s => { s with ops := { s.ops with dstBase := v } }) s
  | .width   => unlessBusy (fun s => { s with ops := { s.ops with width := v } }) s
  | .height  => unlessBusy (fun s => { s with ops := { s.ops with height := v } }) s
  | .inBase  => unlessBusy (fun s => { s with ops := { s.ops with inBase := v } }) s
  | .inLen   => unlessBusy (fun s => { s with ops := { s.ops with inLen := v } }) s
  | .outBase => unlessBusy (fun s => { s with ops := { s.ops with outBase := v } }) s
  | .outCap  => unlessBusy (fun s => { s with ops := { s.ops with outCap := v } }) s
  | .keyBase => unlessBusy (fun s => { s with ops := { s.ops with keyBase := v } }) s
  | .outLen  => s
  | .capBits => s

/-- A write at an offset: a reserved offset ignores it and does not set OVERRUN (R40). -/
def writeOffset (s : State) (off : BitVec 8) (v : Word) : State :=
  match Reg.ofOffset off with
  | some r => writeReg s r v
  | none   => s

/-- What a host access at a system address selects. -/
inductive Selected where
  /-- An aligned 32-bit access of the window at this offset (R58). -/
  | offset (off : BitVec 8)
  /-- An access of the window of another width or alignment: a host bus error (R58). -/
  | refused
  /-- No access of the window. -/
  | elsewhere
deriving DecidableEq, Repr

/-- The window's address decode (R13, R58, R76). DESIGN CHOICE (log 13): an access that crosses an edge of
the window is one of the window, and an access of no bytes touches nothing, wherever it is. -/
def selectAccess (codecBase addr size : Nat) : Selected :=
  match alignedOffset codecBase addr size with
  | some off => .offset off
  | none =>
      if 0 < size ∧ addr < codecBase + 256 ∧ codecBase < addr + size then .refused else .elsewhere

/-- One host write on the bus (R58, R81). -/
def hostWrite (addr size : Nat) (v : Word) (s : State) : State :=
  match selectAccess s.plat.codecBase addr size with
  | .offset off => { writeOffset s off v with response := .written }
  | .refused    => { s with response := .busError }
  | .elsewhere  => { s with response := .notSelected }

/-- One host read on the bus; it has no side effect on any register (R58, R82). -/
def hostRead (addr size : Nat) (s : State) : State :=
  match selectAccess s.plat.codecBase addr size with
  | .offset off => { s with response := .word (readOffset s off) }
  | .refused    => { s with response := .busError }
  | .elsewhere  => { s with response := .notSelected }

end Sys2Proof.Machine
end

