-- ==== Sys2Proof/Machine/Schedule.lean ====
section
/-! DEFINITION. Whose move it is and what it does: host operations (R80 to R86, R96), races on a running
command's regions (R65, R218), reset (R210), and the schedule (R96, R225; log 2). -/

namespace Sys2Proof.Machine

/-- Whether an address lies in a region the running command writes (R79, R218). -/
def inWrittenRegion (s : State) (addr : Nat) : Bool :=
  s.status.busy && (writeRegions s.engine.curOp s.ops).any (fun r => r.contains addr)

/-- Whether an address lies in any region of the running command (R79, R218). -/
def inCommandRegion (s : State) (addr : Nat) : Bool :=
  s.status.busy && (readRegions s.engine.curOp s.ops ++ writeRegions s.engine.curOp s.ops).any
    (fun r => r.contains addr)

/-- A race on a byte: memory is left with a free value, and from here on every access of the byte while
the command runs is free too (R65; log 8). -/
def raceAt (addr : Nat) (s : State) : State :=
  { s with mem := Memory.write s.mem addr (Config.freeByte s.free), free := s.free + 1,
           raced := addr :: s.raced }

/-- A store to data memory by an agent other than the engine (R65, R96). DESIGN CHOICE (log 23): at an
address that the register window covers too, it is a store to data memory like any other. -/
def agentStore (addr : Word) (v : Byte) (s : State) : State :=
  if inCommandRegion s addr.toNat then { raceAt addr.toNat s with response := .written }
  else { s with mem := Memory.write s.mem addr.toNat v, response := .written }

/-- A load that a race answers: a free byte of its own, another at each load (R65; log 8). -/
def loadFree (s : State) : State :=
  { s with response := .byte (Config.freeByte s.free), free := s.free + 1 }

/-- A load of data memory by an agent other than the engine (R96). Of a byte that the running command
writes it is a race, which leaves a free value in memory too. Of a byte that the command only reads it
gives a free value where another agent writes that byte while the command runs: one that has been there
(`State.raced`) or one still to come (`raced`; R65, R218, log 8). DESIGN CHOICE (log 23): at an address
that the register window covers too, it is a load of data memory like any other. -/
def agentLoad (raced : Bool) (addr : Word) (s : State) : State :=
  if inWrittenRegion s addr.toNat then loadFree (raceAt addr.toNat s)
  else if inCommandRegion s addr.toNat && (raced || s.raced.contains addr.toNat) then loadFree s
  else { s with response := .byte (Memory.read s.mem addr.toNat) }

/-- Put an operation back at the head of the host's program: it is not finished. -/
def keepPolling (op : HostOp) (s : State) : State := { s with program := op :: s.program }

/-- One read of a POLL, and whether its condition held (R83). -/
def pollOnce (addr : Nat) (mask value : Word) (s : State) : State × Bool :=
  let s' := hostRead addr 4 s
  match s'.response with
  | .word w => (s', w &&& mask == value)
  | .none | .written | .byte _ | .busError | .notSelected => (s', false)

/-- The POLL that RUN expands to (R84). -/
def donePoll (s : State) : HostOp :=
  .poll (Reg.address s.plat.codecBase .status) doneMask doneMask

/-- The last read of RUN's POLL, which has seen DONE = 1 (R84). -/
def answerDone (s : State) : State := { s with response := .word s.status.toWord }

/-- RUN (R84) with the engine's steps between its CMD write and its POLL: the command is accepted and
runs to its completion by its meaning. While BUSY the CMD write is ignored and the POLL for the running
command's DONE remains, through `again` (R84, R91). -/
def hostRun (again : HostOp → State → State) (w : Word) (s : State) : Outcome :=
  if s.status.busy then .next (again (donePoll s) { setOverrun s with response := .written })
  else
    match decode w with
    | .error _ => .next (answerDone (acceptIllegal s))
    | .ok i =>
        match exec i s with
        | .next s'   => .next (answerDone s')
        | .fault r   => .fault r
        | .refused r => .refused r

/-- One host operation (R80 to R86). A POLL whose condition does not hold stays with `again` to be
repeated (R83). `raced` says of a load that its byte is in a race to come (R65). The operation says which
address space it is for: `write`, `read` and `poll` reach the window only, `store` and `load` data memory
only (log 23). -/
def hostStep (raced : Bool) (again : HostOp → State → State) (op : HostOp) (s : State) : Outcome :=
  match op with
  | .write addr size v     => .next (hostWrite addr size v s)
  | .read addr size        => .next (hostRead addr size s)
  | .poll addr mask value  =>
      match pollOnce addr mask value s with
      | (s', true)  => .next s'
      | (s', false) => .next (again (.poll addr mask value) s')
  | .run w                 => hostRun again w s
  | .store addr v          => .next (agentStore addr v s)
  | .load addr             => .next (agentLoad raced addr s)

/-- The host's turn: the next operation of its program, or nothing when it has none (R103). -/
def hostTurn (raced : Bool) (s : State) : Outcome :=
  match s.program with
  | []        => .next s
  | op :: ops => hostStep raced keepPolling op { s with program := ops }

/-- One turn of the schedule; `raced` says of the byte it reads that it is in a race to come. Another
agent's POLL is one read (log 17). -/
def turnWith (raced : Bool) (t : Turn) (s : State) : Outcome :=
  match t with
  | .host     => hostTurn raced s
  | .other op => hostStep raced (fun _ s => s) op s
  | .engine   => engineStep Config.port raced s
  | .reset    => .next (resetBlock s)

/-! ## Races to come (R65; log 8)

R65 leaves a byte's value unspecified also to a read that comes before the store it races with. The turns
to come are data of the state, so that such a race is seen at the read. -/

/-- The operation that a turn performs, if it is a host's or another agent's. -/
def turnOp (t : Turn) (s : State) : Option HostOp :=
  match t with
  | .host     => s.program.head?
  | .other op => some op
  | .engine   => none
  | .reset    => none

/-- Whether an operation races with the running command: a store to one of its regions, or a load of one
that it writes (R65). -/
def clashes (s : State) (op : HostOp) : Bool :=
  match op with
  | .store addr _ => inCommandRegion s addr.toNat
  | .load addr    => inWrittenRegion s addr.toNat
  | .write _ _ _ | .read _ _ | .poll _ _ _ | .run _ => false

/-- Whether these turns, taken with no race, come to one that races with the running command before it
ends. The first race of the turns is found so; what is left after it R65 leaves unspecified. -/
def raceToCome : List Turn → State → Bool
  | [], _ => false
  | t :: ts, s =>
      s.status.busy &&
        ((turnOp t s).any (clashes s) ||
          match turnWith false t { s with turns := ts } with
          | .next s'   => raceToCome ts s'
          | .fault _   => false
          | .refused _ => false)

/-- Whether an operation stores to an address. -/
def storesTo (a : Nat) : HostOp → Bool
  | .store addr _ => addr.toNat == a
  | .load _ | .write _ _ _ | .read _ _ | .poll _ _ _ | .run _ => false

/-- Whether a store to an address is among the turns to come, or in the host's program. -/
def storeToCome (a : Nat) (s : State) : Bool :=
  s.turns.any (fun t =>
    match t with
    | .other op => storesTo a op
    | .host | .engine | .reset => false) || s.program.any (storesTo a)

/-- The byte of data memory that a turn reads: the engine's next read, or an agent's load. -/
def byteRead (t : Turn) (s : State) : Option Nat :=
  match t with
  | .engine =>
      match (planStep s).2 with
      | .read a => some a
      | .write _ _ | .transact | .complete _ | .completePlain | .raise _ => none
  | .host | .other _ | .reset =>
      match turnOp t s with
      | some (.load addr) => some addr.toNat
      | some (.store _ _) | some (.write _ _ _) | some (.read _ _) | some (.poll _ _ _)
      | some (.run _) | none => none

/-- Whether the byte that a turn reads is in a race to come: the turns come to a race before the running
command ends, and a store to that byte is among them. -/
def racedAhead (t : Turn) (s : State) : Bool :=
  match byteRead t s with
  | some a => storeToCome a s && raceToCome (t :: s.turns) s
  | none   => false

/-- One turn of the schedule, at the state that holds the turns after it. -/
def takeTurn (t : Turn) (s : State) : Outcome := turnWith (racedAhead t s) t s

/-- One step of the machine. The schedule says who moves; where it says nothing, the engine moves while
it runs a command and the host moves otherwise (log 2). DESIGN CHOICE (log 25): the schedule is a finite
list, so an engine whose step stays enabled gets it in the end, and every access and port request is
answered: the fairness premise of R226 is built in, and the hang that R102 also allows is not in the model. -/
def scheduledStep (s : State) : Outcome :=
  match s.turns with
  | t :: ts => takeTurn t { s with turns := ts }
  | []      => if s.status.busy then engineStep Config.port false s else hostTurn false s

end Sys2Proof.Machine
end

