-- ==== Sys2Proof/Machine/Step.lean ====
section
/-! DEFINITION. The step of the machine, and where a command word is placed for it. -/

namespace Sys2Proof.Machine

/-- One step (R96). -/
def step (s : State) : Host.Outcome State Fault Refusal := scheduledStep s

/-- The state with a command word placed where the next step takes it: the host's next operation is
`RUN word` (R84) and the next turn is the host's (log 3). The block has no program counter and no
instruction memory (R36, R64): a command word reaches it by a host write to CMD only (R22). -/
def State.withFetchWord (s : State) (nbits w : Nat) : State :=
  { s with program := .run (BitVec.ofNat 32 (w % 2 ^ nbits)) :: s.program,
           turns := .host :: s.turns }

end Sys2Proof.Machine
end

