-- ==== Sys2Proof/Safety.lean ====
section
/-! DEFINITION. The terms that claims use: operands whose accesses complete, what a command keeps, and
the invariant of every step. -/

namespace Sys2Proof.Machine

/-- Every byte of a region can be accessed in this direction: no bus error (R53), no device memory (R59),
inside data memory (R50). -/
def Region.accessible (p : Platform) (r : Region) (dir : Dir) : Prop :=
  ∀ a, r.contains a = true → accessHalt p a dir = none

/-- The regions a command accesses in a direction (R79). -/
def regionsAccessed (op : Instr) (o : Operands) : Dir → List Region
  | .read  => readRegions op o
  | .write => writeRegions op o

/-- No byte of a command's regions is memory with read side effects: the configuration that the spec
defines (R59). -/
def noDeviceOperand (op : Instr) (s : State) : Prop :=
  ∀ r ∈ readRegions op s.ops ++ writeRegions op s.ops, ∀ a, r.contains a = true →
    isDevice s.plat a = false

/-- A command takes and leaves these as they are: CTRL, the operand registers (R34), the platform's
parameters (R42), and what belongs to the host. -/
def sameConfiguration (s t : State) : Prop :=
  t.ctrl = s.ctrl ∧ t.ops = s.ops ∧ t.plat = s.plat ∧ t.program = s.program ∧ t.turns = s.turns ∧
  t.response = s.response

/-- Every byte of memory outside a region reads as before. -/
def memoryKeptOutside (r : Region) (s t : State) : Prop :=
  ∀ a, r.contains a = false → Memory.read t.mem a = Memory.read s.mem a

/-- Every byte of memory reads as before. -/
def memoryKept (s t : State) : Prop := ∀ a, Memory.read t.mem a = Memory.read s.mem a

/-- The parameter checks of a command, without its register updates (R184). -/
def parameterCheck (op : Instr) (s : State) : Option ErrCode :=
  match op with
  | .nop        => none
  | .deriveKey  => checkDeriveKey s.ops
  | .sealPlain  => checkSeal s.plat s.ops
  | .openSealed => checkOpen s.plat s.ops
  | .capacity   => none
  | .embed      => checkEmbed s.ctrl s.ops
  | .extract    => checkExtract s.ops

/-- The meanings over a crypto port given as an argument; `exec` is this at the machine's own port. -/
def execWith (port : CryptoPort) (i : Instr) (s : State) : Outcome :=
  match i with
  | .nop        => issue .nop nopBody s
  | .deriveKey  => issue .deriveKey (deriveKeyBody port) s
  | .sealPlain  => issue .sealPlain (sealBody port) s
  | .openSealed => issue .openSealed (openBody port) s
  | .capacity   => issue .capacity capacityBody s
  | .embed      => issue .embed embedBody s
  | .extract    => issue .extract extractBody s

/-- STATUS after a command that ends with this code (R97), with these TRUNC and FITS. -/
def statusAfter (s : State) (code : ErrCode) (trunc fits : Bool) : Status :=
  { busy := false, done := true, err := decide (code ≠ .noError), overrun := s.status.overrun,
    trunc := trunc, fits := fits, errcode := code }

/-- What a command leaves in the registers when it ends: STATUS with its code, TRUNC and FITS, ERR_ADDR 0,
CAP_BITS, OUT_LEN, and the configuration as it was. -/
def endsWith (s t : State) (code : ErrCode) (trunc fits : Bool) (cap len : Word) : Prop :=
  t.status = statusAfter s code trunc fits ∧ t.errAddr = 0 ∧ t.capBits = cap ∧ t.outLen = len ∧
    sameConfiguration s t

/-- A command ends with an error before its first access (R187): no memory is written, no draw made. -/
def failsUntouched (i : Instr) (s : State) (code : ErrCode) (cap : Word) (fits : Bool) : Prop :=
  ∃ t, exec i s = .next t ∧ endsWith s t code false fits cap 0 ∧ t.mem = s.mem ∧ t.draws = s.draws

/-- Steps of the machine, stopping at the first fault or refusal. -/
def runSteps : Nat → State → Outcome
  | 0, s => .next s
  | n + 1, s =>
      match step s with
      | .next t    => runSteps n t
      | .fault r   => .fault r
      | .refused r => .refused r

/-- The LSBs of the grid's slots, in slot order (R146, R153). -/
def slotBits (s : State) : Bits :=
  (List.range s.ops.capacity).map
    (fun j => lsbGet (Memory.read s.mem (s.ops.srcBase.toNat + slotOffset j)))

/-- The bytes that a command writes at OUT_BASE when every access of it completes; none for a command or
a port answer that has none (R118, R120, R122, R153). -/
def outputOf (i : Instr) (s : State) : Option Bytes :=
  let input := Memory.readAll s.mem s.ops.inBase.toNat s.ops.inLen.toNat
  let key := Memory.readAll s.mem s.ops.keyBase.toNat Config.keySize
  match i with
  | .deriveKey => some (Config.hash input).toList
  | .sealPlain =>
      match Config.port.draw s.draws s.plat.nonceSize.val with
      | .failure => none
      | .bytes nonce =>
          match Config.aeadSeal key nonce input with
          | .cipherFailure => none
          | .sealedBytes sealed => some (nonce ++ sealed)
  | .openSealed =>
      let n := s.plat.nonceSize.val
      match Config.aeadOpen key (input.take n) (input.drop n) with
      | .authFailure => none
      | .plain p     => some p
  | .extract => slicePayload (reassemble (slotBits s))
  | .nop | .capacity | .embed => none

/-- `n` steps lead from a state to another, the block BUSY in every state before the last. -/
def runsBusy : Nat → State → State → Prop
  | 0, s, t => s = t
  | n + 1, s, t => s.status.busy = true ∧ ∃ u, step s = .next u ∧ runsBusy n u t

/-- The host operation that the next step performs, if it performs one (log 2). -/
def nextHostOp (s : State) : Option HostOp :=
  match s.turns with
  | .host :: _     => s.program.head?
  | .other op :: _ => some op
  | .engine :: _   => none
  | .reset :: _    => none
  | []             => if s.status.busy then none else s.program.head?

/-- The registers a host may write and read back: CTRL and the nine operands (R76). -/
def isReadWrite : Reg → Bool
  | .ctrl | .srcBase | .dstBase | .width | .height | .inBase | .inLen | .outBase | .outCap | .keyBase => true
  | .version | .cmd | .status | .errAddr | .outLen | .capBits => false

/-- The STATUS register and the registers of results agree with each other (R26, R27, R29, R32, R33,
R35): while BUSY nothing of a result is shown; ERR is set with a nonzero code only; ERR_ADDR holds an
address after BUS_ERROR only; OUT_LEN holds a length after success only; TRUNC is set only where the
frame does not fit. -/
def registersAgree (s : State) : Prop :=
  (s.status.busy = true → s.status.done = false ∧ s.status.err = false ∧
    s.status.errcode = .noError ∧ s.errAddr = 0 ∧ s.outLen = 0) ∧
  (s.status.err = true → s.status.errcode ≠ .noError) ∧
  (s.status.errcode ≠ .busError → s.errAddr = 0) ∧
  (s.status.errcode ≠ .noError → s.outLen = 0) ∧
  (s.status.trunc = true → s.status.fits = false)

/-- What holds of the engine at each phase of a running command (R36): the command is one that has the
phase, and its cursors are inside their stated ends. -/
def phaseAgrees (s : State) : Prop :=
  match s.engine.phase with
  | .start   => s.engine = Engine.atStart s.engine.curOp ∧ s.status.trunc = false
  | .key     =>
      (s.engine.curOp = .sealPlain ∨ s.engine.curOp = .openSealed) ∧ s.engine.i ≤ Config.keySize ∧
      s.engine.input = []
  | .input   =>
      (s.engine.curOp = .deriveKey ∨ s.engine.curOp = .sealPlain ∨ s.engine.curOp = .openSealed) ∧
      s.engine.i ≤ s.ops.inLen.toNat ∧ s.engine.input.length = s.engine.i
  | .hash    => s.engine.curOp = .deriveKey ∧ s.engine.input.length = s.ops.inLen.toNat
  | .rng     => s.engine.curOp = .sealPlain ∧ s.engine.input.length = s.ops.inLen.toNat
  | .sealing =>
      s.engine.curOp = .sealPlain ∧ s.engine.input.length = s.ops.inLen.toNat ∧
      s.engine.nonce.length = s.plat.nonceSize.val
  | .unseal  => s.engine.curOp = .openSealed ∧ s.engine.input.length = s.ops.inLen.toNat
  | .source  => s.engine.curOp = .embed ∧ s.engine.i < 4 ∧ s.engine.y.toNat ≤ s.ops.height.toNat
  | .channel => s.engine.curOp = .embed ∧ cursorInGrid s = true
  | .payload =>
      s.engine.curOp = .embed ∧ cursorInGrid s = true ∧
      s.engine.k < frameBitCount s.ops.inLen.toNat ∧ 4 ≤ s.engine.k / 8
  | .dest    => s.engine.curOp = .embed ∧ cursorInGrid s = true ∧ s.engine.i < 4
  | .slots   => s.engine.curOp = .extract ∧ s.engine.y.toNat ≤ s.ops.height.toNat
  | .output  =>
      (s.engine.curOp = .deriveKey ∨ s.engine.curOp = .sealPlain ∨ s.engine.curOp = .openSealed ∨
        s.engine.curOp = .extract) ∧
      s.engine.i ≤ s.engine.output.length ∧ s.engine.output.length ≤ s.ops.outCap.toNat ∧
      (s.engine.curOp = .deriveKey → s.engine.output.length = Config.keySize)
  | .failed code => code ≠ .noError

/-- A running command that is past its first step has passed its parameter checks, and its cursors are
where its pseudocode puts them (R36, R98). -/
def engineAgrees (s : State) : Prop :=
  s.status.busy = true →
    phaseAgrees s ∧ (s.engine.phase ≠ .start → parameterCheck s.engine.curOp s = none)

/-- The invariant that every step keeps: memory in canonical form (R50), registers that agree, and an
engine inside its command. -/
def State.Inv (s : State) : Prop :=
  Memory.wf s.mem = true ∧ registersAgree s ∧ engineAgrees s

end Sys2Proof.Machine
end

