-- ==== Sys2Proof/Certificates/Slice0/Obligations.lean ====
section
/-! DEFINITION. The statements for the provers. Every statement about a command holds of every state in
which its hypotheses hold, whatever the platform (`State.plat`) and the free values. -/

open Sys2Proof Sys2Proof.Machine

/-! ## Encoding and the register window -/

/-- The seven words of the opcode map (R72), and words that are illegal (R73, R74), bit by bit. -/
def Obligations.CommandWordsDecode : Prop :=
  decode 0b00000000000000000000000000000000#32 = .ok .nop ∧
  decode 0b00000000000000000000000000000001#32 = .ok .deriveKey ∧
  decode 0b00000000000000000000000000000010#32 = .ok .sealPlain ∧
  decode 0b00000000000000000000000000000011#32 = .ok .openSealed ∧
  decode 0b00000000000000000000000000000100#32 = .ok .capacity ∧
  decode 0b00000000000000000000000000000101#32 = .ok .embed ∧
  decode 0b00000000000000000000000000000110#32 = .ok .extract ∧
  decode 0b00000000000000000000000000000111#32 = .error .reservedOpcode ∧
  decode 0b00000000000000000000000000001111#32 = .error .reservedOpcode ∧
  decode 0b00000000000000000000000000010101#32 = .error .reservedBits ∧
  decode 0b10000000000000000000000000000101#32 = .error .reservedBits

/-- R71: decoding is total; a word with a reserved bit or an opcode of 7 to 15 is ILLEGAL and completes
at once, and each command has exactly one word. -/
def Obligations.DecodeIsTotalAndExact : Prop :=
  ∀ w : Word,
    (w.toNat / 16 ≠ 0 → decode w = .error .reservedBits) ∧
    (w.toNat / 16 = 0 → 7 ≤ w.toNat % 16 → decode w = .error .reservedOpcode) ∧
    (w.toNat = 0 → decode w = .ok .nop) ∧ (w.toNat = 1 → decode w = .ok .deriveKey) ∧
    (w.toNat = 2 → decode w = .ok .sealPlain) ∧ (w.toNat = 3 → decode w = .ok .openSealed) ∧
    (w.toNat = 4 → decode w = .ok .capacity) ∧ (w.toNat = 5 → decode w = .ok .embed) ∧
    (w.toNat = 6 → decode w = .ok .extract) ∧
    (∀ i, decode w = .ok i ↔ w = encode i) ∧
    (∀ e s, decode w = .error e →
      (acceptWord w s).status = statusAfter s .illegalOp false s.status.fits ∧
      (acceptWord w s).status.errcode.code.toNat = 1 ∧
      (acceptWord w s).mem = s.mem)

/-- R80: a mnemonic assembles to its command word; any other line is refused. -/
def Obligations.AssemblerTakesMnemonicsOnly : Prop :=
  (∀ i : Instr, assemble i.mnemonic = some (encode i)) ∧
  (∀ line : String, (∀ i : Instr, line ≠ i.mnemonic) → assemble line = none)

/-- R40: an aligned 32-bit read of a reserved offset returns 0 and a write there is ignored, with no
OVERRUN. -/
def Obligations.ReservedOffsetsReadZeroIgnoreWrites : Prop :=
  ∀ (s : State) (off : Nat) (v : Word), 0x40 ≤ off → off ≤ 0xFC → off % 4 = 0 →
    hostRead (s.plat.codecBase + off) 4 s = { s with response := .word 0 } ∧
    hostWrite (s.plat.codecBase + off) 4 v s = { s with response := .written }

/-- R58: an access of the window of another width or alignment gets a bus error and changes nothing; a
read of a register has no side effect. The first clause is of an access that lies in the window from its
first byte; the second, of one that touches the window at all, and the third, of one that does not, are
the model's reading (log 13). -/
def Obligations.OnlyAlignedWordAccessesAct : Prop :=
  ∀ (s : State) (addr size : Nat) (v : Word),
    let base := s.plat.codecBase
    (0 < size → base ≤ addr → addr < base + 256 → (size ≠ 4 ∨ (addr - base) % 4 ≠ 0) →
      hostRead addr size s = { s with response := .busError } ∧
      hostWrite addr size v s = { s with response := .busError }) ∧
    (0 < size → addr < base + 256 → base < addr + size →
      (size ≠ 4 ∨ addr < base ∨ (addr - base) % 4 ≠ 0) →
      hostRead addr size s = { s with response := .busError } ∧
      hostWrite addr size v s = { s with response := .busError }) ∧
    (size = 0 ∨ base + 256 ≤ addr ∨ addr + size ≤ base →
      hostRead addr size s = { s with response := .notSelected } ∧
      hostWrite addr size v s = { s with response := .notSelected }) ∧
    (∀ r : Reg, hostRead (r.address base) 4 s = { s with response := .word (readReg s r) })

/-- R76, with R20, R22, R23, R33, R34 and R35: the register map by number. What a read at each offset
answers, in every state and after reset; which offsets ignore a write, in every state; and what a write at
each of the others does while BUSY = 0. -/
def Obligations.RegisterMapByOffset : Prop :=
  ∀ (s : State) (v : Word),
    let at_ := fun off => s.plat.codecBase + off
    (∀ p ∈ [(0x00, versionWord s.plat), (0x04, 0), (0x08, s.ctrl.toWord), (0x0C, s.status.toWord),
        (0x10, s.errAddr), (0x14, s.ops.srcBase), (0x18, s.ops.dstBase), (0x1C, s.ops.width),
        (0x20, s.ops.height), (0x24, s.ops.inBase), (0x28, s.ops.inLen), (0x2C, s.ops.outBase),
        (0x30, s.ops.outCap), (0x34, s.ops.keyBase), (0x38, s.outLen), (0x3C, s.capBits)],
      hostRead (at_ p.1) 4 s = { s with response := .word p.2 }) ∧
    (∀ off ∈ [0x00, 0x10, 0x38, 0x3C],
      hostWrite (at_ off) 4 v s = { s with response := .written }) ∧
    hostWrite (at_ 0x0C) 4 v s =
      { s with status := s.status.clearWritten v, response := .written } ∧
    (s.status.busy = false →
      hostWrite (at_ 0x04) 4 v s = { acceptWord v s with response := .written } ∧
      hostWrite (at_ 0x08) 4 v s =
        { s with ctrl := { truncPolicy := v.getLsbD 0, irqEn := v.getLsbD 1 },
                 response := .written } ∧
      ∀ p ∈ [(0x14, { s.ops with srcBase := v }), (0x18, { s.ops with dstBase := v }),
          (0x1C, { s.ops with width := v }), (0x20, { s.ops with height := v }),
          (0x24, { s.ops with inBase := v }), (0x28, { s.ops with inLen := v }),
          (0x2C, { s.ops with outBase := v }), (0x30, { s.ops with outCap := v }),
          (0x34, { s.ops with keyBase := v })],
        hostWrite (at_ p.1) 4 v s = { s with ops := p.2, response := .written }) ∧
    (∀ off, 0x40 ≤ off → off ≤ 0xFC → off % 4 = 0 →
      hostRead (at_ off) 4 s = { s with response := .word 0 } ∧
      hostWrite (at_ off) 4 v s = { s with response := .written }) ∧
    (∀ off, 0x04 ≤ off → off ≤ 0x3C → off % 4 = 0 →
      (hostRead (at_ off) 4 (resetBlock s)).response = .word 0) ∧
    (s.plat.nonceSize.val = 12 →
      (hostRead (at_ 0x00) 4 (resetBlock s)).response = .word 0x20100C01)

/-- R21: the fields of VERSION at offset 0x00, read-only, the same before and after reset. -/
def Obligations.VersionWordFields : Prop :=
  ∀ s : State,
    (readReg s .version).toNat =
      0x01 + 256 * s.plat.nonceSize.val + 65536 * 0x10 + 16777216 * 0x20 ∧
    readReg (resetBlock s) .version = readReg s .version ∧
    (s.plat.nonceSize.val = 12 → readReg s .version = 0x20100C01) ∧
    hostRead s.plat.codecBase 4 s = { s with response := .word (readReg s .version) } ∧
    (∀ v, hostWrite s.plat.codecBase 4 v s = { s with response := .written })

/-- R24, R31, R77: the STATUS word packs its fields, ERRCODE by the numbers of R182, its other bits read 0,
and a write clears DONE, ERR and OVERRUN where it has a 1 and does nothing else. -/
def Obligations.StatusPacksAndClearsByOnes : Prop :=
  ∀ (s : State) (v : Word),
    (readReg s .status).toNat =
      s.status.busy.toNat + 2 * s.status.done.toNat + 4 * s.status.err.toNat
        + 8 * s.status.overrun.toNat + 16 * s.status.trunc.toNat + 32 * s.status.fits.toNat
        + 256 * s.status.errcode.code.toNat ∧
    (∀ p ∈ [(ErrCode.noError, 0), (.illegalOp, 1), (.range, 2), (.overlap, 3), (.capacity, 4),
        (.framing, 5), (.outOverflow, 6), (.malformed, 7), (.authFail, 8), (.rngFail, 9),
        (.cipherFail, 10), (.busError, 11)], p.1.code.toNat = p.2) ∧
    readReg State.reset .status = 0 ∧
    readReg (hostWrite (Reg.address s.plat.codecBase .status) 4 v s) .status =
      readReg s .status &&& ~~~(v &&& 0xE) ∧
    hostWrite (Reg.address s.plat.codecBase .status) 4 v s =
      { s with
        status := (hostWrite (Reg.address s.plat.codecBase .status) 4 v s).status,
        response := .written }

/-- R44: a write of a read-write register while idle is stored, all 32 bits or CTRL's two, and reads
back, and no other register changes; while BUSY it sets OVERRUN only. -/
def Obligations.WriteThenReadBack : Prop :=
  ∀ (s : State) (r : Reg) (v : Word), isReadWrite r = true →
    (s.status.busy = false →
      readReg (hostWrite (r.address s.plat.codecBase) 4 v s) r =
        (if r = .ctrl then v &&& 3 else v) ∧
      (∀ r', r' ≠ r →
        readReg (hostWrite (r.address s.plat.codecBase) 4 v s) r' = readReg s r') ∧
      (hostWrite (r.address s.plat.codecBase) 4 v s).mem = s.mem ∧
      (hostWrite (r.address s.plat.codecBase) 4 v s).engine = s.engine) ∧
    (s.status.busy = true →
      hostWrite (r.address s.plat.codecBase) 4 v s =
        { s with status := { s.status with overrun := true }, response := .written })

/-- R91, R217: while BUSY a write of CMD, CTRL or an operand register changes nothing but OVERRUN, and a
write of STATUS still clears by ones. -/
def Obligations.WritesWhileBusyAreIgnored : Prop :=
  ∀ (s : State) (v : Word), s.status.busy = true →
    (∀ r : Reg, r = .cmd ∨ isReadWrite r = true →
      hostWrite (r.address s.plat.codecBase) 4 v s = { s with status := { s.status with overrun := true }, response := .written }) ∧
    hostWrite (Reg.address s.plat.codecBase .status) 4 v s =
      { s with status := s.status.clearWritten v, response := .written } ∧
    (∀ i : Instr, exec i s = .next { s with status := { s.status with overrun := true } })

/-- R28: OVERRUN is set by a write of CMD, CTRL or an operand register while BUSY; only a host write of 1
to bit 3 of STATUS, or reset, clears it, whatever step the machine takes. -/
def Obligations.OverrunClearedOnlyByHostOrReset : Prop :=
  (∀ (s : State) (r : Reg) (v : Word), s.status.busy = true → r = .cmd ∨ isReadWrite r = true →
    hostWrite (r.address s.plat.codecBase) 4 v s = { s with status := { s.status with overrun := true }, response := .written }) ∧
  (∀ (s : State) (v : Word), v.getLsbD 3 = true →
    (hostWrite (Reg.address s.plat.codecBase .status) 4 v s).status.overrun = false) ∧
  (∀ s : State, (resetBlock s).status.overrun = false) ∧
  (∀ s t : State, step s = .next t → s.status.overrun = true → t.status.overrun = false →
    s.turns.head? = some .reset ∨
    ∃ v, nextHostOp s = some (.write (Reg.address s.plat.codecBase .status) 4 v) ∧
      v.getLsbD 3 = true)

/-! ## Acceptance, completion, interrupt and reset -/

/-- R90, R92, R100: a CMD write while idle clears DONE, ERR, ERRCODE, TRUNC, ERR_ADDR and OUT_LEN; a
command sets BUSY and is at its first step; an illegal word completes at once with ILLEGAL_OP. -/
def Obligations.AcceptanceClearsAndStarts : Prop :=
  ∀ (s : State) (w : Word), s.status.busy = false →
    let t := hostWrite (Reg.address s.plat.codecBase .cmd) 4 w s
    t.errAddr = 0 ∧ t.outLen = 0 ∧ t.capBits = s.capBits ∧ t.ctrl = s.ctrl ∧ t.ops = s.ops ∧
    t.mem = s.mem ∧ t.draws = s.draws ∧
    (∀ i, decode w = .ok i →
      t.status = { busy := true, done := false, err := false, overrun := s.status.overrun,
                   trunc := false, fits := s.status.fits, errcode := .noError } ∧
      t.engine = Engine.atStart i) ∧
    (∀ e, decode w = .error e → t.status = statusAfter s .illegalOp false s.status.fits)

/-- R97, R181: an engine step that ends a command is its completion: DONE = 1, ERR as the code says, IRQ
as IRQ_EN says, ERR_ADDR for BUS_ERROR only, and no memory byte changes in it. -/
def Obligations.EngineEndsOnlyByCompletion : Prop :=
  ∀ (port : CryptoPort) (raced : Bool) (s t : State), s.status.busy = true →
    engineStep port raced s = .next t → t.status.busy = false →
      t.status.done = true ∧ t.status.err = decide (t.status.errcode ≠ .noError) ∧
      t.irq = s.ctrl.irqEn ∧ (t.status.errcode ≠ .busError → t.errAddr = s.errAddr) ∧
      (t.status.errcode ≠ .noError → t.outLen = s.outLen) ∧ t.mem = s.mem ∧
      t.status.overrun = s.status.overrun ∧ sameConfiguration s t

/-- R191: IRQ is IRQ_EN AND DONE: every completed command asserts it when enabled; acceptance or a write
of 1 to STATUS bit 1 deasserts it; CTRL masks and unmasks it without touching DONE. -/
def Obligations.IrqFollowsDoneAndEnable : Prop :=
  (∀ s : State, s.irq = (s.ctrl.irqEn && s.status.done)) ∧
  State.reset.ctrl.irqEn = false ∧ State.reset.irq = false ∧
  (∀ (i : Instr) (s t : State), s.status.busy = false → exec i s = .next t →
    t.irq = s.ctrl.irqEn) ∧
  (∀ (s : State) (v : Word), v.getLsbD 1 = true →
    (hostWrite (Reg.address s.plat.codecBase .status) 4 v s).irq = false) ∧
  (∀ (s : State) (w : Word) (i : Instr), s.status.busy = false → decode w = .ok i →
    (hostWrite (Reg.address s.plat.codecBase .cmd) 4 w s).irq = false) ∧
  (∀ (s : State) (w : Word) (e : DecodeError), s.status.busy = false → decode w = .error e →
    (hostWrite (Reg.address s.plat.codecBase .cmd) 4 w s).irq = s.ctrl.irqEn) ∧
  (∀ (s : State) (v : Word), s.status.busy = false →
    (hostWrite (Reg.address s.plat.codecBase .ctrl) 4 v s).irq =
      (v.getLsbD 1 && s.status.done) ∧
    (hostWrite (Reg.address s.plat.codecBase .ctrl) 4 v s).status = s.status)

/-- R211, R212, R213: reset, also of a running command, leaves every register at its reset value and the
engine idle, and changes neither memory nor the platform; the next command word is accepted. -/
def Obligations.ResetKeepsMemoryAndIdles : Prop :=
  ∀ (s : State) (ts : List Turn), s.turns = .reset :: ts →
    ∃ t, step s = .next t ∧ t.mem = s.mem ∧ t.plat = s.plat ∧ t.status = Status.reset ∧
      t.irq = false ∧ t.ctrl.truncPolicy = false ∧
      (∀ r : Reg, r ≠ .version → readReg t r = 0) ∧ readReg t .version = readReg s .version ∧
      (∀ port raced, engineStep port raced t = .next t) ∧
      (∀ w i, decode w = .ok i →
        (hostWrite (Reg.address t.plat.codecBase .cmd) 4 w t).status.busy = true)

/-- R188: an error leaves the block idle and the next CMD write is accepted, which clears DONE, ERR,
ERRCODE, ERR_ADDR, TRUNC and OUT_LEN; a write of 6 to STATUS clears DONE and ERR first, deasserts IRQ and
keeps ERRCODE. -/
def Obligations.ReturnFromError : Prop :=
  (∀ (i : Instr) (s t : State), s.status.busy = false → exec i s = .next t →
    t.status.errcode ≠ .noError →
      t.status.busy = false ∧
      ∀ w j, decode w = .ok j →
        let u := hostWrite (Reg.address t.plat.codecBase .cmd) 4 w t
        u.status.busy = true ∧ u.status.done = false ∧ u.status.err = false ∧
        u.status.errcode = .noError ∧ u.errAddr = 0 ∧ u.status.trunc = false ∧ u.outLen = 0) ∧
  (∀ s : State,
    let t := hostWrite (Reg.address s.plat.codecBase .status) 4 6 s
    t = { acknowledge s with response := .written } ∧ t.status.done = false ∧
    t.status.err = false ∧ t.irq = false ∧ t.status.errcode = s.status.errcode ∧
    t.status.overrun = s.status.overrun)

/-! ## The bit primitives -/

/-- R154: reassembly inverts bit expansion. -/
def Obligations.ReassembleInvertsExpand : Prop :=
  ∀ bs : Bytes, reassemble (expandBytes bs) = bs

/-- R143, R144: the frame of a ciphertext has 32 + 8L bits: the length, little-endian and MSB-first within
each byte, then the ciphertext bytes, MSB-first. -/
def Obligations.FrameBitLayout : Prop :=
  ∀ c : Bytes, c.length < 2 ^ 32 →
    (frame c).length = 32 + 8 * c.length ∧
    (∀ t, t < 32 → (frame c)[t]? = some (c.length.testBit (8 * (t / 8) + 7 - t % 8))) ∧
    (∀ t, t < 8 * c.length →
      (frame c)[32 + t]? = some ((c.getD (t / 8) 0).getLsbD (7 - t % 8)))

/-- R145: only bit 0 of a channel byte changes, and it becomes the frame bit; `lsbGet` is bit 0. -/
def Obligations.LsbPutChangesBitZeroOnly : Prop :=
  ∀ (v : Byte) (f : Bool),
    (lsbPut v f).toNat = 2 * (v.toNat / 2) + f.toNat ∧ lsbPut v f &&& 0xFE = v &&& 0xFE ∧
    lsbGet (lsbPut v f) = f ∧ (lsbGet v).toNat = v.toNat % 2

/-! ## The commands -/

/-- R99: NOP completes with no error and no access, and is ignored while BUSY. -/
def Obligations.NopCompletes : Prop :=
  encode .nop = 0x00000000 ∧
  (∀ s : State, s.status.busy = false →
    (accept .nop s).status.busy = true ∧ engineStep Config.port false (accept .nop s) = exec .nop s ∧
    ∃ t, exec .nop s = .next t ∧ endsWith s t .noError false s.status.fits s.capBits 0 ∧
      t.mem = s.mem ∧ t.draws = s.draws) ∧
  (∀ s : State, s.status.busy = true → exec .nop s = .next { s with status := { s.status with overrun := true } })

/-- R151: CAPACITY writes CAP_BITS, saturated, and FITS, on exact integers; it never fails. -/
def Obligations.CapacityReportsCapBitsAndFits : Prop :=
  encode .capacity = 0x00000004 ∧
  ∀ s : State, s.status.busy = false →
    ∃ t, exec .capacity s = .next t ∧
      endsWith s t .noError false
        (decide (32 + 8 * s.ops.inLen.toNat ≤ 3 * (s.ops.width.toNat * s.ops.height.toNat)))
        t.capBits 0 ∧
      t.capBits.toNat = min (3 * (s.ops.width.toNat * s.ops.height.toNat)) 0xFFFFFFFF ∧
      t.mem = s.mem ∧ t.draws = s.draws

/-- R118: DERIVE_KEY writes the 32-byte hash of the passphrase at OUT_BASE and sets OUT_LEN = 32. -/
def Obligations.DeriveKeyWritesTheHash : Prop :=
  ∀ s : State, s.status.busy = false →
    rangeOk s.ops.inBase.toNat s.ops.inLen.toNat = true →
    rangeOk s.ops.outBase.toNat s.ops.outCap.toNat = true →
    overlaps s.ops.inBase.toNat s.ops.inLen.toNat s.ops.outBase.toNat s.ops.outCap.toNat = false →
    32 ≤ s.ops.outCap.toNat →
    s.ops.inBuffer.accessible s.plat .read →
    Region.accessible s.plat ⟨s.ops.outBase.toNat, 32⟩ .write →
    ∃ t, exec .deriveKey s = .next t ∧
      endsWith s t .noError false s.status.fits s.capBits 32 ∧
      Memory.readAll t.mem s.ops.outBase.toNat 32 =
        (Config.hash (Memory.readAll s.mem s.ops.inBase.toNat s.ops.inLen.toNat)).toList ∧
      memoryKeptOutside ⟨s.ops.outBase.toNat, 32⟩ s t ∧ t.draws = s.draws

/-- R118, R184: the parameter errors of DERIVE_KEY in their order, with no access made. -/
def Obligations.DeriveKeyParameterErrors : Prop :=
  ∀ s : State, s.status.busy = false →
    let inOk := rangeOk s.ops.inBase.toNat s.ops.inLen.toNat
    let outOk := rangeOk s.ops.outBase.toNat s.ops.outCap.toNat
    let crosses :=
      overlaps s.ops.inBase.toNat s.ops.inLen.toNat s.ops.outBase.toNat s.ops.outCap.toNat
    (inOk = false ∨ outOk = false →
      failsUntouched .deriveKey s .range s.capBits s.status.fits) ∧
    (inOk = true → outOk = true → crosses = true →
      failsUntouched .deriveKey s .overlap s.capBits s.status.fits) ∧
    (inOk = true → outOk = true → crosses = false → s.ops.outCap.toNat < 32 →
      failsUntouched .deriveKey s .outOverflow s.capBits s.status.fits)

/-- R187: what a bus error of DERIVE_KEY leaves: nothing written for a read, the prefix of the key before
the failing byte for a write. -/
def Obligations.DeriveKeyBusErrors : Prop :=
  ∀ s : State, s.status.busy = false →
    rangeOk s.ops.inBase.toNat s.ops.inLen.toNat = true →
    rangeOk s.ops.outBase.toNat s.ops.outCap.toNat = true →
    overlaps s.ops.inBase.toNat s.ops.inLen.toNat s.ops.outBase.toNat s.ops.outCap.toNat = false →
    32 ≤ s.ops.outCap.toNat →
    (∀ j, j < s.ops.inLen.toNat → busOk s.plat (s.ops.inBase.toNat + j) .read = false →
      (∀ k, k < j → accessHalt s.plat (s.ops.inBase.toNat + k) .read = none) →
      ∃ t, exec .deriveKey s = .next t ∧
        t.status = statusAfter s .busError false s.status.fits ∧
        t.errAddr.toNat = s.ops.inBase.toNat + j ∧ t.outLen = 0 ∧ t.capBits = s.capBits ∧
        t.mem = s.mem ∧ sameConfiguration s t) ∧
    (∀ j, j < 32 → s.ops.inBuffer.accessible s.plat .read →
      busOk s.plat (s.ops.outBase.toNat + j) .write = false →
      (∀ k, k < j → accessHalt s.plat (s.ops.outBase.toNat + k) .write = none) →
      ∃ t, exec .deriveKey s = .next t ∧
        t.status = statusAfter s .busError false s.status.fits ∧
        t.errAddr.toNat = s.ops.outBase.toNat + j ∧ t.outLen = 0 ∧ t.capBits = s.capBits ∧
        Memory.readAll t.mem s.ops.outBase.toNat j =
          ((Config.hash
            (Memory.readAll s.mem s.ops.inBase.toNat s.ops.inLen.toNat)).toList).take j ∧
        memoryKeptOutside ⟨s.ops.outBase.toNat, j⟩ s t ∧ sameConfiguration s t)

/-- R120: SEAL draws a nonce, seals, and writes nonce then sealed bytes; a failed draw, a failed cipher or
an answer of the wrong length ends it with no byte written. Whatever the port answers, it completes. -/
def Obligations.SealFollowsThePort : Prop :=
  ∀ s : State, s.status.busy = false →
    rangeOk s.ops.inBase.toNat s.ops.inLen.toNat = true →
    rangeOk s.ops.outBase.toNat s.ops.outCap.toNat = true →
    rangeOk s.ops.keyBase.toNat 32 = true →
    overlaps s.ops.outBase.toNat s.ops.outCap.toNat s.ops.inBase.toNat s.ops.inLen.toNat = false →
    overlaps s.ops.outBase.toNat s.ops.outCap.toNat s.ops.keyBase.toNat 32 = false →
    let need := s.plat.nonceSize.val + s.ops.inLen.toNat + 16
    need ≤ s.ops.outCap.toNat →
    s.ops.keyBuffer.accessible s.plat .read →
    s.ops.inBuffer.accessible s.plat .read →
    Region.accessible s.plat ⟨s.ops.outBase.toNat, need⟩ .write →
    let key := Memory.readAll s.mem s.ops.keyBase.toNat 32
    let plain := Memory.readAll s.mem s.ops.inBase.toNat s.ops.inLen.toNat
    ∃ t, exec .sealPlain s = .next t ∧ t.draws = s.draws + 1 ∧
      match Config.port.draw s.draws s.plat.nonceSize.val with
      | .failure => endsWith s t .rngFail false s.status.fits s.capBits 0 ∧ t.mem = s.mem
      | .bytes nonce =>
          match Config.aeadSeal key nonce plain with
          | .cipherFailure =>
              endsWith s t .cipherFail false s.status.fits s.capBits 0 ∧ t.mem = s.mem
          | .sealedBytes sealed =>
              if sealed.length = s.ops.inLen.toNat + 16 then
                endsWith s t .noError false s.status.fits s.capBits (BitVec.ofNat 32 need) ∧
                Memory.readAll t.mem s.ops.outBase.toNat need = nonce ++ sealed ∧
                memoryKeptOutside ⟨s.ops.outBase.toNat, need⟩ s t
              else endsWith s t .cipherFail false s.status.fits s.capBits 0 ∧ t.mem = s.mem

/-- R120, R184: the parameter errors of SEAL in their order, with no access and no draw made. -/
def Obligations.SealParameterErrors : Prop :=
  ∀ s : State, s.status.busy = false →
    let rangesOk := rangeOk s.ops.inBase.toNat s.ops.inLen.toNat &&
      rangeOk s.ops.outBase.toNat s.ops.outCap.toNat && rangeOk s.ops.keyBase.toNat 32
    let crosses :=
      overlaps s.ops.outBase.toNat s.ops.outCap.toNat s.ops.inBase.toNat s.ops.inLen.toNat ||
      overlaps s.ops.outBase.toNat s.ops.outCap.toNat s.ops.keyBase.toNat 32
    (rangesOk = false → failsUntouched .sealPlain s .range s.capBits s.status.fits) ∧
    (rangesOk = true → crosses = true →
      failsUntouched .sealPlain s .overlap s.capBits s.status.fits) ∧
    (rangesOk = true → crosses = false →
      s.plat.nonceSize.val + s.ops.inLen.toNat + 16 > s.ops.outCap.toNat →
      failsUntouched .sealPlain s .outOverflow s.capBits s.status.fits)

/-- R122: OPEN splits nonce and sealed bytes, opens, and writes the plaintext; a failed tag or an answer
of the wrong length ends it with no byte written. Whatever the port answers, it completes. -/
def Obligations.OpenFollowsThePort : Prop :=
  ∀ s : State, s.status.busy = false →
    rangeOk s.ops.inBase.toNat s.ops.inLen.toNat = true →
    rangeOk s.ops.outBase.toNat s.ops.outCap.toNat = true →
    rangeOk s.ops.keyBase.toNat 32 = true →
    overlaps s.ops.outBase.toNat s.ops.outCap.toNat s.ops.inBase.toNat s.ops.inLen.toNat = false →
    overlaps s.ops.outBase.toNat s.ops.outCap.toNat s.ops.keyBase.toNat 32 = false →
    s.plat.nonceSize.val + 16 ≤ s.ops.inLen.toNat →
    let plainLen := s.ops.inLen.toNat - s.plat.nonceSize.val - 16
    plainLen ≤ s.ops.outCap.toNat →
    s.ops.keyBuffer.accessible s.plat .read →
    s.ops.inBuffer.accessible s.plat .read →
    Region.accessible s.plat ⟨s.ops.outBase.toNat, plainLen⟩ .write →
    let key := Memory.readAll s.mem s.ops.keyBase.toNat 32
    let nonce := Memory.readAll s.mem s.ops.inBase.toNat s.plat.nonceSize.val
    let sealed := Memory.readAll s.mem (s.ops.inBase.toNat + s.plat.nonceSize.val)
      (s.ops.inLen.toNat - s.plat.nonceSize.val)
    ∃ t, exec .openSealed s = .next t ∧ t.draws = s.draws ∧
      match Config.aeadOpen key nonce sealed with
      | .authFailure => endsWith s t .authFail false s.status.fits s.capBits 0 ∧ t.mem = s.mem
      | .plain p =>
          if p.length = plainLen then
            endsWith s t .noError false s.status.fits s.capBits (BitVec.ofNat 32 plainLen) ∧
            Memory.readAll t.mem s.ops.outBase.toNat plainLen = p ∧
            memoryKeptOutside ⟨s.ops.outBase.toNat, plainLen⟩ s t
          else endsWith s t .cipherFail false s.status.fits s.capBits 0 ∧ t.mem = s.mem

/-- R122, R184: the parameter errors of OPEN in their order, with no access made: RANGE, OVERLAP,
MALFORMED, AUTH_FAIL for a sealed part shorter than the tag, OUT_OVERFLOW. -/
def Obligations.OpenParameterErrors : Prop :=
  ∀ s : State, s.status.busy = false →
    let rangesOk := rangeOk s.ops.inBase.toNat s.ops.inLen.toNat &&
      rangeOk s.ops.outBase.toNat s.ops.outCap.toNat && rangeOk s.ops.keyBase.toNat 32
    let crosses :=
      overlaps s.ops.outBase.toNat s.ops.outCap.toNat s.ops.inBase.toNat s.ops.inLen.toNat ||
      overlaps s.ops.outBase.toNat s.ops.outCap.toNat s.ops.keyBase.toNat 32
    let n := s.plat.nonceSize.val
    (rangesOk = false → failsUntouched .openSealed s .range s.capBits s.status.fits) ∧
    (rangesOk = true → crosses = true →
      failsUntouched .openSealed s .overlap s.capBits s.status.fits) ∧
    (rangesOk = true → crosses = false → s.ops.inLen.toNat < n →
      failsUntouched .openSealed s .malformed s.capBits s.status.fits) ∧
    (rangesOk = true → crosses = false → n ≤ s.ops.inLen.toNat → s.ops.inLen.toNat < n + 16 →
      failsUntouched .openSealed s .authFail s.capBits s.status.fits) ∧
    (rangesOk = true → crosses = false → n + 16 ≤ s.ops.inLen.toNat →
      s.ops.outCap.toNat < s.ops.inLen.toNat - n - 16 →
      failsUntouched .openSealed s .outOverflow s.capBits s.status.fits)

/-- R152: EMBED writes the destination grid: slot j gets frame bit j in its bit 0 while frame bits remain,
every other byte is its source byte, and nothing else changes. Under the legacy policy a frame that does
not fit is cut at the capacity and TRUNC is set; payload bytes whose bits do not fit need no access. -/
def Obligations.EmbedWritesTheFrame : Prop :=
  ∀ s : State, s.status.busy = false →
    let cap := 3 * (s.ops.width.toNat * s.ops.height.toNat)
    let nbits := 32 + 8 * s.ops.inLen.toNat
    let payload := Memory.readAll s.mem s.ops.inBase.toNat s.ops.inLen.toNat
    let src := s.ops.srcBase.toNat
    let dst := s.ops.dstBase.toNat
    s.ops.srcGrid.rangeOk = true → s.ops.dstGrid.rangeOk = true → s.ops.inBuffer.rangeOk = true →
    s.ops.dstGrid.overlaps s.ops.srcGrid = false → s.ops.dstGrid.overlaps s.ops.inBuffer = false →
    (nbits ≤ cap ∨ s.ctrl.truncPolicy = true) →
    s.ops.srcGrid.accessible s.plat .read → s.ops.dstGrid.accessible s.plat .write →
    (∀ n, n < s.ops.inLen.toNat → 32 + 8 * n < cap →
      accessHalt s.plat (s.ops.inBase.toNat + n) .read = none) →
    ∃ t, exec .embed s = .next t ∧
      endsWith s t .noError (decide (nbits > cap)) (decide (nbits ≤ cap)) (sat32 cap) 0 ∧
      t.draws = s.draws ∧ memoryKeptOutside s.ops.dstGrid s t ∧
      (∀ p, p < s.ops.width.toNat * s.ops.height.toNat →
        Memory.read t.mem (dst + 4 * p + 3) = Memory.read s.mem (src + 4 * p + 3)) ∧
      (∀ j, j < cap →
        Memory.read t.mem (dst + slotOffset j) =
          if j < nbits then
            lsbPut (Memory.read s.mem (src + slotOffset j)) ((frame payload).getD j false)
          else Memory.read s.mem (src + slotOffset j))

/-- R152, R184: the parameter errors of EMBED in their order, with no access made; CAP_BITS and FITS are
written first. -/
def Obligations.EmbedParameterErrors : Prop :=
  ∀ s : State, s.status.busy = false →
    let cap := 3 * (s.ops.width.toNat * s.ops.height.toNat)
    let nbits := 32 + 8 * s.ops.inLen.toNat
    let rangesOk := s.ops.srcGrid.rangeOk && s.ops.dstGrid.rangeOk && s.ops.inBuffer.rangeOk
    let crosses := s.ops.dstGrid.overlaps s.ops.srcGrid || s.ops.dstGrid.overlaps s.ops.inBuffer
    (rangesOk = false → failsUntouched .embed s .range (sat32 cap) (decide (nbits ≤ cap))) ∧
    (rangesOk = true → crosses = true →
      failsUntouched .embed s .overlap (sat32 cap) (decide (nbits ≤ cap))) ∧
    (rangesOk = true → crosses = false → nbits > cap → s.ctrl.truncPolicy = false →
      failsUntouched .embed s .capacity (sat32 cap) false)

/-- R157: EMBED keeps every alpha byte, bits 7:1 of every slot, every slot past the frame, and the source
grid. -/
def Obligations.EmbedPreservesTheRest : Prop :=
  ∀ s t : State, s.status.busy = false → exec .embed s = .next t → t.status.errcode = .noError →
    let src := s.ops.srcBase.toNat
    let dst := s.ops.dstBase.toNat
    (∀ p, p < s.ops.npix →
      Memory.read t.mem (dst + 4 * p + 3) = Memory.read s.mem (src + 4 * p + 3)) ∧
    (∀ j, j < s.ops.capacity →
      Memory.read t.mem (dst + slotOffset j) &&& 0xFE =
        Memory.read s.mem (src + slotOffset j) &&& 0xFE) ∧
    (∀ j, min (32 + 8 * s.ops.inLen.toNat) s.ops.capacity ≤ j → j < s.ops.capacity →
      Memory.read t.mem (dst + slotOffset j) = Memory.read s.mem (src + slotOffset j)) ∧
    (∀ a, s.ops.srcGrid.contains a = true → Memory.read t.mem a = Memory.read s.mem a)

/-- R187: what a bus error of EMBED leaves. `n` bytes of the destination grid are written, in order, each
with the value a completed EMBED gives it; the failing access fixes `n`: a destination write at byte n, a
source read of the pixel at byte n, or the read of payload byte m that the pixel at byte n first needs. -/
def Obligations.EmbedBusErrorLeavesPrefix : Prop :=
  ∀ s t : State, s.status.busy = false → exec .embed s = .next t → t.status.errcode = .busError →
    let src := s.ops.srcBase.toNat
    let dst := s.ops.dstBase.toNat
    let payload := Memory.readAll s.mem s.ops.inBase.toNat s.ops.inLen.toNat
    let nbits := 32 + 8 * s.ops.inLen.toNat
    t.capBits = sat32 s.ops.capacity ∧ t.status.fits = decide (nbits ≤ s.ops.capacity) ∧
    t.status.trunc = decide (nbits > s.ops.capacity) ∧
    ∃ n, n ≤ s.ops.gridBytes ∧
      (t.errAddr.toNat = dst + n ∨
       (n % 4 = 0 ∧ ∃ i, i < 4 ∧ t.errAddr.toNat = src + n + i) ∨
       (∃ m, m < s.ops.inLen.toNat ∧ n = 4 * ((32 + 8 * m) / 3) ∧
         t.errAddr.toNat = s.ops.inBase.toNat + m)) ∧
      memoryKeptOutside ⟨dst, n⟩ s t ∧
      (∀ p, 4 * p + 3 < n →
        Memory.read t.mem (dst + 4 * p + 3) = Memory.read s.mem (src + 4 * p + 3)) ∧
      (∀ j, slotOffset j < n →
        Memory.read t.mem (dst + slotOffset j) =
          if j < nbits then
            lsbPut (Memory.read s.mem (src + slotOffset j)) ((frame payload).getD j false)
          else Memory.read s.mem (src + slotOffset j))

/-- R153: EXTRACT collects every slot LSB of the grid in slot order, reassembles, and answers FRAMING,
OUT_OVERFLOW or the declared bytes at OUT_BASE. -/
def Obligations.ExtractReturnsTheDeclaredBytes : Prop :=
  ∀ s : State, s.status.busy = false →
    let cap := 3 * (s.ops.width.toNat * s.ops.height.toNat)
    let rb := reassemble (slotBits s)
    let len := u32le rb
    s.ops.srcGrid.rangeOk = true → s.ops.outBuffer.rangeOk = true →
    s.ops.outBuffer.overlaps s.ops.srcGrid = false →
    (∀ j, j < cap → accessHalt s.plat (s.ops.srcBase.toNat + slotOffset j) .read = none) →
    (4 + len ≤ rb.length → len ≤ s.ops.outCap.toNat →
      Region.accessible s.plat ⟨s.ops.outBase.toNat, len⟩ .write) →
    rb.length = cap / 8 ∧
    ∃ t, exec .extract s = .next t ∧ t.draws = s.draws ∧
      if rb.length < 4 ∨ 4 + len > rb.length then
        endsWith s t .framing false s.status.fits (sat32 cap) 0 ∧ t.mem = s.mem
      else if len > s.ops.outCap.toNat then
        endsWith s t .outOverflow false s.status.fits (sat32 cap) 0 ∧ t.mem = s.mem
      else
        endsWith s t .noError false s.status.fits (sat32 cap) (BitVec.ofNat 32 len) ∧
        Memory.readAll t.mem s.ops.outBase.toNat len = (rb.drop 4).take len ∧
        memoryKeptOutside ⟨s.ops.outBase.toNat, len⟩ s t

/-- R153, R184: the parameter errors of EXTRACT in their order, with no access made; CAP_BITS is written
first. -/
def Obligations.ExtractParameterErrors : Prop :=
  ∀ s : State, s.status.busy = false →
    let cap := 3 * (s.ops.width.toNat * s.ops.height.toNat)
    let rangesOk := s.ops.srcGrid.rangeOk && s.ops.outBuffer.rangeOk
    (rangesOk = false → failsUntouched .extract s .range (sat32 cap) s.status.fits) ∧
    (rangesOk = true → s.ops.outBuffer.overlaps s.ops.srcGrid = true →
      failsUntouched .extract s .overlap (sat32 cap) s.status.fits)

/-- R53, R186: an engine access of data memory that the memory system refuses ends the command with
BUS_ERROR and its address, whatever the command, the port and the race, and changes no memory byte; and
where a command ended with BUS_ERROR, the address is that of an access the memory system refused, in a
region that the command reads or writes in that direction. -/
def Obligations.BusErrorRecordsTheAddress : Prop :=
  (∀ (port : CryptoPort) (raced : Bool) (s : State) (a : Nat), s.status.busy = true → a < 2 ^ 32 →
    ((planStep s).2 = .read a ∧ busOk s.plat a .read = false ∨
      ∃ v, (planStep s).2 = .write a v ∧ busOk s.plat a .write = false) →
    ∃ t, engineStep port raced s = .next t ∧ t.status.errcode = .busError ∧ t.status.err = true ∧
      t.status.done = true ∧ t.status.busy = false ∧ t.errAddr.toNat = a ∧ t.outLen = s.outLen ∧
      t.mem = s.mem ∧ sameConfiguration s t) ∧
  (∀ (i : Instr) (s t : State), s.status.busy = false → exec i s = .next t →
    t.status.errcode = .busError →
    ∃ dir, busOk s.plat t.errAddr.toNat dir = false ∧
      ∃ r ∈ regionsAccessed i s.ops dir, r.contains t.errAddr.toNat = true)

/-- R187: for the four commands that write an OUT buffer, a bus error on a read leaves memory as it was,
and one on a write leaves the prefix of the output before the failing byte, and memory as it was from that
byte on. -/
def Obligations.OutputBusErrorKeepsTheRest : Prop :=
  ∀ (i : Instr) (s t : State),
    i = .deriveKey ∨ i = .sealPlain ∨ i = .openSealed ∨ i = .extract →
    s.status.busy = false → exec i s = .next t → t.status.errcode = .busError →
    t.outLen = 0 ∧
    (s.ops.outBuffer.contains t.errAddr.toNat = false → t.mem = s.mem) ∧
    (s.ops.outBuffer.contains t.errAddr.toNat = true →
      let n := t.errAddr.toNat - s.ops.outBase.toNat
      ∃ out, outputOf i s = some out ∧ n < out.length ∧
        Memory.readAll t.mem s.ops.outBase.toNat n = out.take n) ∧
    (∀ a, a < s.ops.outBase.toNat ∨ t.errAddr.toNat ≤ a →
      Memory.read t.mem a = Memory.read s.mem a)

/-- R68, R78: what every command leaves unchanged when it ends, and where the bytes it stores lie: EMBED's
in the destination grid, the others' in the first OUT_LEN bytes of the OUT buffer on success. -/
def Obligations.CommandFrame : Prop :=
  ∀ (i : Instr) (s t : State), s.status.busy = false → exec i s = .next t →
    sameConfiguration s t ∧
    t.status.busy = false ∧ t.status.done = true ∧
    t.status.err = decide (t.status.errcode ≠ .noError) ∧
    t.status.overrun = s.status.overrun ∧
    (i ≠ .embed → t.status.trunc = false) ∧
    (i ≠ .capacity → i ≠ .embed → t.status.fits = s.status.fits) ∧
    (i ≠ .capacity → i ≠ .embed → i ≠ .extract → t.capBits = s.capBits) ∧
    (t.status.errcode ≠ .busError → t.errAddr = 0) ∧
    (t.status.errcode ≠ .noError → t.outLen = 0) ∧
    (i = .nop ∨ i = .capacity ∨ i = .embed → t.outLen = 0) ∧
    (i ≠ .sealPlain → t.draws = s.draws) ∧
    (i = .nop ∨ i = .capacity → t.mem = s.mem) ∧
    (∀ a, (∀ r ∈ writeRegions i s.ops, r.contains a = false) →
      Memory.read t.mem a = Memory.read s.mem a) ∧
    (i ≠ .embed → t.status.errcode = .noError →
      t.outLen.toNat ≤ s.ops.outCap.toNat ∧
      memoryKeptOutside ⟨s.ops.outBase.toNat, t.outLen.toNat⟩ s t)

/-- R93, R102: no command ever accesses an address outside data memory, and every command completes
unless an access reaches device memory in one of its regions (R59). That every access and port request is
answered is R226's premise, built into the model (log 25). -/
def Obligations.EveryCommandCompletes : Prop :=
  ∀ (i : Instr) (s : State), s.status.busy = false →
    (∀ f, exec i s ≠ .fault f) ∧
    (∀ r, exec i s = .refused r → ∃ a, r = .deviceMemory a ∧ isDevice s.plat a = true ∧
      ∃ reg ∈ readRegions i s.ops ++ writeRegions i s.ops, reg.contains a = true) ∧
    (noDeviceOperand i s → ∃ t, exec i s = .next t ∧ t.status.done = true ∧ t.status.busy = false)

/-! ## Steps, engine and whole-machine rules -/

/-- A step runs the decoded command: where the host's next operation is RUN of a word that decodes, and the
block is idle, the step is the meaning at the state with the operation taken, and RUN's last read of
STATUS as the answer (R84, R90). -/
def Obligations.StepRunsTheDecodedCommand : Prop :=
  (∀ (s : State) (w : Word) (i : Instr) (ps : List HostOp), s.status.busy = false →
    s.program = .run w :: ps → decode w = .ok i → (s.turns = [] ∨ s.turns.head? = some .host) →
    step s =
      match exec i { s with program := ps, turns := s.turns.tail } with
      | .next t    => .next { t with response := .word t.status.toWord }
      | .fault r   => .fault r
      | .refused r => .refused r) ∧
  (∀ (s : State) (w : Word) (i : Instr), s.status.busy = false → decode w = .ok i →
    step (s.withFetchWord 32 w.toNat) =
      match exec i s with
      | .next t    => .next { t with response := .word t.status.toWord }
      | .fault r   => .fault r
      | .refused r => .refused r)

/-- R83: one read of a POLL at the head of the host's program, on a turn of the host and, with no turn
scheduled, while BUSY = 0; while its condition does not hold it stays there and is repeated. -/
def Obligations.PollRepeatsUntilMatch : Prop :=
  ∀ (s : State) (r : Reg) (mask value : Word) (ps : List HostOp),
    (s.turns.head? = some .host ∨ s.turns = [] ∧ s.status.busy = false) → s.program = .poll (r.address s.plat.codecBase) mask value :: ps →
    step s = .next
      { s with turns := s.turns.tail, response := .word (readReg s r),
               program := if readReg s r &&& mask = value then ps else s.program }

/-- R103: in a state with BUSY = 0 and no further host operation or turn, a step changes nothing; while
BUSY = 1 and the schedule is empty, a step is the engine's (the default schedule is the model's, logs 2
and 25). -/
def Obligations.EndOfRunStays : Prop :=
  (∀ s : State, s.status.busy = false → s.program = [] → s.turns = [] → step s = .next s) ∧
  (∀ s : State, s.status.busy = true → s.turns = [] → step s = engineStep Config.port false s)

/-- The state after reset meets the invariant. -/
def Obligations.ResetMeetsInvariant : Prop := State.reset.Inv

/-- Every step keeps the invariant: memory in canonical form, registers that agree with each other, and an
engine inside its command. -/
def Obligations.StepKeepsInvariant : Prop :=
  ∀ s t : State, s.Inv → step s = .next t → t.Inv

/-- R50, R93: from a state that meets the invariant no step makes an access outside data memory. -/
def Obligations.InvariantStepsNeverFault : Prop :=
  ∀ (s : State) (f : Fault), s.Inv → step s ≠ .fault f

/-- R96, R102: the engine's steps, one access each, from a command's acceptance until it ends, give what
the command's meaning gives, within the bound on its steps, at every crypto port. -/
def Obligations.EngineStepsRefineTheMeaning : Prop :=
  ∀ (port : CryptoPort) (i : Instr) (s : State), s.status.busy = false →
    runEngine port (stepBound i s.ops) (accept i s) = execWith port i s

/-- R84: from every idle state under the default schedule (no turn scheduled, log 2) RUN gives what its
expansion gives: the CMD write, the engine's steps, and the POLL for DONE. That the engine gets its steps
is R226's premise, built into the model (log 25). -/
def Obligations.RunIsWriteThenPoll : Prop :=
  ∀ (s : State) (w : Word) (i : Instr) (ps : List HostOp), s.status.busy = false → s.turns = [] →
    s.program = .run w :: ps → decode w = .ok i →
    ∃ n, n ≤ stepBound i s.ops + 2 ∧
      runSteps n { s with program := (HostOp.run w).expand s.plat.codecBase ++ ps } = step s

/-- R52, R96: an engine step changes at most the one byte that it writes. -/
def Obligations.EngineStepWritesOneByte : Prop :=
  ∀ (port : CryptoPort) (raced : Bool) (s t : State), s.status.busy = true →
    engineStep port raced s = .next t →
    (∀ a v, (planStep s).2 = .write a v → ∀ b, b ≠ a →
      Memory.read t.mem b = Memory.read s.mem b) ∧
    ((∀ a v, (planStep s).2 ≠ .write a v) → t.mem = s.mem)

/-- R68: at every engine step of a state that meets the invariant, memory outside the regions that the
running command writes stays. -/
def Obligations.EngineWritesStayInRegions : Prop :=
  ∀ (port : CryptoPort) (raced : Bool) (s t : State), s.Inv → s.status.busy = true →
    engineStep port raced s = .next t →
    ∀ a, (∀ r ∈ writeRegions s.engine.curOp s.ops, r.contains a = false) →
      Memory.read t.mem a = Memory.read s.mem a

/-- R102, R226: a running command ends within its bound of steps when no turn is scheduled and no memory
has read side effects. That the engine then gets every step, and every access and port request its answer,
is R226's fairness premise, built into the model's default schedule (log 25). -/
def Obligations.RunningCommandReachesDone : Prop :=
  ∀ s : State, s.Inv → s.status.busy = true → s.turns = [] → s.plat.devices = [] →
    ∃ n t, n ≤ stepBound s.engine.curOp s.ops ∧ runSteps n s = .next t ∧
      t.status.done = true ∧ t.status.busy = false

/-- R101: while BUSY no step but reset changes an operand register or CTRL. -/
def Obligations.OperandsFixedWhileBusy : Prop :=
  ∀ s t : State, s.status.busy = true → step s = .next t → s.turns.head? ≠ some .reset →
    t.ops = s.ops ∧ t.ctrl = s.ctrl

/-- R42: no step changes the platform's parameters. -/
def Obligations.PlatformNeverChanges : Prop :=
  ∀ s t : State, step s = .next t → t.plat = s.plat

/-- R65, R218: a byte in a race reads as a free value and is left as a free value, for the engine and for
the other agent; an access of another agent that is in no race stores its value, or reads memory, and
every other byte stays. The model's own here: how a race is represented (log 8); that a host's or another
agent's store and load, of one byte each (log 24), reach data memory also at an address the register
window covers (log 23); and that they are immediate and coherent (log 21). -/
def Obligations.RacedBytesAreFree : Prop :=
  (∀ (raced : Bool) (s : State) (a : Nat), accessHalt s.plat a .read = none →
    (raced = true ∨ a ∈ s.raced) →
    engineRead raced s a = .ok (Config.freeByte s.free, { s with free := s.free + 1 })) ∧
  (∀ (s t : State) (a : Nat) (v : Byte), a ∈ s.raced →
    engineWrite s a v = .ok t → Memory.read t.mem a = Config.freeByte s.free) ∧
  (∀ (s : State) (a : Word) (v : Byte), inCommandRegion s a.toNat = true →
    Memory.read (agentStore a v s).mem a.toNat = Config.freeByte s.free ∧
    a.toNat ∈ (agentStore a v s).raced) ∧
  (∀ (raced : Bool) (s : State) (a : Word), inWrittenRegion s a.toNat = true →
    Memory.read (agentLoad raced a s).mem a.toNat = Config.freeByte s.free ∧
    (agentLoad raced a s).response = .byte (Config.freeByte (s.free + 1)) ∧
    a.toNat ∈ (agentLoad raced a s).raced ∧
    ∀ b, b ≠ a.toNat → Memory.read (agentLoad raced a s).mem b = Memory.read s.mem b) ∧
  (∀ (raced : Bool) (s : State) (a : Word), inWrittenRegion s a.toNat = false →
    inCommandRegion s a.toNat = true → (raced = true ∨ a.toNat ∈ s.raced) →
    agentLoad raced a s =
      { s with response := .byte (Config.freeByte s.free), free := s.free + 1 }) ∧
  (∀ (raced : Bool) (s : State) (a : Word), inWrittenRegion s a.toNat = false →
    (inCommandRegion s a.toNat = false ∨ raced = false ∧ a.toNat ∉ s.raced) →
    agentLoad raced a s = { s with response := .byte (Memory.read s.mem a.toNat) }) ∧
  (∀ (s : State) (a : Word) (v : Byte), inCommandRegion s a.toNat = false →
    Memory.read (agentStore a v s).mem a.toNat = v ∧
    (agentStore a v s).raced = s.raced ∧ (agentStore a v s).free = s.free) ∧
  (∀ (s : State) (a : Word) (v : Byte) (b : Nat), b ≠ a.toNat →
    Memory.read (agentStore a v s).mem b = Memory.read s.mem b)

/-- R52, R96: outside a race the engine's accesses are exact. A read that is performed gives the byte of
memory and a write stores its value; and the engine's turn of a schedule is its step with no race, where
no store to come is to the byte it reads, and where the turns come to no race before the command ends. How
the model sees a race ahead is its own (log 8). -/
def Obligations.EngineTurnsAreExactOutsideRaces : Prop :=
  (∀ (s : State) (a : Nat), a ∉ s.raced → accessHalt s.plat a .read = none →
    engineRead false s a = .ok (Memory.read s.mem a, s)) ∧
  (∀ (s : State) (a : Nat) (v : Byte), a ∉ s.raced → accessHalt s.plat a .write = none →
    ∃ t, engineWrite s a v = .ok t ∧ Memory.read t.mem a = v ∧
      (∀ b, b ≠ a → Memory.read t.mem b = Memory.read s.mem b) ∧ t = { s with mem := t.mem }) ∧
  (∀ (s : State) (ts : List Turn), s.turns = .engine :: ts →
    (∀ (addr : Word) (v : Byte), .other (.store addr v) ∈ ts ∨ .store addr v ∈ s.program →
      (planStep { s with turns := ts }).2 ≠ .read addr.toNat) →
    step s = engineStep Config.port false { s with turns := ts }) ∧
  (∀ (s : State) (ts : List Turn), s.turns = .engine :: ts → raceToCome (.engine :: ts) s = false →
    step s = engineStep Config.port false { s with turns := ts })

/-- R65: an engine read that comes before the store it races with. Where the schedule leads, with BUSY = 1
throughout, from an engine's turn that reads a byte of the command's regions to a host's or another
agent's store to that byte, the read already gave a free value. The model's own: how the race is seen
ahead (log 8), and that the store, of one byte (log 24), reaches data memory at any address (log 23). -/
def Obligations.ReadBeforeStoreIsFree : Prop :=
  ∀ (n : Nat) (s u t : State) (ts : List Turn) (addr : Word) (v : Byte),
    s.status.busy = true → s.turns = .engine :: ts →
    let p := planStep { s with turns := ts }
    p.2 = .read addr.toNat → inCommandRegion s addr.toNat = true →
    accessHalt s.plat addr.toNat .read = none →
    step s = .next u → runsBusy n u t → t.status.busy = true →
    nextHostOp t = some (.store addr v) →
    u = { p.1 with engine := afterRead s.ops (Config.freeByte s.free) p.1.engine,
                   free := s.free + 1 }

/-! ## Round trips and what EXTRACT depends on -/

/-- R155: EXTRACT of a grid that EMBED filled without truncation gives back the embedded bytes. -/
def Obligations.CodecRoundTrip : Prop :=
  ∀ s t u v : State, s.status.busy = false → u.status.busy = false →
    exec .embed s = .next t → t.status.errcode = .noError → t.status.trunc = false →
    u.ops.srcBase = s.ops.dstBase → u.ops.width = s.ops.width → u.ops.height = s.ops.height →
    s.ops.inLen.toNat ≤ u.ops.outCap.toNat →
    (∀ a, s.ops.dstGrid.contains a = true → Memory.read u.mem a = Memory.read t.mem a) →
    exec .extract u = .next v → v.status.errcode ≠ .range → v.status.errcode ≠ .overlap →
    v.status.errcode ≠ .busError →
    v.status.errcode = .noError ∧ v.outLen = s.ops.inLen ∧
    Memory.readAll v.mem u.ops.outBase.toNat s.ops.inLen.toNat =
      Memory.readAll s.mem s.ops.inBase.toNat s.ops.inLen.toNat

/-- R156: a frame that fits embeds under either policy with TRUNC = 0; one that does not fails with
CAPACITY under the hardened policy, and under the legacy policy sets TRUNC and EXTRACT of the result
raises FRAMING. -/
def Obligations.CapacityBoundary : Prop :=
  ∀ s t : State, s.status.busy = false → exec .embed s = .next t →
    t.status.errcode ≠ .range → t.status.errcode ≠ .overlap → t.status.errcode ≠ .busError →
    (32 + 8 * s.ops.inLen.toNat ≤ s.ops.capacity →
      t.status.errcode = .noError ∧ t.status.trunc = false) ∧
    (s.ops.capacity < 32 + 8 * s.ops.inLen.toNat → s.ctrl.truncPolicy = false →
      t.status.errcode = .capacity) ∧
    (s.ops.capacity < 32 + 8 * s.ops.inLen.toNat → s.ctrl.truncPolicy = true →
      t.status.errcode = .noError ∧ t.status.trunc = true ∧
      ∀ u v : State, u.status.busy = false → u.ops.srcBase = s.ops.dstBase →
        u.ops.width = s.ops.width → u.ops.height = s.ops.height →
        (∀ a, s.ops.dstGrid.contains a = true → Memory.read u.mem a = Memory.read t.mem a) →
        exec .extract u = .next v → v.status.errcode ≠ .range → v.status.errcode ≠ .overlap →
        v.status.errcode ≠ .busError → v.status.errcode = .framing ∧ v.mem = u.mem)

/-- R114, R119, R120, R122: the machine's crypto port meets the law of R114; and OPEN of what SEAL wrote,
under the same key, gives back the plaintext, for every crypto port that meets that law. -/
def Obligations.SealThenOpen : Prop :=
  (∀ n : Nat, Config.port.OpenInvertsSeal n) ∧
  ∀ (port : CryptoPort) (s t u v : State), port.OpenInvertsSeal s.plat.nonceSize.val →
    s.status.busy = false →
    u.status.busy = false → execWith port .sealPlain s = .next t → t.status.errcode = .noError →
    u.plat.nonceSize = s.plat.nonceSize → u.ops.inLen = t.outLen →
    Memory.readAll u.mem u.ops.inBase.toNat t.outLen.toNat =
      Memory.readAll t.mem s.ops.outBase.toNat t.outLen.toNat →
    Memory.readAll u.mem u.ops.keyBase.toNat 32 = Memory.readAll s.mem s.ops.keyBase.toNat 32 →
    s.ops.inLen.toNat ≤ u.ops.outCap.toNat →
    execWith port .openSealed u = .next v → v.status.errcode ≠ .range →
    v.status.errcode ≠ .overlap → v.status.errcode ≠ .busError →
    v.status.errcode = .noError ∧ v.outLen = s.ops.inLen ∧
    Memory.readAll v.mem u.ops.outBase.toNat s.ops.inLen.toNat =
      Memory.readAll s.mem s.ops.inBase.toNat s.ops.inLen.toNat

/-- R124: the end-to-end round trip: DERIVE_KEY, SEAL, EMBED, EXTRACT and OPEN under the derived key give
back the plaintext, for every crypto port that meets the law of R114. -/
def Obligations.EndToEndRoundTrip : Prop :=
  ∀ (port : CryptoPort) (s0 t0 s1 t1 s2 t2 s3 t3 s4 t4 : State),
    port.OpenInvertsSeal s1.plat.nonceSize.val →
    s0.status.busy = false → s1.status.busy = false → s2.status.busy = false →
    s3.status.busy = false → s4.status.busy = false →
    execWith port .deriveKey s0 = .next t0 → t0.status.errcode = .noError →
    Memory.readAll s1.mem s1.ops.keyBase.toNat 32 =
      Memory.readAll t0.mem s0.ops.outBase.toNat 32 →
    execWith port .sealPlain s1 = .next t1 → t1.status.errcode = .noError →
    s2.ops.inLen = t1.outLen →
    Memory.readAll s2.mem s2.ops.inBase.toNat t1.outLen.toNat =
      Memory.readAll t1.mem s1.ops.outBase.toNat t1.outLen.toNat →
    execWith port .embed s2 = .next t2 → t2.status.errcode = .noError → t2.status.trunc = false →
    s3.ops.srcBase = s2.ops.dstBase → s3.ops.width = s2.ops.width →
    s3.ops.height = s2.ops.height →
    (∀ a, s2.ops.dstGrid.contains a = true → Memory.read s3.mem a = Memory.read t2.mem a) →
    execWith port .extract s3 = .next t3 → t3.status.errcode = .noError →
    s4.plat.nonceSize = s1.plat.nonceSize → s4.ops.inLen = t3.outLen →
    Memory.readAll s4.mem s4.ops.inBase.toNat t3.outLen.toNat =
      Memory.readAll t3.mem s3.ops.outBase.toNat t3.outLen.toNat →
    Memory.readAll s4.mem s4.ops.keyBase.toNat 32 =
      (port.hash (Memory.readAll s0.mem s0.ops.inBase.toNat s0.ops.inLen.toNat)).toList →
    execWith port .openSealed s4 = .next t4 → t4.status.errcode ≠ .range →
    t4.status.errcode ≠ .overlap → t4.status.errcode ≠ .outOverflow →
    t4.status.errcode ≠ .busError →
    (t3.outLen = t1.outLen ∧
      Memory.readAll t3.mem s3.ops.outBase.toNat t3.outLen.toNat =
        Memory.readAll t1.mem s1.ops.outBase.toNat t1.outLen.toNat) ∧
    t4.status.errcode = .noError ∧ t4.outLen = s1.ops.inLen ∧
    Memory.readAll t4.mem s4.ops.outBase.toNat s1.ops.inLen.toNat =
      Memory.readAll s1.mem s1.ops.inBase.toNat s1.ops.inLen.toNat

/-- R158: the result of EXTRACT depends on bit 0 of the grid's slots only: two memories whose slot LSBs
agree give the same registers and the same output bytes. -/
def Obligations.ExtractDependsOnSlotLsbsOnly : Prop :=
  ∀ (s : State) (m : List Host.Cell) (t : State), s.status.busy = false →
    (∀ j, j < s.ops.capacity →
      lsbGet (Memory.read m (s.ops.srcBase.toNat + slotOffset j)) =
        lsbGet (Memory.read s.mem (s.ops.srcBase.toNat + slotOffset j))) →
    exec .extract s = .next t →
    ∃ t', exec .extract { s with mem := m } = .next t' ∧ t'.status = t.status ∧
      t'.errAddr = t.errAddr ∧ t'.outLen = t.outLen ∧ t'.capBits = t.capBits ∧
      ∀ j, j < t.outLen.toNat →
        Memory.read t'.mem (s.ops.outBase.toNat + j) = Memory.read t.mem (s.ops.outBase.toNat + j)

/-- R221: EXTRACT depends on WIDTH and HEIGHT through their product only. -/
def Obligations.ExtractDependsOnPixelCountOnly : Prop :=
  ∀ (s t : State) (w h : Word), s.status.busy = false → w.toNat * h.toNat = s.ops.npix →
    exec .extract s = .next t →
    exec .extract { s with ops := { s.ops with width := w, height := h } } =
      .next { t with ops := { s.ops with width := w, height := h } }
end

