-- ==== Sys2Proof/Laws/Memory.lean ====
section
/-! SUPPORT. The laws of data memory: read after write, and the canonical form. -/

namespace Sys2Proof.Machine

@[simp] theorem Memory.read_nil (a : Nat) : Memory.read [] a = Config.unwrittenByte := rfl

theorem Memory.read_cons (c : Host.Cell) (m : List Host.Cell) (a : Nat) :
    Memory.read (c :: m) a = if a = c.1 then c.2 else Memory.read m a := rfl

theorem Memory.read_insert_same (m : List Host.Cell) (a : Nat) (v : Byte) :
    Memory.read (Memory.insert m a v) a = v := by
  induction m with
  | nil => simp [Memory.insert, Memory.read]
  | cons c m ih =>
    obtain ⟨b, w⟩ := c
    simp only [Memory.insert]
    split
    · simp [Memory.read]
    · split
      · simp [Memory.read]
      · simp [Memory.read, *]

theorem Memory.read_insert_other (m : List Host.Cell) {a b : Nat} (v : Byte) (h : b ≠ a) :
    Memory.read (Memory.insert m a v) b = Memory.read m b := by
  induction m with
  | nil => simp [Memory.insert, Memory.read, h]
  | cons c m ih =>
    obtain ⟨d, w⟩ := c
    simp only [Memory.insert]
    split
    · simp [Memory.read, h]
    · split
      · rename_i hd; subst hd; simp [Memory.read, h]
      · simp [Memory.read, ih]

theorem Memory.read_erase_same (m : List Host.Cell) (a : Nat) :
    Memory.read (Memory.erase m a) a = Config.unwrittenByte := by
  induction m with
  | nil => rfl
  | cons c m ih =>
    obtain ⟨d, w⟩ := c
    by_cases h : d = a
    · subst h; simpa [Memory.erase] using ih
    · have : Memory.erase ((d, w) :: m) a = (d, w) :: Memory.erase m a := by
        simp [Memory.erase, h]
      rw [this, Memory.read_cons, if_neg (Ne.symm h), ih]

theorem Memory.read_erase_other (m : List Host.Cell) {a b : Nat} (h : b ≠ a) :
    Memory.read (Memory.erase m a) b = Memory.read m b := by
  induction m with
  | nil => rfl
  | cons c m ih =>
    obtain ⟨d, w⟩ := c
    by_cases hd : d = a
    · subst hd
      have : Memory.erase ((d, w) :: m) d = Memory.erase m d := by simp [Memory.erase]
      rw [this, ih, Memory.read_cons, if_neg h]
    · have : Memory.erase ((d, w) :: m) a = (d, w) :: Memory.erase m a := by
        simp [Memory.erase, hd]
      rw [this, Memory.read_cons, Memory.read_cons, ih]

/-- A read after a write to the same address gives the value written. -/
@[simp] theorem Memory.read_write_same (m : List Host.Cell) (a : Nat) (v : Byte) :
    Memory.read (Memory.write m a v) a = v := by
  unfold Memory.write
  split
  · rename_i h; rw [Memory.read_erase_same, h]
  · exact Memory.read_insert_same m a v

/-- A write leaves every other address alone. -/
theorem Memory.read_write_other (m : List Host.Cell) {a b : Nat} (v : Byte) (h : b ≠ a) :
    Memory.read (Memory.write m a v) b = Memory.read m b := by
  unfold Memory.write
  split
  · exact Memory.read_erase_other m h
  · exact Memory.read_insert_other m v h

theorem Memory.read_write (m : List Host.Cell) (a b : Nat) (v : Byte) :
    Memory.read (Memory.write m a v) b = if b = a then v else Memory.read m b := by
  split
  · subst_vars; simp
  · exact Memory.read_write_other m v ‹_›

/-- Reading after a byte sequence has been written. -/
theorem Memory.read_writeAll (bs : Bytes) (m : List Host.Cell) (a b : Nat) :
    Memory.read (Memory.writeAll m a bs) b =
      if a ≤ b ∧ b < a + bs.length then bs.getD (b - a) 0 else Memory.read m b := by
  induction bs generalizing m a with
  | nil => simp [Memory.writeAll]
  | cons x xs ih =>
    rw [Memory.writeAll, ih, Memory.read_write]
    by_cases h : b = a
    · subst h; simp
    · by_cases h1 : a + 1 ≤ b ∧ b < a + 1 + xs.length
      · have hb : b - a = (b - (a + 1)) + 1 := by omega
        rw [if_pos h1, if_pos (by simp; omega), hb]; simp
      · rw [if_neg h1, if_neg h, if_neg (by simp; omega)]

/-- Outside the bytes written, memory reads as before. -/
theorem Memory.read_writeAll_outside {bs : Bytes} {m : List Host.Cell} {a b : Nat}
    (h : ¬ (a ≤ b ∧ b < a + bs.length)) :
    Memory.read (Memory.writeAll m a bs) b = Memory.read m b := by
  rw [Memory.read_writeAll, if_neg h]

@[simp] theorem Memory.length_readAll (m : List Host.Cell) (a n : Nat) :
    (Memory.readAll m a n).length = n := by simp [Memory.readAll]

theorem Memory.getD_readAll (m : List Host.Cell) (a n j : Nat) (d : Byte) (h : j < n) :
    (Memory.readAll m a n).getD j d = Memory.read m (a + j) := by
  simp [Memory.readAll, List.getD, h]

/-- Reading back the bytes that were written. -/
theorem Memory.readAll_writeAll (bs : Bytes) (m : List Host.Cell) (a : Nat) :
    Memory.readAll (Memory.writeAll m a bs) a bs.length = bs := by
  apply List.ext_getElem
  · simp
  · intro j h1 h2
    simp only [Memory.readAll, List.getElem_map, List.getElem_range, Memory.read_writeAll]
    rw [if_pos (by omega)]
    simp [List.getD, h2]

/-- Reading depends on the bytes of the range only. -/
theorem Memory.readAll_congr {m m' : List Host.Cell} {a n : Nat}
    (h : ∀ j, j < n → Memory.read m (a + j) = Memory.read m' (a + j)) :
    Memory.readAll m a n = Memory.readAll m' a n := by
  apply List.map_congr_left
  intro j hj
  exact h j (List.mem_range.mp hj)

theorem Memory.readAll_succ (m : List Host.Cell) (a n : Nat) :
    Memory.readAll m a (n + 1) = Memory.read m a :: Memory.readAll m (a + 1) n := by
  simp only [Memory.readAll, List.range_succ_eq_map, List.map_cons, List.map_map, Nat.add_zero]
  congr 1
  apply List.map_congr_left
  intro j _
  simp only [Function.comp]
  congr 1; omega

/-! ## The canonical form -/

theorem Memory.wf_cons (a : Nat) (v : Byte) (m : List Host.Cell) :
    Memory.wf ((a, v) :: m) = true ↔
      a < Config.addressSpace ∧ v ≠ Config.unwrittenByte ∧ (∀ c ∈ m, a < c.1) ∧
        Memory.wf m = true := by
  simp [Memory.wf, and_assoc]

theorem Memory.mem_insert {m : List Host.Cell} {a : Nat} {v : Byte} {c : Host.Cell}
    (h : c ∈ Memory.insert m a v) : c = (a, v) ∨ c ∈ m := by
  induction m with
  | nil => simpa [Memory.insert] using h
  | cons d m ih =>
    grind [Memory.insert]

theorem Memory.wf_insert {m : List Host.Cell} {a : Nat} {v : Byte} (hm : Memory.wf m = true)
    (ha : a < Config.addressSpace) (hv : v ≠ Config.unwrittenByte) :
    Memory.wf (Memory.insert m a v) = true := by
  induction m with
  | nil => simp [Memory.insert, Memory.wf, ha, hv]
  | cons d m ih =>
    obtain ⟨b, w⟩ := d
    obtain ⟨hb, hw, hlt, hm'⟩ := (Memory.wf_cons b w m).mp hm
    have placed : ∀ c ∈ Memory.insert m a v, c = (a, v) ∨ c ∈ m := fun c => Memory.mem_insert
    have rest := ih hm'
    simp only [Memory.insert]
    split <;> [skip; split] <;> rw [Memory.wf_cons] <;> grind

theorem Memory.wf_erase {m : List Host.Cell} {a : Nat} (hm : Memory.wf m = true) :
    Memory.wf (Memory.erase m a) = true := by
  induction m with
  | nil => rfl
  | cons d m ih =>
    obtain ⟨b, w⟩ := d
    obtain ⟨hb, hw, hlt, hm'⟩ := (Memory.wf_cons b w m).mp hm
    by_cases h : b = a
    · have : Memory.erase ((b, w) :: m) a = Memory.erase m a := by simp [Memory.erase, h]
      rw [this]; exact ih hm'
    · have : Memory.erase ((b, w) :: m) a = (b, w) :: Memory.erase m a := by
        simp [Memory.erase, h]
      rw [this]
      refine (Memory.wf_cons _ _ _).mpr ⟨hb, hw, ?_, ih hm'⟩
      intro c hc
      exact hlt c (List.mem_filter.mp hc).1

/-- Every write keeps the canonical form. -/
theorem Memory.wf_write {m : List Host.Cell} {a : Nat} (v : Byte) (hm : Memory.wf m = true)
    (ha : a < Config.addressSpace) : Memory.wf (Memory.write m a v) = true := by
  unfold Memory.write
  split
  · exact Memory.wf_erase hm
  · exact Memory.wf_insert hm ha ‹_›

/-- Writing a byte sequence inside data memory keeps the canonical form. -/
theorem Memory.wf_writeAll (bs : Bytes) {m : List Host.Cell} {a : Nat} (hm : Memory.wf m = true)
    (ha : a + bs.length ≤ Config.addressSpace) : Memory.wf (Memory.writeAll m a bs) = true := by
  induction bs generalizing m a with
  | nil => exact hm
  | cons b bs ih =>
    simp only [List.length_cons] at ha
    exact ih (Memory.wf_write b hm (by omega)) (by omega)

theorem Memory.read_of_lt_all {m : List Host.Cell} {a : Nat} (h : ∀ c ∈ m, a < c.1) :
    Memory.read m a = Config.unwrittenByte := by
  induction m with
  | nil => rfl
  | cons c m ih =>
    have hc := h c (List.mem_cons_self ..)
    rw [Memory.read_cons, if_neg (by omega)]
    exact ih fun d hd => h d (List.mem_cons_of_mem _ hd)

/-- In canonical form, memories that read alike are equal data. -/
theorem Memory.ext_of_read {m m' : List Host.Cell} (hm : Memory.wf m = true)
    (hm' : Memory.wf m' = true) (h : ∀ a, Memory.read m a = Memory.read m' a) : m = m' := by
  induction m generalizing m' with
  | nil =>
    cases m' with
    | nil => rfl
    | cons c m' =>
      obtain ⟨b, w⟩ := c
      obtain ⟨-, hw, -, -⟩ := (Memory.wf_cons b w m').mp hm'
      have := h b
      simp [Memory.read_cons] at this
      exact absurd this.symm hw
  | cons c m ih =>
    obtain ⟨b, w⟩ := c
    obtain ⟨-, hw, hlt, hm1⟩ := (Memory.wf_cons b w m).mp hm
    cases m' with
    | nil =>
      have := h b
      simp [Memory.read_cons] at this
      exact absurd this hw
    | cons c' m' =>
      obtain ⟨b', w'⟩ := c'
      obtain ⟨-, hw', hlt', hm1'⟩ := (Memory.wf_cons b' w' m').mp hm'
      have hb : b = b' := by
        rcases Nat.lt_trichotomy b b' with hlt1 | heq | hgt
        · have h1 := h b
          rw [Memory.read_cons, if_pos rfl, Memory.read_cons, if_neg (by simp; omega),
            Memory.read_of_lt_all fun d hd => Nat.lt_trans hlt1 (hlt' d hd)] at h1
          exact absurd h1 hw
        · exact heq
        · have h1 := h b'
          rw [Memory.read_cons, if_neg (by simp; omega),
            Memory.read_of_lt_all fun d hd => Nat.lt_trans hgt (hlt d hd), Memory.read_cons,
            if_pos rfl] at h1
          exact absurd h1.symm hw'
      subst hb
      have hww : w = w' := by simpa [Memory.read_cons] using h b
      subst hww
      congr 1
      refine ih hm1 hm1' fun a => ?_
      by_cases ha : a = b
      · subst ha
        rw [Memory.read_of_lt_all hlt, Memory.read_of_lt_all hlt']
      · simpa [Memory.read_cons, ha] using h a

theorem State.reset_mem_wf : Memory.wf State.reset.mem = true := rfl

end Sys2Proof.Machine
end

