-- ==== Sys2Proof/Laws/State.lean ====
section
/-! SUPPORT. One lemma per field per named update of the state, each true by definition. -/

namespace Sys2Proof.Machine

/-! ## clearForCommand: acceptance's clearing (R92) -/

@[simp] theorem clearForCommand_ctrl (s : State) : (clearForCommand s).ctrl = s.ctrl := rfl
@[simp] theorem clearForCommand_status (s : State) :
    (clearForCommand s).status =
      { s.status with done := false, err := false, errcode := .noError, trunc := false } := rfl
@[simp] theorem clearForCommand_errAddr (s : State) : (clearForCommand s).errAddr = 0 := rfl
@[simp] theorem clearForCommand_ops (s : State) : (clearForCommand s).ops = s.ops := rfl
@[simp] theorem clearForCommand_outLen (s : State) : (clearForCommand s).outLen = 0 := rfl
@[simp] theorem clearForCommand_capBits (s : State) : (clearForCommand s).capBits = s.capBits := rfl
@[simp] theorem clearForCommand_engine (s : State) : (clearForCommand s).engine = s.engine := rfl
@[simp] theorem clearForCommand_mem (s : State) : (clearForCommand s).mem = s.mem := rfl
@[simp] theorem clearForCommand_plat (s : State) : (clearForCommand s).plat = s.plat := rfl
@[simp] theorem clearForCommand_raced (s : State) : (clearForCommand s).raced = s.raced := rfl
@[simp] theorem clearForCommand_draws (s : State) : (clearForCommand s).draws = s.draws := rfl
@[simp] theorem clearForCommand_free (s : State) : (clearForCommand s).free = s.free := rfl
@[simp] theorem clearForCommand_program (s : State) : (clearForCommand s).program = s.program := rfl
@[simp] theorem clearForCommand_turns (s : State) : (clearForCommand s).turns = s.turns := rfl
@[simp] theorem clearForCommand_response (s : State) :
    (clearForCommand s).response =
      s.response := rfl

/-! ## beginCommand: the start of a decoded command (R90) -/

@[simp] theorem beginCommand_ctrl (op : Instr) (s : State) :
    (beginCommand op s).ctrl =
      s.ctrl := rfl
@[simp] theorem beginCommand_status (op : Instr) (s : State) :
    (beginCommand op s).status =
      { s.status with busy := true } := rfl
@[simp] theorem beginCommand_errAddr (op : Instr) (s : State) :
    (beginCommand op s).errAddr =
      s.errAddr := rfl
@[simp] theorem beginCommand_ops (op : Instr) (s : State) : (beginCommand op s).ops = s.ops := rfl
@[simp] theorem beginCommand_outLen (op : Instr) (s : State) :
    (beginCommand op s).outLen =
      s.outLen := rfl
@[simp] theorem beginCommand_capBits (op : Instr) (s : State) :
    (beginCommand op s).capBits =
      s.capBits := rfl
@[simp] theorem beginCommand_engine (op : Instr) (s : State) :
    (beginCommand op s).engine =
      Engine.atStart op := rfl
@[simp] theorem beginCommand_mem (op : Instr) (s : State) : (beginCommand op s).mem = s.mem := rfl
@[simp] theorem beginCommand_plat (op : Instr) (s : State) :
    (beginCommand op s).plat =
      s.plat := rfl
@[simp] theorem beginCommand_raced (op : Instr) (s : State) : (beginCommand op s).raced = [] := rfl
@[simp] theorem beginCommand_draws (op : Instr) (s : State) :
    (beginCommand op s).draws =
      s.draws := rfl
@[simp] theorem beginCommand_free (op : Instr) (s : State) :
    (beginCommand op s).free =
      s.free := rfl
@[simp] theorem beginCommand_program (op : Instr) (s : State) :
    (beginCommand op s).program =
      s.program := rfl
@[simp] theorem beginCommand_turns (op : Instr) (s : State) :
    (beginCommand op s).turns =
      s.turns := rfl
@[simp] theorem beginCommand_response (op : Instr) (s : State) :
    (beginCommand op s).response =
      s.response := rfl

/-! ## accept: acceptance (R90, R92) -/

@[simp] theorem accept_ctrl (op : Instr) (s : State) : (accept op s).ctrl = s.ctrl := rfl
@[simp] theorem accept_status (op : Instr) (s : State) :
    (accept op s).status =
      { s.status with done := false, err := false, errcode := .noError, trunc := false, busy := true } := rfl
@[simp] theorem accept_errAddr (op : Instr) (s : State) : (accept op s).errAddr = 0 := rfl
@[simp] theorem accept_ops (op : Instr) (s : State) : (accept op s).ops = s.ops := rfl
@[simp] theorem accept_outLen (op : Instr) (s : State) : (accept op s).outLen = 0 := rfl
@[simp] theorem accept_capBits (op : Instr) (s : State) : (accept op s).capBits = s.capBits := rfl
@[simp] theorem accept_engine (op : Instr) (s : State) :
    (accept op s).engine =
      Engine.atStart op := rfl
@[simp] theorem accept_mem (op : Instr) (s : State) : (accept op s).mem = s.mem := rfl
@[simp] theorem accept_plat (op : Instr) (s : State) : (accept op s).plat = s.plat := rfl
@[simp] theorem accept_raced (op : Instr) (s : State) : (accept op s).raced = [] := rfl
@[simp] theorem accept_draws (op : Instr) (s : State) : (accept op s).draws = s.draws := rfl
@[simp] theorem accept_free (op : Instr) (s : State) : (accept op s).free = s.free := rfl
@[simp] theorem accept_program (op : Instr) (s : State) : (accept op s).program = s.program := rfl
@[simp] theorem accept_turns (op : Instr) (s : State) : (accept op s).turns = s.turns := rfl
@[simp] theorem accept_response (op : Instr) (s : State) :
    (accept op s).response =
      s.response := rfl

/-! ## finish: the completion step (R97) -/

@[simp] theorem finish_ctrl (code : ErrCode) (s : State) : (finish code s).ctrl = s.ctrl := rfl
@[simp] theorem finish_status (code : ErrCode) (s : State) :
    (finish code s).status =
      { s.status with errcode := code, err := decide (code ≠ .noError), done := true, busy := false } := rfl
@[simp] theorem finish_errAddr (code : ErrCode) (s : State) :
    (finish code s).errAddr =
      s.errAddr := rfl
@[simp] theorem finish_ops (code : ErrCode) (s : State) : (finish code s).ops = s.ops := rfl
@[simp] theorem finish_outLen (code : ErrCode) (s : State) :
    (finish code s).outLen =
      s.outLen := rfl
@[simp] theorem finish_capBits (code : ErrCode) (s : State) :
    (finish code s).capBits =
      s.capBits := rfl
@[simp] theorem finish_engine (code : ErrCode) (s : State) :
    (finish code s).engine =
      Config.idleEngine s.free := rfl
@[simp] theorem finish_mem (code : ErrCode) (s : State) : (finish code s).mem = s.mem := rfl
@[simp] theorem finish_plat (code : ErrCode) (s : State) : (finish code s).plat = s.plat := rfl
@[simp] theorem finish_raced (code : ErrCode) (s : State) : (finish code s).raced = [] := rfl
@[simp] theorem finish_draws (code : ErrCode) (s : State) : (finish code s).draws = s.draws := rfl
@[simp] theorem finish_free (code : ErrCode) (s : State) : (finish code s).free = s.free + 1 := rfl
@[simp] theorem finish_program (code : ErrCode) (s : State) :
    (finish code s).program =
      s.program := rfl
@[simp] theorem finish_turns (code : ErrCode) (s : State) : (finish code s).turns = s.turns := rfl
@[simp] theorem finish_response (code : ErrCode) (s : State) :
    (finish code s).response =
      s.response := rfl

/-! ## completeWith: a success that writes OUT_LEN (R35) -/

@[simp] theorem completeWith_ctrl (len : Nat) (s : State) :
    (completeWith len s).ctrl =
      s.ctrl := rfl
@[simp] theorem completeWith_status (len : Nat) (s : State) :
    (completeWith len s).status =
      { s.status with errcode := .noError, err := decide (ErrCode.noError ≠ .noError), done := true, busy := false } := rfl
@[simp] theorem completeWith_errAddr (len : Nat) (s : State) :
    (completeWith len s).errAddr =
      s.errAddr := rfl
@[simp] theorem completeWith_ops (len : Nat) (s : State) : (completeWith len s).ops = s.ops := rfl
@[simp] theorem completeWith_outLen (len : Nat) (s : State) :
    (completeWith len s).outLen =
      BitVec.ofNat 32 len := rfl
@[simp] theorem completeWith_capBits (len : Nat) (s : State) :
    (completeWith len s).capBits =
      s.capBits := rfl
@[simp] theorem completeWith_engine (len : Nat) (s : State) :
    (completeWith len s).engine =
      Config.idleEngine s.free := rfl
@[simp] theorem completeWith_mem (len : Nat) (s : State) : (completeWith len s).mem = s.mem := rfl
@[simp] theorem completeWith_plat (len : Nat) (s : State) :
    (completeWith len s).plat =
      s.plat := rfl
@[simp] theorem completeWith_raced (len : Nat) (s : State) : (completeWith len s).raced = [] := rfl
@[simp] theorem completeWith_draws (len : Nat) (s : State) :
    (completeWith len s).draws =
      s.draws := rfl
@[simp] theorem completeWith_free (len : Nat) (s : State) :
    (completeWith len s).free =
      s.free + 1 := rfl
@[simp] theorem completeWith_program (len : Nat) (s : State) :
    (completeWith len s).program =
      s.program := rfl
@[simp] theorem completeWith_turns (len : Nat) (s : State) :
    (completeWith len s).turns =
      s.turns := rfl
@[simp] theorem completeWith_response (len : Nat) (s : State) :
    (completeWith len s).response =
      s.response := rfl

/-! ## raiseBusError: BUS_ERROR (R186) -/

@[simp] theorem raiseBusError_ctrl (addr : Nat) (s : State) :
    (raiseBusError addr s).ctrl =
      s.ctrl := rfl
@[simp] theorem raiseBusError_status (addr : Nat) (s : State) :
    (raiseBusError addr s).status =
      { s.status with errcode := .busError, err := decide (ErrCode.busError ≠ .noError), done := true, busy := false } := rfl
@[simp] theorem raiseBusError_errAddr (addr : Nat) (s : State) :
    (raiseBusError addr s).errAddr =
      BitVec.ofNat 32 addr := rfl
@[simp] theorem raiseBusError_ops (addr : Nat) (s : State) :
    (raiseBusError addr s).ops =
      s.ops := rfl
@[simp] theorem raiseBusError_outLen (addr : Nat) (s : State) :
    (raiseBusError addr s).outLen =
      s.outLen := rfl
@[simp] theorem raiseBusError_capBits (addr : Nat) (s : State) :
    (raiseBusError addr s).capBits =
      s.capBits := rfl
@[simp] theorem raiseBusError_engine (addr : Nat) (s : State) :
    (raiseBusError addr s).engine =
      Config.idleEngine s.free := rfl
@[simp] theorem raiseBusError_mem (addr : Nat) (s : State) :
    (raiseBusError addr s).mem =
      s.mem := rfl
@[simp] theorem raiseBusError_plat (addr : Nat) (s : State) :
    (raiseBusError addr s).plat =
      s.plat := rfl
@[simp] theorem raiseBusError_raced (addr : Nat) (s : State) :
    (raiseBusError addr s).raced =
      [] := rfl
@[simp] theorem raiseBusError_draws (addr : Nat) (s : State) :
    (raiseBusError addr s).draws =
      s.draws := rfl
@[simp] theorem raiseBusError_free (addr : Nat) (s : State) :
    (raiseBusError addr s).free =
      s.free + 1 := rfl
@[simp] theorem raiseBusError_program (addr : Nat) (s : State) :
    (raiseBusError addr s).program =
      s.program := rfl
@[simp] theorem raiseBusError_turns (addr : Nat) (s : State) :
    (raiseBusError addr s).turns =
      s.turns := rfl
@[simp] theorem raiseBusError_response (addr : Nat) (s : State) :
    (raiseBusError addr s).response =
      s.response := rfl

/-! ## setOverrun: a write that BUSY makes ignored (R28) -/

@[simp] theorem setOverrun_ctrl (s : State) : (setOverrun s).ctrl = s.ctrl := rfl
@[simp] theorem setOverrun_status (s : State) :
    (setOverrun s).status =
      { s.status with overrun := true } := rfl
@[simp] theorem setOverrun_errAddr (s : State) : (setOverrun s).errAddr = s.errAddr := rfl
@[simp] theorem setOverrun_ops (s : State) : (setOverrun s).ops = s.ops := rfl
@[simp] theorem setOverrun_outLen (s : State) : (setOverrun s).outLen = s.outLen := rfl
@[simp] theorem setOverrun_capBits (s : State) : (setOverrun s).capBits = s.capBits := rfl
@[simp] theorem setOverrun_engine (s : State) : (setOverrun s).engine = s.engine := rfl
@[simp] theorem setOverrun_mem (s : State) : (setOverrun s).mem = s.mem := rfl
@[simp] theorem setOverrun_plat (s : State) : (setOverrun s).plat = s.plat := rfl
@[simp] theorem setOverrun_raced (s : State) : (setOverrun s).raced = s.raced := rfl
@[simp] theorem setOverrun_draws (s : State) : (setOverrun s).draws = s.draws := rfl
@[simp] theorem setOverrun_free (s : State) : (setOverrun s).free = s.free := rfl
@[simp] theorem setOverrun_program (s : State) : (setOverrun s).program = s.program := rfl
@[simp] theorem setOverrun_turns (s : State) : (setOverrun s).turns = s.turns := rfl
@[simp] theorem setOverrun_response (s : State) : (setOverrun s).response = s.response := rfl

/-! ## writeCapBits: CAP_BITS (R150) -/

@[simp] theorem writeCapBits_ctrl (s : State) : (writeCapBits s).ctrl = s.ctrl := rfl
@[simp] theorem writeCapBits_status (s : State) : (writeCapBits s).status = s.status := rfl
@[simp] theorem writeCapBits_errAddr (s : State) : (writeCapBits s).errAddr = s.errAddr := rfl
@[simp] theorem writeCapBits_ops (s : State) : (writeCapBits s).ops = s.ops := rfl
@[simp] theorem writeCapBits_outLen (s : State) : (writeCapBits s).outLen = s.outLen := rfl
@[simp] theorem writeCapBits_capBits (s : State) :
    (writeCapBits s).capBits =
      sat32 s.ops.capacity := rfl
@[simp] theorem writeCapBits_engine (s : State) : (writeCapBits s).engine = s.engine := rfl
@[simp] theorem writeCapBits_mem (s : State) : (writeCapBits s).mem = s.mem := rfl
@[simp] theorem writeCapBits_plat (s : State) : (writeCapBits s).plat = s.plat := rfl
@[simp] theorem writeCapBits_raced (s : State) : (writeCapBits s).raced = s.raced := rfl
@[simp] theorem writeCapBits_draws (s : State) : (writeCapBits s).draws = s.draws := rfl
@[simp] theorem writeCapBits_free (s : State) : (writeCapBits s).free = s.free := rfl
@[simp] theorem writeCapBits_program (s : State) : (writeCapBits s).program = s.program := rfl
@[simp] theorem writeCapBits_turns (s : State) : (writeCapBits s).turns = s.turns := rfl
@[simp] theorem writeCapBits_response (s : State) : (writeCapBits s).response = s.response := rfl

/-! ## writeFits: FITS (R150) -/

@[simp] theorem writeFits_ctrl (s : State) : (writeFits s).ctrl = s.ctrl := rfl
@[simp] theorem writeFits_status (s : State) :
    (writeFits s).status =
      { s.status with fits := frameFits s.ops.inLen.toNat s.ops.capacity } := rfl
@[simp] theorem writeFits_errAddr (s : State) : (writeFits s).errAddr = s.errAddr := rfl
@[simp] theorem writeFits_ops (s : State) : (writeFits s).ops = s.ops := rfl
@[simp] theorem writeFits_outLen (s : State) : (writeFits s).outLen = s.outLen := rfl
@[simp] theorem writeFits_capBits (s : State) : (writeFits s).capBits = s.capBits := rfl
@[simp] theorem writeFits_engine (s : State) : (writeFits s).engine = s.engine := rfl
@[simp] theorem writeFits_mem (s : State) : (writeFits s).mem = s.mem := rfl
@[simp] theorem writeFits_plat (s : State) : (writeFits s).plat = s.plat := rfl
@[simp] theorem writeFits_raced (s : State) : (writeFits s).raced = s.raced := rfl
@[simp] theorem writeFits_draws (s : State) : (writeFits s).draws = s.draws := rfl
@[simp] theorem writeFits_free (s : State) : (writeFits s).free = s.free := rfl
@[simp] theorem writeFits_program (s : State) : (writeFits s).program = s.program := rfl
@[simp] theorem writeFits_turns (s : State) : (writeFits s).turns = s.turns := rfl
@[simp] theorem writeFits_response (s : State) : (writeFits s).response = s.response := rfl

/-! ## enterPhase: a change of phase (R36) -/

@[simp] theorem enterPhase_ctrl (ph : Phase) (s : State) : (enterPhase ph s).ctrl = s.ctrl := rfl
@[simp] theorem enterPhase_status (ph : Phase) (s : State) :
    (enterPhase ph s).status =
      s.status := rfl
@[simp] theorem enterPhase_errAddr (ph : Phase) (s : State) :
    (enterPhase ph s).errAddr =
      s.errAddr := rfl
@[simp] theorem enterPhase_ops (ph : Phase) (s : State) : (enterPhase ph s).ops = s.ops := rfl
@[simp] theorem enterPhase_outLen (ph : Phase) (s : State) :
    (enterPhase ph s).outLen =
      s.outLen := rfl
@[simp] theorem enterPhase_capBits (ph : Phase) (s : State) :
    (enterPhase ph s).capBits =
      s.capBits := rfl
@[simp] theorem enterPhase_engine (ph : Phase) (s : State) :
    (enterPhase ph s).engine =
      { s.engine with phase := ph, i := 0 } := rfl
@[simp] theorem enterPhase_mem (ph : Phase) (s : State) : (enterPhase ph s).mem = s.mem := rfl
@[simp] theorem enterPhase_plat (ph : Phase) (s : State) : (enterPhase ph s).plat = s.plat := rfl
@[simp] theorem enterPhase_raced (ph : Phase) (s : State) : (enterPhase ph s).raced = s.raced := rfl
@[simp] theorem enterPhase_draws (ph : Phase) (s : State) : (enterPhase ph s).draws = s.draws := rfl
@[simp] theorem enterPhase_free (ph : Phase) (s : State) : (enterPhase ph s).free = s.free := rfl
@[simp] theorem enterPhase_program (ph : Phase) (s : State) :
    (enterPhase ph s).program =
      s.program := rfl
@[simp] theorem enterPhase_turns (ph : Phase) (s : State) : (enterPhase ph s).turns = s.turns := rfl
@[simp] theorem enterPhase_response (ph : Phase) (s : State) :
    (enterPhase ph s).response =
      s.response := rfl

/-! ## resetBlock: reset (R43, R213) -/

@[simp] theorem resetBlock_ctrl (s : State) : (resetBlock s).ctrl = Ctrl.reset := rfl
@[simp] theorem resetBlock_status (s : State) : (resetBlock s).status = Status.reset := rfl
@[simp] theorem resetBlock_errAddr (s : State) : (resetBlock s).errAddr = 0 := rfl
@[simp] theorem resetBlock_ops (s : State) : (resetBlock s).ops = Operands.reset := rfl
@[simp] theorem resetBlock_outLen (s : State) : (resetBlock s).outLen = 0 := rfl
@[simp] theorem resetBlock_capBits (s : State) : (resetBlock s).capBits = 0 := rfl
@[simp] theorem resetBlock_engine (s : State) : (resetBlock s).engine = Engine.atStart .nop := rfl
@[simp] theorem resetBlock_mem (s : State) : (resetBlock s).mem = s.mem := rfl
@[simp] theorem resetBlock_plat (s : State) : (resetBlock s).plat = s.plat := rfl
@[simp] theorem resetBlock_raced (s : State) : (resetBlock s).raced = [] := rfl
@[simp] theorem resetBlock_draws (s : State) : (resetBlock s).draws = s.draws := rfl
@[simp] theorem resetBlock_free (s : State) : (resetBlock s).free = s.free := rfl
@[simp] theorem resetBlock_program (s : State) : (resetBlock s).program = s.program := rfl
@[simp] theorem resetBlock_turns (s : State) : (resetBlock s).turns = s.turns := rfl
@[simp] theorem resetBlock_response (s : State) : (resetBlock s).response = s.response := rfl

/-! ## writeTrunc: TRUNC (R29) -/

theorem writeTrunc_eq (s : State) :
    writeTrunc s =
      { s with
        status :=
          { s.status with
            trunc :=
              (decide (frameBitCount s.ops.inLen.toNat > s.ops.capacity) || s.status.trunc) } } := by
  by_cases h : s.ops.capacity < frameBitCount s.ops.inLen.toNat <;> simp [writeTrunc, h]

@[simp] theorem writeTrunc_ctrl (s : State) : (writeTrunc s).ctrl = s.ctrl := by rw [writeTrunc_eq]
@[simp] theorem writeTrunc_errAddr (s : State) : (writeTrunc s).errAddr = s.errAddr := by rw [writeTrunc_eq]
@[simp] theorem writeTrunc_ops (s : State) : (writeTrunc s).ops = s.ops := by rw [writeTrunc_eq]
@[simp] theorem writeTrunc_outLen (s : State) : (writeTrunc s).outLen = s.outLen := by rw [writeTrunc_eq]
@[simp] theorem writeTrunc_capBits (s : State) : (writeTrunc s).capBits = s.capBits := by rw [writeTrunc_eq]
@[simp] theorem writeTrunc_engine (s : State) : (writeTrunc s).engine = s.engine := by rw [writeTrunc_eq]
@[simp] theorem writeTrunc_mem (s : State) : (writeTrunc s).mem = s.mem := by rw [writeTrunc_eq]
@[simp] theorem writeTrunc_plat (s : State) : (writeTrunc s).plat = s.plat := by rw [writeTrunc_eq]
@[simp] theorem writeTrunc_raced (s : State) : (writeTrunc s).raced = s.raced := by rw [writeTrunc_eq]
@[simp] theorem writeTrunc_draws (s : State) : (writeTrunc s).draws = s.draws := by rw [writeTrunc_eq]
@[simp] theorem writeTrunc_free (s : State) : (writeTrunc s).free = s.free := by rw [writeTrunc_eq]
@[simp] theorem writeTrunc_program (s : State) : (writeTrunc s).program = s.program := by rw [writeTrunc_eq]
@[simp] theorem writeTrunc_turns (s : State) : (writeTrunc s).turns = s.turns := by rw [writeTrunc_eq]
@[simp] theorem writeTrunc_response (s : State) : (writeTrunc s).response = s.response := by rw [writeTrunc_eq]

@[simp] theorem writeTrunc_busy (s : State) : (writeTrunc s).status.busy = s.status.busy := by
  rw [writeTrunc_eq]

end Sys2Proof.Machine
end

