-- ==== Sys2Proof/Laws/Access.lean ====
section
/-! SUPPORT. What one engine access and a run of accesses can do, said once. -/

namespace Sys2Proof.Machine

theorem Region.contains_iff {r : Region} {a : Nat} :
    r.contains a = true ↔ r.base ≤ a ∧ a < r.base + r.size := by
  simp [Region.contains]

theorem Region.contains_eq_false_iff {r : Region} {a : Nat} :
    r.contains a = false ↔ a < r.base ∨ r.base + r.size ≤ a := by
  rw [← Bool.not_eq_true, Region.contains_iff]
  omega

theorem rangeOk_iff {base n : Nat} : rangeOk base n = true ↔ base + n ≤ 2 ^ 32 := by simp [rangeOk]

theorem Region.rangeOk_iff {r : Region} : r.rangeOk = true ↔ r.base + r.size ≤ 2 ^ 32 := by
  simp [Region.rangeOk, Machine.rangeOk]

/-- The address of a halt is the one accessed. -/
theorem accessHalt_some {p : Platform} {a : Nat} {d : Dir} {h : Halt} (he : accessHalt p a d = some h) :
    (h = .outside a ∧ Config.addressSpace ≤ a) ∨
    (h = .bus a ∧ a < Config.addressSpace ∧ busOk p a d = false) ∨
    (h = .device a ∧ a < Config.addressSpace ∧ busOk p a d = true ∧ isDevice p a = true) := by
  unfold accessHalt at he
  split at he
  · exact .inl ⟨by simpa using he.symm, ‹_›⟩
  · split at he
    · exact .inr (.inl ⟨by simpa using he.symm, by omega, by simp_all⟩)
    · split at he
      · exact .inr (.inr ⟨by simpa using he.symm, by omega, by simp_all, ‹_›⟩)
      · cases he

theorem accessHalt_none_iff {p : Platform} {a : Nat} {d : Dir} :
    accessHalt p a d = none ↔
      a < Config.addressSpace ∧ busOk p a d = true ∧ isDevice p a = false := by
  unfold accessHalt
  split
  · simp; omega
  · split
    · simp_all
    · split <;> simp_all

theorem readByte_ok_iff {s : State} {a : Nat} {b : Byte} :
    readByte s a = .ok b ↔ accessHalt s.plat a .read = none ∧ b = Memory.read s.mem a := by
  unfold readByte
  cases accessHalt s.plat a .read <;> simp [eq_comm]

theorem readByte_error_iff {s : State} {a : Nat} {h : Halt} :
    readByte s a = .error h ↔ accessHalt s.plat a .read = some h := by
  unfold readByte
  cases accessHalt s.plat a .read <;> simp

theorem writeByte_ok_iff {s t : State} {a : Nat} {v : Byte} :
    writeByte s a v = .ok t ↔
      accessHalt s.plat a .write = none ∧ t = { s with mem := Memory.write s.mem a v } := by
  unfold writeByte
  cases accessHalt s.plat a .write <;> simp [eq_comm]

theorem writeByte_error_iff {s : State} {a : Nat} {v : Byte} {h : Halt} :
    writeByte s a v = .error h ↔ accessHalt s.plat a .write = some h := by
  unfold writeByte
  cases accessHalt s.plat a .write <;> simp

/-- The first index below `n + 1` with a property is 0, or one more than the first of the rest. -/
theorem exists_first_succ {P Q : Nat → Prop} {n : Nat} :
    (∃ j, j < n + 1 ∧ P j ∧ ∀ i, i < j → Q i) ↔
      P 0 ∨ Q 0 ∧ ∃ j, j < n ∧ P (j + 1) ∧ ∀ i, i < j → Q (i + 1) := by
  constructor
  · rintro ⟨_ | j, hj, hP, hQ⟩
    · exact .inl hP
    · exact .inr ⟨hQ 0 j.succ_pos, j, Nat.lt_of_succ_lt_succ hj, hP, fun i hi => hQ _ (by omega)⟩
  · rintro (hP | ⟨hQ, j, hj, hP, hrest⟩)
    · exact ⟨0, n.succ_pos, hP, nofun⟩
    · exact ⟨j + 1, by omega, hP, fun i hi => by cases i <;> [exact hQ; exact hrest _ (by omega)]⟩

/-- A run of reads, one read taken off its front. -/
theorem readBytes_succ (s : State) (a n : Nat) :
    readBytes s a (n + 1) =
      match accessHalt s.plat a .read with
      | some e => .error e
      | none   => (readBytes s (a + 1) n).map (Memory.read s.mem a :: ·) := by
  simp only [readBytes, readByte]
  cases accessHalt s.plat a .read with
  | some e => rfl
  | none => cases readBytes s (a + 1) n <;> rfl

/-- A run of writes, one write taken off its front. -/
theorem writeBytes_cons (s : State) (a : Nat) (b : Byte) (bs : Bytes) :
    writeBytes s a (b :: bs) =
      match accessHalt s.plat a .write with
      | some e => .error (s, e)
      | none   => writeBytes { s with mem := Memory.write s.mem a b } (a + 1) bs := by
  simp only [writeBytes, writeByte]
  cases accessHalt s.plat a .write <;> rfl

theorem next_add (a j : Nat) : a + 1 + j = a + (j + 1) := by omega

/-- A run of reads that is performed gives the bytes of memory. -/
theorem readBytes_ok_iff {s : State} {a n : Nat} {bs : Bytes} :
    readBytes s a n = .ok bs ↔
      (∀ j, j < n → accessHalt s.plat (a + j) .read = none) ∧ bs = Memory.readAll s.mem a n := by
  induction n generalizing a bs with
  | zero => simp [readBytes, Memory.readAll, eq_comm]
  | succ n ih =>
    rw [readBytes_succ, Nat.forall_lt_succ_left, Memory.readAll_succ]
    have rest := fun bs => @ih (a + 1) bs
    simp only [next_add] at rest
    cases hh : accessHalt s.plat a .read with
    | some e => simp
    | none =>
      cases hr : readBytes s (a + 1) n with
      | error e => simp_all [Except.map]
      | ok bs' =>
        obtain ⟨performed, rfl⟩ := (rest bs').mp hr
        simp only [Except.map, Except.ok.injEq]
        exact ⟨fun he => ⟨⟨trivial, performed⟩, he.symm⟩, fun he => he.2.symm⟩

/-- A run of reads stops at the first access that is not performed. -/
theorem readBytes_error_iff {s : State} {a n : Nat} {h : Halt} :
    readBytes s a n = .error h ↔
      ∃ j, j < n ∧ accessHalt s.plat (a + j) .read = some h ∧
        ∀ i, i < j → accessHalt s.plat (a + i) .read = none := by
  induction n generalizing a with
  | zero => simp [readBytes]
  | succ n ih =>
    rw [readBytes_succ, exists_first_succ]
    have rest := @ih (a + 1)
    simp only [next_add] at rest
    rw [← rest]
    cases hh : accessHalt s.plat a .read with
    | some e => simp [hh]
    | none => cases readBytes s (a + 1) n <;> simp [hh, Except.map]

/-- A run of writes that is performed writes every byte. -/
theorem writeBytes_ok_iff {s t : State} {a : Nat} {bs : Bytes} :
    writeBytes s a bs = .ok t ↔
      (∀ j, j < bs.length → accessHalt s.plat (a + j) .write = none) ∧
        t = { s with mem := Memory.writeAll s.mem a bs } := by
  induction bs generalizing s a with
  | nil => simp [writeBytes, Memory.writeAll, eq_comm]
  | cons b bs ih =>
    rw [writeBytes_cons, List.length_cons, Nat.forall_lt_succ_left, Memory.writeAll]
    cases hh : accessHalt s.plat a .write <;> simp [hh, ih, next_add]

/-- A run of writes stops at the first access that is not performed, and the bytes before it stay. -/
theorem writeBytes_error_iff {s t : State} {a : Nat} {bs : Bytes} {h : Halt} :
    writeBytes s a bs = .error (t, h) ↔
      ∃ j, j < bs.length ∧ accessHalt s.plat (a + j) .write = some h ∧
        (∀ i, i < j → accessHalt s.plat (a + i) .write = none) ∧
        t = { s with mem := Memory.writeAll s.mem a (bs.take j) } := by
  induction bs generalizing s a with
  | nil => simp [writeBytes]
  | cons b bs ih =>
    have reorder : ∀ j, (accessHalt s.plat (a + j) .write = some h ∧
        (∀ i, i < j → accessHalt s.plat (a + i) .write = none) ∧
        t = { s with mem := Memory.writeAll s.mem a ((b :: bs).take j) }) ↔
        ((accessHalt s.plat (a + j) .write = some h ∧
          t = { s with mem := Memory.writeAll s.mem a ((b :: bs).take j) }) ∧
          ∀ i, i < j → accessHalt s.plat (a + i) .write = none) := fun j => by tauto
    rw [writeBytes_cons, List.length_cons]
    simp only [reorder]
    rw [exists_first_succ]
    simp only [List.take_zero, List.take_succ_cons, Memory.writeAll, Nat.add_zero]
    cases hh : accessHalt s.plat a .write with
    | some e => simp [eq_comm, and_comm]
    | none =>
      simp only [ih, next_add, reduceCtorEq, false_and, false_or, true_and]
      constructor <;> rintro ⟨j, hj, h1, h2⟩
      · exact ⟨j, hj, ⟨h1, h2.2⟩, h2.1⟩
      · exact ⟨j, hj, h1.1, h2, h1.2⟩

/-- A run of writes keeps the canonical form, complete or not. -/
theorem writeBytes_wf {s : State} {a : Nat} {bs : Bytes} (hm : Memory.wf s.mem = true) :
    (∀ t, writeBytes s a bs = .ok t → Memory.wf t.mem = true) ∧
    (∀ t h, writeBytes s a bs = .error (t, h) → Memory.wf t.mem = true) := by
  induction bs generalizing s a with
  | nil =>
    simp only [writeBytes]
    exact ⟨fun t h => (by cases h; exact hm), fun t h he => (by cases he)⟩
  | cons b bs ih =>
    simp only [writeBytes]
    cases hb : writeByte s a b with
    | error e => exact ⟨fun t h => (by cases h), fun t h he => (by cases he; exact hm)⟩
    | ok u =>
      obtain ⟨hn, rfl⟩ := writeByte_ok_iff.mp hb
      exact ih (Memory.wf_write b hm (accessHalt_none_iff.mp hn).1)

/-- Everything a halt can do. -/
theorem halt_next {h : Halt} {s t : State} (he : halt h s = .next t) :
    ∃ a, h = .bus a ∧ t = raiseBusError a s := by
  cases h <;> simp [halt] at he
  exact ⟨_, rfl, he.symm⟩

/-- Everything the output writes of a command can do when they give a next state: all bytes written and
OUT_LEN set, or a bus error after a prefix. -/
theorem writeOutput_next {out : Bytes} {s t : State} (he : writeOutput out s = .next t) :
    ((∀ j, j < out.length → accessHalt s.plat (s.ops.outBase.toNat + j) .write = none) ∧
      t = completeWith out.length
        { s with mem := Memory.writeAll s.mem s.ops.outBase.toNat out }) ∨
    (∃ j, j < out.length ∧
      accessHalt s.plat (s.ops.outBase.toNat + j) .write = some (.bus (s.ops.outBase.toNat + j)) ∧
      t = raiseBusError (s.ops.outBase.toNat + j)
        { s with mem := Memory.writeAll s.mem s.ops.outBase.toNat (out.take j) }) := by
  unfold writeOutput at he
  split at he
  · rename_i s' h hw
    obtain ⟨j, hj, hs, -, rfl⟩ := writeBytes_error_iff.mp hw
    obtain ⟨a, rfl, rfl⟩ := halt_next he
    have ha : a = s.ops.outBase.toNat + j := by
      rcases accessHalt_some hs with ⟨h, -⟩ | ⟨h, -⟩ | ⟨h, -⟩ <;> simp_all
    subst ha
    exact .inr ⟨j, hj, hs, rfl⟩
  · rename_i s' hw
    obtain ⟨h1, rfl⟩ := writeBytes_ok_iff.mp hw
    simp only [Host.Outcome.next.injEq] at he
    exact .inl ⟨h1, he.symm⟩

/-- The output writes all complete where every byte can be written. -/
theorem writeOutput_complete {out : Bytes} {s : State}
    (h : ∀ j, j < out.length → accessHalt s.plat (s.ops.outBase.toNat + j) .write = none) :
    writeOutput out s = .next (completeWith out.length
      { s with mem := Memory.writeAll s.mem s.ops.outBase.toNat out }) := by
  have : writeBytes s s.ops.outBase.toNat out =
      .ok { s with mem := Memory.writeAll s.mem s.ops.outBase.toNat out } :=
    writeBytes_ok_iff.mpr ⟨h, rfl⟩
  simp [writeOutput, this]

/-- The output writes of a command keep the canonical form. -/
theorem writeOutput_wf {out : Bytes} {s t : State} (hm : Memory.wf s.mem = true)
    (h : writeOutput out s = .next t) : Memory.wf t.mem = true := by
  unfold writeOutput at h
  split at h
  · rename_i s' e hw
    obtain ⟨a, rfl, rfl⟩ := halt_next h
    exact (writeBytes_wf hm).2 s' _ hw
  · rename_i s' hw
    simp only [Host.Outcome.next.injEq] at h
    subst h
    exact (writeBytes_wf hm).1 s' hw

end Sys2Proof.Machine
end

