-- ==== Sys2Proof/Laws/Exec.lean ====
section
/-! SUPPORT. How a command word is issued, said once for every command. -/

namespace Sys2Proof.Machine

theorem issue_idle {op : Instr} {body : State → Outcome} {s : State} (h : s.status.busy = false) :
    issue op body s = body (accept op s) := by simp [issue, h]

theorem issue_busy {op : Instr} {body : State → Outcome} {s : State} (h : s.status.busy = true) :
    issue op body s = .next (setOverrun s) := by simp [issue, h]

/-- `exec` is the meanings at the machine's own crypto port. -/
theorem exec_eq_execWith (i : Instr) (s : State) : exec i s = execWith Config.port i s := by
  cases i <;> rfl

/-- The parameter checks read the configuration only, so acceptance leaves them as they are. -/
@[simp] theorem parameterCheck_accept (op i : Instr) (s : State) :
    parameterCheck op (accept i s) = parameterCheck op s := by
  cases op <;> rfl

/-- The code that the pseudocode before the first access ends with is that of the parameter checks. -/
theorem opening_code (op : Instr) (s : State) : (opening op s).2 = parameterCheck op s := by
  cases op <;> simp only [opening, parameterCheck]
  split <;> simp_all

theorem sameConfiguration.refl (s : State) : sameConfiguration s s := ⟨rfl, rfl, rfl, rfl, rfl, rfl⟩

theorem sameConfiguration.trans {s t u : State} (h1 : sameConfiguration s t)
    (h2 : sameConfiguration t u) : sameConfiguration s u := by
  unfold sameConfiguration at h2 ⊢
  rw [h1.1, h1.2.1] at h2
  simpa only [h1.2.2] using h2

end Sys2Proof.Machine
end

