-- ==== Sys2Proof/Laws/Commands.lean ====
section
/-! SUPPORT. What each command's body can do when it gives a next state, said once (one inversion lemma a
body), and what a halted read does. -/

namespace Sys2Proof.Machine

/-- A run of reads that halts and still gives a next state met a bus error. -/
theorem readBytes_halt_next {s t : State} {a n : Nat} {h : Halt} (hr : readBytes s a n = .error h)
    (ht : halt h s = .next t) :
    ∃ j, j < n ∧ accessHalt s.plat (a + j) .read = some (.bus (a + j)) ∧
      (∀ i, i < j → accessHalt s.plat (a + i) .read = none) ∧ t = raiseBusError (a + j) s := by
  obtain ⟨j, hj, hs, hlt⟩ := readBytes_error_iff.mp hr
  obtain ⟨b, rfl, rfl⟩ := halt_next ht
  have hb : b = a + j := by
    rcases accessHalt_some hs with ⟨h, -⟩ | ⟨h, -⟩ | ⟨h, -⟩ <;> simp_all
  subst hb
  exact ⟨j, hj, hs, hlt, rfl⟩

theorem nopBody_next {s t : State} (h : nopBody s = .next t) : t = finish .noError s := by
  simpa [nopBody] using h.symm

theorem capacityBody_next {s t : State} (h : capacityBody s = .next t) :
    t = finish .noError (writeFits (writeCapBits s)) := by
  simpa [capacityBody] using h.symm

/-- DERIVE_KEY (R118): a parameter error, a bus error on a read, or the output writes. -/
theorem deriveKeyBody_next {port : CryptoPort} {s t : State} (h : deriveKeyBody port s = .next t) :
    (∃ e, checkDeriveKey s.ops = some e ∧ t = finish e s) ∨
    (checkDeriveKey s.ops = none ∧
      ((∃ j, j < s.ops.inLen.toNat ∧
          accessHalt s.plat (s.ops.inBase.toNat + j) .read = some (.bus (s.ops.inBase.toNat + j)) ∧
          t = raiseBusError (s.ops.inBase.toNat + j) s) ∨
        writeOutput (port.hash
          (Memory.readAll s.mem s.ops.inBase.toNat s.ops.inLen.toNat)).toList s = .next t)) := by
  unfold deriveKeyBody at h
  split at h
  · rename_i e he
    simp only [Host.Outcome.next.injEq] at h
    exact .inl ⟨e, he, h.symm⟩
  · rename_i hc
    refine .inr ⟨hc, ?_⟩
    split at h
    · rename_i hd hr
      obtain ⟨j, hj, hs, -, rfl⟩ := readBytes_halt_next hr h
      exact .inl ⟨j, hj, hs, rfl⟩
    · rename_i pw hr
      obtain ⟨-, rfl⟩ := readBytes_ok_iff.mp hr
      exact .inr h

/-- SEAL after its reads (R120): a failed draw, a failed or ill-sized seal, or the output writes. -/
theorem sealWith_next {port : CryptoPort} {key plain : Bytes} {s t : State}
    (h : sealWith port key plain s = .next t) :
    (t = finish .rngFail { s with draws := s.draws + 1 } ∧
      port.draw s.draws s.plat.nonceSize.val = .failure) ∨
    (t = finish .cipherFail { s with draws := s.draws + 1 }) ∨
    (∃ nonce sealed, port.draw s.draws s.plat.nonceSize.val = .bytes nonce ∧
      port.aeadSeal key nonce plain = .sealedBytes sealed ∧
      sealed.length = plain.length + Config.tagSize ∧
      writeOutput (nonce ++ sealed) { s with draws := s.draws + 1 } = .next t) := by
  unfold sealWith at h
  simp only at h
  split at h
  · rename_i hd
    simp only [Host.Outcome.next.injEq] at h
    exact .inl ⟨h.symm, hd⟩
  · rename_i nonce hd
    split at h
    · simp only [Host.Outcome.next.injEq] at h
      exact .inr (.inl h.symm)
    · rename_i sealed hs
      split at h
      · simp only [Host.Outcome.next.injEq] at h
        exact .inr (.inl h.symm)
      · rename_i hl
        exact .inr (.inr ⟨nonce, sealed, hd, hs, by simpa using hl, h⟩)

/-- SEAL (R120). -/
theorem sealBody_next {port : CryptoPort} {s t : State} (h : sealBody port s = .next t) :
    (∃ e, checkSeal s.plat s.ops = some e ∧ t = finish e s) ∨
    (checkSeal s.plat s.ops = none ∧
      ((∃ j, j < Config.keySize ∧
          accessHalt s.plat (s.ops.keyBase.toNat + j) .read =
            some (.bus (s.ops.keyBase.toNat + j)) ∧
          t = raiseBusError (s.ops.keyBase.toNat + j) s) ∨
        (∃ j, j < s.ops.inLen.toNat ∧
          accessHalt s.plat (s.ops.inBase.toNat + j) .read = some (.bus (s.ops.inBase.toNat + j)) ∧
          t = raiseBusError (s.ops.inBase.toNat + j) s) ∨
        sealWith port (Memory.readAll s.mem s.ops.keyBase.toNat Config.keySize)
          (Memory.readAll s.mem s.ops.inBase.toNat s.ops.inLen.toNat) s = .next t)) := by
  unfold sealBody at h
  split at h
  · rename_i e he
    simp only [Host.Outcome.next.injEq] at h
    exact .inl ⟨e, he, h.symm⟩
  · rename_i hc
    refine .inr ⟨hc, ?_⟩
    split at h
    · rename_i hd hr
      obtain ⟨j, hj, hs, -, rfl⟩ := readBytes_halt_next hr h
      exact .inl ⟨j, hj, hs, rfl⟩
    · rename_i key hr
      obtain ⟨-, rfl⟩ := readBytes_ok_iff.mp hr
      split at h
      · rename_i hd hr
        obtain ⟨j, hj, hs, -, rfl⟩ := readBytes_halt_next hr h
        exact .inr (.inl ⟨j, hj, hs, rfl⟩)
      · rename_i plain hr
        obtain ⟨-, rfl⟩ := readBytes_ok_iff.mp hr
        exact .inr (.inr h)

/-- OPEN after its reads (R122): a failed tag, an ill-sized answer, or the output writes. -/
theorem openWith_next {port : CryptoPort} {key cipher : Bytes} {s t : State}
    (h : openWith port key cipher s = .next t) :
    (t = finish .authFail s ∧
      port.aeadOpen key (cipher.take s.plat.nonceSize.val) (cipher.drop s.plat.nonceSize.val) =
        .authFailure) ∨
    (∃ p, port.aeadOpen key (cipher.take s.plat.nonceSize.val)
        (cipher.drop s.plat.nonceSize.val) = .plain p ∧
      ((p.length ≠ cipher.length - s.plat.nonceSize.val - Config.tagSize ∧
          t = finish .cipherFail s) ∨
        (p.length = cipher.length - s.plat.nonceSize.val - Config.tagSize ∧
          writeOutput p s = .next t))) := by
  unfold openWith at h
  simp only [List.length_drop] at h
  split at h
  · rename_i ha
    simp only [Host.Outcome.next.injEq] at h
    exact .inl ⟨h.symm, ha⟩
  · rename_i p hp
    refine .inr ⟨p, hp, ?_⟩
    split at h
    · simp only [Host.Outcome.next.injEq] at h
      exact .inl ⟨‹_›, h.symm⟩
    · rename_i hl
      exact .inr ⟨by simpa using hl, h⟩

/-- OPEN (R122). -/
theorem openBody_next {port : CryptoPort} {s t : State} (h : openBody port s = .next t) :
    (∃ e, checkOpen s.plat s.ops = some e ∧ t = finish e s) ∨
    (checkOpen s.plat s.ops = none ∧
      ((∃ j, j < Config.keySize ∧
          accessHalt s.plat (s.ops.keyBase.toNat + j) .read =
            some (.bus (s.ops.keyBase.toNat + j)) ∧
          t = raiseBusError (s.ops.keyBase.toNat + j) s) ∨
        (∃ j, j < s.ops.inLen.toNat ∧
          accessHalt s.plat (s.ops.inBase.toNat + j) .read = some (.bus (s.ops.inBase.toNat + j)) ∧
          t = raiseBusError (s.ops.inBase.toNat + j) s) ∨
        openWith port (Memory.readAll s.mem s.ops.keyBase.toNat Config.keySize)
          (Memory.readAll s.mem s.ops.inBase.toNat s.ops.inLen.toNat) s = .next t)) := by
  unfold openBody at h
  split at h
  · rename_i e he
    simp only [Host.Outcome.next.injEq] at h
    exact .inl ⟨e, he, h.symm⟩
  · rename_i hc
    refine .inr ⟨hc, ?_⟩
    split at h
    · rename_i hd hr
      obtain ⟨j, hj, hs, -, rfl⟩ := readBytes_halt_next hr h
      exact .inl ⟨j, hj, hs, rfl⟩
    · rename_i key hr
      obtain ⟨-, rfl⟩ := readBytes_ok_iff.mp hr
      split at h
      · rename_i hd hr
        obtain ⟨j, hj, hs, -, rfl⟩ := readBytes_halt_next hr h
        exact .inr (.inl ⟨j, hj, hs, rfl⟩)
      · rename_i plain hr
        obtain ⟨-, rfl⟩ := readBytes_ok_iff.mp hr
        exact .inr (.inr h)

/-- The slot reads of EXTRACT when they are all performed (R153): the LSBs of R, G and B of each pixel. -/
theorem readSlots_ok {s : State} {p n : Nat} {bits : Bits} (h : readSlots s p n = .ok bits) :
    (∀ q c, p ≤ q → q < p + n → c < 3 →
      accessHalt s.plat (s.ops.srcBase.toNat + 4 * q + c) .read = none) ∧
    bits = (List.range n).flatMap (fun q =>
      (Memory.readAll s.mem (s.ops.srcBase.toNat + 4 * (p + q)) 3).map lsbGet) := by
  induction n generalizing p bits with
  | zero =>
    simp only [readSlots, Except.ok.injEq] at h
    subst h
    exact ⟨fun q c h1 h2 => by omega, rfl⟩
  | succ n ih =>
    simp only [readSlots] at h
    split at h
    · cases h
    · rename_i rgb hr
      obtain ⟨ha, rfl⟩ := readBytes_ok_iff.mp hr
      split at h
      · cases h
      · rename_i rest hs
        obtain ⟨hb, rfl⟩ := ih hs
        simp only [Except.ok.injEq] at h
        subst h
        refine ⟨fun q c h1 h2 h3 => ?_, ?_⟩
        · by_cases hq : q = p
          · subst hq; exact ha c h3
          · exact hb q c (by omega) (by omega) h3
        · rw [List.range_succ_eq_map, List.flatMap_cons, List.flatMap_map]
          simp only [Nat.add_zero]
          congr 1
          apply List.flatMap_congr
          intro q _
          rw [show p + 1 + q = p + (q + 1) by omega]

/-- A slot read of EXTRACT that is not performed is one of a channel of the grid. -/
theorem readSlots_error {s : State} {p n : Nat} {h : Halt} (he : readSlots s p n = .error h) :
    ∃ q c, p ≤ q ∧ q < p + n ∧ c < 3 ∧
      accessHalt s.plat (s.ops.srcBase.toNat + 4 * q + c) .read = some h := by
  induction n generalizing p with
  | zero => simp [readSlots] at he
  | succ n ih =>
    simp only [readSlots] at he
    split at he
    · rename_i h' hr
      simp only [Except.error.injEq] at he
      subst he
      obtain ⟨j, hj, hs, -⟩ := readBytes_error_iff.mp hr
      exact ⟨p, j, by omega, by omega, hj, hs⟩
    · split at he
      · rename_i h' hr
        simp only [Except.error.injEq] at he
        subst he
        obtain ⟨q, c, h1, h2, h3, h4⟩ := ih hr
        exact ⟨q, c, by omega, by omega, h3, h4⟩
      · cases he

/-- The slot reads of EXTRACT are all performed where every slot can be read. -/
theorem readSlots_complete {s : State} {p n : Nat}
    (h : ∀ q c, p ≤ q → q < p + n → c < 3 →
      accessHalt s.plat (s.ops.srcBase.toNat + 4 * q + c) .read = none) :
    ∃ bits, readSlots s p n = .ok bits := by
  cases hr : readSlots s p n with
  | ok bits => exact ⟨bits, rfl⟩
  | error e =>
    obtain ⟨q, c, h1, h2, h3, h4⟩ := readSlots_error hr
    rw [h q c h1 h2 h3] at h4
    cases h4

/-- EXTRACT after its reads (R153): FRAMING, OUT_OVERFLOW, or the output writes. -/
theorem extractFrom_next {bits : Bits} {s t : State} (h : extractFrom bits s = .next t) :
    (slicePayload (reassemble bits) = none ∧ t = finish .framing s) ∨
    (∃ payload, slicePayload (reassemble bits) = some payload ∧
      ((payload.length > s.ops.outCap.toNat ∧ t = finish .outOverflow s) ∨
        (payload.length ≤ s.ops.outCap.toNat ∧ writeOutput payload s = .next t))) := by
  unfold extractFrom at h
  split at h
  · rename_i hs
    simp only [Host.Outcome.next.injEq] at h
    exact .inl ⟨hs, h.symm⟩
  · rename_i payload hs
    refine .inr ⟨payload, hs, ?_⟩
    split at h
    · simp only [Host.Outcome.next.injEq] at h
      exact .inl ⟨‹_›, h.symm⟩
    · exact .inr ⟨by omega, h⟩

/-- EXTRACT (R153): a parameter error, a bus error on a slot read, or what follows the reads. -/
theorem extractBody_next {s t : State} (h : extractBody s = .next t) :
    (∃ e, checkExtract s.ops = some e ∧ t = finish e (writeCapBits s)) ∨
    (checkExtract s.ops = none ∧
      ((∃ q c, q < s.ops.npix ∧ c < 3 ∧
          accessHalt s.plat (s.ops.srcBase.toNat + 4 * q + c) .read =
            some (.bus (s.ops.srcBase.toNat + 4 * q + c)) ∧
          t = raiseBusError (s.ops.srcBase.toNat + 4 * q + c) (writeCapBits s)) ∨
        extractFrom ((List.range s.ops.npix).flatMap (fun q =>
          (Memory.readAll s.mem (s.ops.srcBase.toNat + 4 * q) 3).map lsbGet))
          (writeCapBits s) = .next t)) := by
  unfold extractBody at h
  simp only at h
  split at h
  · rename_i e he
    simp only [Host.Outcome.next.injEq] at h
    exact .inl ⟨e, he, h.symm⟩
  · rename_i hc
    refine .inr ⟨hc, ?_⟩
    split at h
    · rename_i hd hr
      obtain ⟨q, c, -, h2, h3, h4⟩ := readSlots_error hr
      obtain ⟨a, rfl, rfl⟩ := halt_next h
      have ha : a = s.ops.srcBase.toNat + 4 * q + c := by
        rcases accessHalt_some h4 with ⟨h, -⟩ | ⟨h, -⟩ | ⟨h, -⟩ <;> simp_all
      subst ha
      exact .inl ⟨q, c, by omega, h3, h4, rfl⟩
    · rename_i bits hr
      obtain ⟨-, rfl⟩ := readSlots_ok hr
      simp only [Nat.zero_add] at h
      exact .inr h

/-- EMBED (R152): a parameter error, or what the pixels do. -/
theorem embedBody_next {s t : State} (h : embedBody s = .next t) :
    (∃ e, checkEmbed s.ctrl s.ops = some e ∧ t = finish e (writeFits (writeCapBits s))) ∨
    (checkEmbed s.ctrl s.ops = none ∧
      ((∃ s' a, embedPixels (writeTrunc (writeFits (writeCapBits s))) 0 s.ops.npix 0 0 =
          .error (s', .bus a) ∧ t = raiseBusError a s') ∨
        (∃ s', embedPixels (writeTrunc (writeFits (writeCapBits s))) 0 s.ops.npix 0 0 = .ok s' ∧
          t = finish .noError s'))) := by
  unfold embedBody at h
  simp only at h
  split at h
  · rename_i e he
    simp only [Host.Outcome.next.injEq] at h
    exact .inl ⟨e, he, h.symm⟩
  · rename_i hc
    refine .inr ⟨hc, ?_⟩
    split at h
    · rename_i s' hd hr
      obtain ⟨a, rfl, rfl⟩ := halt_next h
      exact .inl ⟨s', a, hr, rfl⟩
    · rename_i s' hr
      simp only [Host.Outcome.next.injEq] at h
      exact .inr ⟨s', hr, h.symm⟩

/-- The machine's crypto port meets the law of R114, whatever its opaque parts are. -/
theorem Config.port_lawful (n : Nat) : Config.port.OpenInvertsSeal n := by
  intro key nonce plain b _ _ h
  simp only [Config.port, Config.aeadSeal] at h
  cases hp : Config.sealProposal key nonce plain <;> rw [hp] at h <;> simp only [lawfulSeal] at h
  · split at h
    · cases h; assumption
    · cases h
  · cases h

/-- An answer that meets the law is left as it is: every lawful AEAD_SEAL is a `lawfulSeal`. -/
theorem lawfulSeal_eq_self {opened : Bytes → OpenAnswer} {plain : Bytes} {answer : SealAnswer}
    (h : ∀ b, answer = .sealedBytes b → opened b = .plain plain) :
    lawfulSeal opened plain answer = answer := by
  cases answer with
  | sealedBytes b => simp [lawfulSeal, h b rfl]
  | cipherFailure => rfl

end Sys2Proof.Machine
end

