-- ==== Sys2Proof/Laws/Codec.lean ====
section
/-! SUPPORT. The bits of a frame, and everything the pixels of EMBED can do, said once. -/

namespace Sys2Proof.Machine

theorem length_expand (b : Byte) : (expand b).length = 8 := rfl

theorem length_expandBytes (bs : Bytes) : (expandBytes bs).length = 8 * bs.length := by
  induction bs with
  | nil => rfl
  | cons b bs ih => simp only [expandBytes, List.flatMap_cons] at *; simp [length_expand, ih]; omega

/-- Bit `t` of a byte's expansion (R140). -/
theorem getElem?_expand (b : Byte) {t : Nat} (h : t < 8) : (expand b)[t]? = some (b.getLsbD (7 - t)) := by
  rcases t with _ | _ | _ | _ | _ | _ | _ | _ | t <;> first | rfl | omega

/-- Bit `t` of the expansion of a byte sequence (R141). -/
theorem getElem?_expandBytes (bs : Bytes) {t : Nat} (h : t < 8 * bs.length) :
    (expandBytes bs)[t]? = some ((bs.getD (t / 8) 0).getLsbD (7 - t % 8)) := by
  induction bs generalizing t with
  | nil => simp at h
  | cons b bs ih =>
    simp only [expandBytes, List.flatMap_cons]
    by_cases ht : t < 8
    · rw [List.getElem?_append_left (by simpa [length_expand] using ht), getElem?_expand b ht]
      rw [show t / 8 = 0 by omega, show t % 8 = t by omega]
      rfl
    · rw [List.getElem?_append_right (by simp [length_expand]; omega), length_expand]
      have := ih (t := t - 8) (by simp at h; omega)
      rw [expandBytes] at this
      rw [this, show t / 8 = (t - 8) / 8 + 1 by omega, show (t - 8) % 8 = t % 8 by omega]
      rfl

theorem length_frameBytes (c : Bytes) : (frameBytes c).length = 4 + c.length := by
  simp [frameBytes, le32]; omega

theorem length_frame (c : Bytes) : (frame c).length = frameBitCount c.length := by
  simp [frame, length_expandBytes, length_frameBytes, frameBitCount]; omega

/-- Frame bit `k` is bit 7 - k mod 8 of frame byte k div 8 (R141, R143). -/
theorem frame_getD (c : Bytes) {k : Nat} (h : k < frameBitCount c.length) :
    (frame c).getD k false = frameBitOf ((frameBytes c).getD (k / 8) 0) k := by
  have : k < 8 * (frameBytes c).length := by simp [frameBitCount, length_frameBytes] at *; omega
  rw [List.getD_eq_getElem?_getD, frame, getElem?_expandBytes _ this]
  rfl

/-- The byte at offset `b` of the destination grid after EMBED (R152): the source byte, with a frame bit in
bit 0 where the byte is a slot and frame bits remain. -/
def embeddedByte (s : State) (b : Nat) : Byte :=
  let v := Memory.read s.mem (s.ops.srcBase.toNat + b)
  let j := 3 * (b / 4) + b % 4
  if b % 4 < 3 ∧ j < frameBitCount s.ops.inLen.toNat then
    lsbPut v ((frame (Memory.readAll s.mem s.ops.inBase.toNat s.ops.inLen.toNat)).getD j false)
  else v

/-- `m` is the memory of `s` with the bytes `lo` to `hi - 1` of the destination grid embedded. -/
def embeddedBetween (s : State) (m : List Host.Cell) (lo hi : Nat) : Prop :=
  (∀ a, a < s.ops.dstBase.toNat + lo ∨ s.ops.dstBase.toNat + hi ≤ a →
    Memory.read m a = Memory.read s.mem a) ∧
  ∀ b, lo ≤ b → b < hi → Memory.read m (s.ops.dstBase.toNat + b) = embeddedByte s b

/-- The destination grid of `s` meets neither its source grid nor its payload. -/
def destinationApart (s : State) : Prop :=
  ∀ b, b < s.ops.gridBytes →
    (∀ c, c < s.ops.gridBytes → s.ops.dstBase.toNat + b ≠ s.ops.srcBase.toNat + c) ∧
    (∀ c, c < s.ops.inLen.toNat → s.ops.dstBase.toNat + b ≠ s.ops.inBase.toNat + c)

/-- A region check passed gives disjoint bytes. -/
theorem overlaps_false {a n b m : Nat} (h : overlaps a n b m = false) :
    ∀ i j, i < n → j < m → a + i ≠ b + j := by
  simp only [overlaps, Bool.and_eq_false_iff, decide_eq_false_iff_not] at h
  intro i j hi hj he
  omega

theorem destinationApart_of_check {ct : Ctrl} {s : State} (h : checkEmbed ct s.ops = none) :
    destinationApart s := by
  unfold checkEmbed at h
  split at h
  · cases h
  · split at h
    · cases h
    · rename_i hov
      simp only [Bool.or_eq_true, not_or, Bool.not_eq_true] at hov
      intro b hb
      exact ⟨fun c hc => overlaps_false hov.1 b c hb hc, fun c hc => overlaps_false hov.2 b c hb hc⟩

/-- EMBED's frame cursor at slot `3p + c`: the bits used so far, and the latch of the byte in use. -/
def cursorAt (s : State) (j k : Nat) (cur : Byte) : Prop :=
  k = min j (frameBitCount s.ops.inLen.toNat) ∧
  (k % 8 ≠ 0 → cur = (frameBytes (Memory.readAll s.mem s.ops.inBase.toNat s.ops.inLen.toNat)).getD (k / 8) 0)

theorem frameByte_cases (s : State) {n : Nat} (hn : n < 4 + s.ops.inLen.toNat) :
    (frameByte s n = .ok ((frameBytes (Memory.readAll s.mem s.ops.inBase.toNat s.ops.inLen.toNat)).getD n 0) ∧
      (4 ≤ n → accessHalt s.plat (s.ops.inBase.toNat + (n - 4)) .read = none)) ∨
    (4 ≤ n ∧ ∃ h, frameByte s n = .error h ∧ accessHalt s.plat (s.ops.inBase.toNat + (n - 4)) .read = some h) := by
  unfold frameByte frameBytes
  by_cases h : n < 4
  · left
    refine ⟨?_, fun h' => by omega⟩
    simp only [h, if_true]
    rw [List.getD_append _ _ _ _ (by simpa [le32] using h)]
    simp
  · simp only [h, if_false]
    rw [List.getD_append_right _ _ _ _ (by simp [le32]; omega)]
    have h4 : (le32 (Memory.readAll s.mem s.ops.inBase.toNat s.ops.inLen.toNat).length).length = 4 := rfl
    rw [h4, Memory.getD_readAll _ _ _ _ _ (by omega)]
    cases ha : accessHalt s.plat (s.ops.inBase.toNat + (n - 4)) .read with
    | none => left; exact ⟨readByte_ok_iff.mpr ⟨ha, rfl⟩, fun _ => rfl⟩
    | some e => right; exact ⟨by omega, e, readByte_error_iff.mpr ha, rfl⟩

/-- One channel of EMBED, at slot `j` whose source byte is `v`: the embedded byte and the next cursor, or a
halted read of the payload byte that the slot is the first to need. -/
theorem embedChannel_spec {s : State} {c j k : Nat} {cur : Byte} {q : Bytes}
    (hc : c < q.length) (hk : cursorAt s j k cur) :
    (∃ w, embedChannel s c { k := k, cur := cur, q := q } = .ok w ∧ cursorAt s (j + 1) w.k w.cur ∧
      w.q = q.set c (if j < frameBitCount s.ops.inLen.toNat then
        lsbPut (q.getD c 0) ((frame (Memory.readAll s.mem s.ops.inBase.toNat s.ops.inLen.toNat)).getD j false)
        else q.getD c 0)) ∨
    (∃ m h, m < s.ops.inLen.toNat ∧ j = 32 + 8 * m ∧ embedChannel s c { k := k, cur := cur, q := q } = .error h ∧
      accessHalt s.plat (s.ops.inBase.toNat + m) .read = some h) := by
  obtain ⟨rfl, hcur⟩ := hk
  set N := frameBitCount s.ops.inLen.toNat with hN
  set P := Memory.readAll s.mem s.ops.inBase.toNat s.ops.inLen.toNat with hP
  have hPl : P.length = s.ops.inLen.toNat := by simp [hP]
  by_cases hj : j < N
  · have hmin : min j N = j := by omega
    rw [hmin] at hcur ⊢
    have hb : j / 8 < 4 + s.ops.inLen.toNat := by simp only [hN, frameBitCount] at hj; omega
    have fin : ∀ b, b = (frameBytes P).getD (j / 8) 0 →
        ∃ w : PixelWork, (Except.ok { k := j + 1, cur := b, q := q.set c (lsbPut (q.getD c 0) (frameBitOf b j)) } : Except Halt PixelWork) = .ok w ∧
          cursorAt s (j + 1) w.k w.cur ∧ w.q = q.set c (lsbPut (q.getD c 0) ((frame P).getD j false)) := by
      rintro b rfl
      refine ⟨_, rfl, ⟨by simp only []; omega, fun h8 => ?_⟩, ?_⟩
      · simp only [] at *
        rw [show (j + 1) / 8 = j / 8 by omega]
      · rw [frame_getD P (by rw [hPl]; exact hj)]
    by_cases h8 : j % 8 = 0
    · rcases frameByte_cases s hb with ⟨hf, -⟩ | ⟨h4, e, hf, he⟩
      · left
        simp only [embedChannel, ← hN, hj, if_true, h8, hf]
        exact fin _ rfl
      · right
        refine ⟨j / 8 - 4, e, by omega, by omega, ?_, he⟩
        simp only [embedChannel, ← hN, hj, if_true, h8, hf]
    · left
      simp only [embedChannel, ← hN, hj, if_true, h8, if_false]
      exact fin _ (hcur h8)
  · left
    have hmin : min j N = N := by omega
    rw [hmin] at hcur ⊢
    refine ⟨⟨N, cur, q⟩, by simp [embedChannel, ← hN], ⟨by simp only []; omega, hcur⟩, ?_⟩
    rw [if_neg hj]
    apply List.ext_getElem?
    intro i
    rw [List.getElem?_set]
    split
    · subst_vars; simp [hc, List.getD_eq_getElem?_getD]
    · rfl


/-- The three channels of pixel `p`: the embedded bytes of the pixel and the next cursor, or a halted read of
a payload byte. -/
theorem embedChannels_spec {s : State} {p k : Nat} {cur : Byte} (hk : cursorAt s (3 * p) k cur) :
    (∃ w, embedChannels s [0, 1, 2]
        { k := k, cur := cur, q := Memory.readAll s.mem (s.ops.srcBase.toNat + 4 * p) 4 } = .ok w ∧
      cursorAt s (3 * (p + 1)) w.k w.cur ∧
      w.q = (List.range 4).map (fun i => embeddedByte s (4 * p + i))) ∨
    (∃ m h, m < s.ops.inLen.toNat ∧ (32 + 8 * m) / 3 = p ∧
      embedChannels s [0, 1, 2]
        { k := k, cur := cur, q := Memory.readAll s.mem (s.ops.srcBase.toNat + 4 * p) 4 } = .error h ∧
      accessHalt s.plat (s.ops.inBase.toNat + m) .read = some h) := by
  set q0 := Memory.readAll s.mem (s.ops.srcBase.toNat + 4 * p) 4 with hq0
  have hl : q0.length = 4 := by simp [q0]
  rcases embedChannel_spec (c := 0) (q := q0) (by omega) hk with ⟨w0, h0, k0, q0'⟩ | ⟨m, h, hm, hj, he, ha⟩
  swap
  · exact .inr ⟨m, h, hm, by omega, by simp [embedChannels, he], ha⟩
  obtain ⟨k1, c1, q1⟩ := w0
  simp only at k0 q0'
  rcases embedChannel_spec (c := 1) (q := q1) (by simp [q0', hl]) k0 with ⟨w1, h1, k1', q1'⟩ | ⟨m, h, hm, hj, he, ha⟩
  swap
  · exact .inr ⟨m, h, hm, by omega, by simp [embedChannels, h0, he], ha⟩
  obtain ⟨k2, c2, q2⟩ := w1
  simp only at k1' q1'
  rcases embedChannel_spec (c := 2) (q := q2) (by simp [q1', q0', hl]) k1' with ⟨w2, h2, k2', q2'⟩ | ⟨m, h, hm, hj, he, ha⟩
  swap
  · exact .inr ⟨m, h, hm, by omega, by simp [embedChannels, h0, h1, he], ha⟩
  refine .inl ⟨w2, by simp [embedChannels, h0, h1, h2], by rwa [show 3 * (p + 1) = 3 * p + 1 + 1 + 1 by omega], ?_⟩
  have hq : q0 = [Memory.read s.mem (s.ops.srcBase.toNat + 4 * p), Memory.read s.mem (s.ops.srcBase.toNat + 4 * p + 1),
      Memory.read s.mem (s.ops.srcBase.toNat + 4 * p + 2), Memory.read s.mem (s.ops.srcBase.toNat + 4 * p + 3)] := rfl
  rw [q2', q1', q0', hq]
  have e : ∀ i, i < 3 → (4 * p + i) / 4 = p ∧ (4 * p + i) % 4 = i := by intro i hi; omega
  simp only [List.set_cons_zero, List.set_cons_succ, List.getD_cons_zero, List.getD_cons_succ]
  have r4 : List.range 4 = [0, 1, 2, 3] := rfl
  simp only [r4, List.map_cons, List.map_nil, embeddedByte, (e 0 (by omega)).1, (e 0 (by omega)).2, (e 1 (by omega)).1,
    (e 1 (by omega)).2, (e 2 (by omega)).1, (e 2 (by omega)).2, show (4 * p + 3) % 4 = 3 by omega, ← Nat.add_assoc]
  simp

/-- Embedding looks at the source grid and the payload only. -/
theorem embeddedByte_congr {s t : State} {b : Nat} (ho : t.ops = s.ops)
    (hs : Memory.read t.mem (s.ops.srcBase.toNat + b) = Memory.read s.mem (s.ops.srcBase.toNat + b))
    (hp : ∀ c, c < s.ops.inLen.toNat →
      Memory.read t.mem (s.ops.inBase.toNat + c) = Memory.read s.mem (s.ops.inBase.toNat + c)) :
    embeddedByte t b = embeddedByte s b := by
  have : Memory.readAll t.mem s.ops.inBase.toNat s.ops.inLen.toNat =
      Memory.readAll s.mem s.ops.inBase.toNat s.ops.inLen.toNat := Memory.readAll_congr hp
  simp only [embeddedByte, ho, hs, this]

/-- What a halted access of EMBED says of its place: `n` bytes of the destination grid are written. -/
def embedHalts (s : State) (n : Nat) (h : Halt) : Prop :=
  accessHalt s.plat (s.ops.dstBase.toNat + n) .write = some h ∨
  (n % 4 = 0 ∧ ∃ i, i < 4 ∧ accessHalt s.plat (s.ops.srcBase.toNat + n + i) .read = some h) ∨
  (∃ m, m < s.ops.inLen.toNat ∧ n = 4 * ((32 + 8 * m) / 3) ∧
    accessHalt s.plat (s.ops.inBase.toNat + m) .read = some h)

/-- Everything the pixels of EMBED can do: embed them all, or embed a prefix up to a halted access. -/
theorem embedPixels_spec {s : State} {p n k : Nat} {cur : Byte} (hd : destinationApart s)
    (hn : p + n ≤ s.ops.npix) (hk : cursorAt s (3 * p) k cur) :
    (∃ m, embedPixels s p n k cur = .ok { s with mem := m } ∧
      embeddedBetween s m (4 * p) (4 * (p + n))) ∨
    (∃ m N h, embedPixels s p n k cur = .error ({ s with mem := m }, h) ∧ 4 * p ≤ N ∧ N < 4 * (p + n) ∧
      embeddedBetween s m (4 * p) N ∧ embedHalts s N h) := by
  induction n generalizing s p k cur with
  | zero => exact .inl ⟨s.mem, rfl, fun _ _ => rfl, fun b h1 h2 => by omega⟩
  | succ n ih =>
    cases hr : readBytes s (s.ops.srcBase.toNat + 4 * p) 4 with
    | error e =>
      obtain ⟨j, hj, hs, -⟩ := readBytes_error_iff.mp hr
      refine .inr ⟨s.mem, 4 * p, e, by simp [embedPixels, hr], le_rfl, by omega,
        ⟨fun _ _ => rfl, fun b h1 h2 => by omega⟩, .inr (.inl ⟨by omega, j, hj, hs⟩)⟩
    | ok q =>
      obtain ⟨-, rfl⟩ := readBytes_ok_iff.mp hr
      rcases embedChannels_spec hk with ⟨w, hw, hk', hq⟩ | ⟨m, e, hm, hp, he, ha⟩
      swap
      · exact .inr ⟨s.mem, 4 * p, e, by simp [embedPixels, hr, he], le_rfl, by omega,
          ⟨fun _ _ => rfl, fun b h1 h2 => by omega⟩, .inr (.inr ⟨m, hm, by omega, ha⟩)⟩
      have hql : w.q.length = 4 := by simp [hq]
      have hget : ∀ i, i < 4 → w.q.getD i 0 = embeddedByte s (4 * p + i) := by
        intro i hi
        rw [hq, List.getD_eq_getElem?_getD]
        simp [hi]
      cases hwr : writeBytes s (s.ops.dstBase.toNat + 4 * p) w.q with
      | error e =>
        obtain ⟨t, e⟩ := e
        obtain ⟨j, hj, hs, -, rfl⟩ := writeBytes_error_iff.mp hwr
        refine .inr ⟨Memory.writeAll s.mem (s.ops.dstBase.toNat + 4 * p) (w.q.take j), 4 * p + j, e,
          by simp [embedPixels, hr, hw, hwr], by omega, by omega, ⟨?_, ?_⟩,
          .inl (by rwa [← Nat.add_assoc])⟩
        · intro a ha
          apply Memory.read_writeAll_outside
          simp only [List.length_take]
          omega
        · intro b h1 h2
          rw [Memory.read_writeAll]
          rw [if_pos (by simp only [List.length_take]; omega)]
          rw [show s.ops.dstBase.toNat + b - (s.ops.dstBase.toNat + 4 * p) = b - 4 * p by omega]
          have := hget (b - 4 * p) (by omega)
          rw [show 4 * p + (b - 4 * p) = b by omega] at this
          rw [← this, List.getD_eq_getElem?_getD, List.getD_eq_getElem?_getD, List.getElem?_take_of_lt (by omega)]
      | ok t =>
        obtain ⟨-, rfl⟩ := writeBytes_ok_iff.mp hwr
        set m1 := Memory.writeAll s.mem (s.ops.dstBase.toNat + 4 * p) w.q with hm1
        have hout : ∀ a, a < s.ops.dstBase.toNat + 4 * p ∨ s.ops.dstBase.toNat + (4 * p + 4) ≤ a →
            Memory.read m1 a = Memory.read s.mem a := by
          intro a ha
          apply Memory.read_writeAll_outside
          omega
        have hin : ∀ b, 4 * p ≤ b → b < 4 * p + 4 →
            Memory.read m1 (s.ops.dstBase.toNat + b) = embeddedByte s b := by
          intro b h1 h2
          rw [hm1, Memory.read_writeAll, if_pos (by omega)]
          rw [show s.ops.dstBase.toNat + b - (s.ops.dstBase.toNat + 4 * p) = b - 4 * p by omega]
          have := hget (b - 4 * p) (by omega)
          rw [show 4 * p + (b - 4 * p) = b by omega] at this
          exact this
        have hG : 4 * p + 4 ≤ s.ops.gridBytes := by simp only [Operands.gridBytes]; omega
        have hsrc : ∀ c, c < s.ops.gridBytes →
            Memory.read m1 (s.ops.srcBase.toNat + c) = Memory.read s.mem (s.ops.srcBase.toNat + c) := by
          intro c hc
          by_cases h : s.ops.srcBase.toNat + c < s.ops.dstBase.toNat + 4 * p ∨
              s.ops.dstBase.toNat + (4 * p + 4) ≤ s.ops.srcBase.toNat + c
          · exact hout _ h
          · exfalso
            exact (hd (s.ops.srcBase.toNat + c - s.ops.dstBase.toNat) (by omega)).1 c hc (by omega)
        have hpay : ∀ c, c < s.ops.inLen.toNat →
            Memory.read m1 (s.ops.inBase.toNat + c) = Memory.read s.mem (s.ops.inBase.toNat + c) := by
          intro c hc
          by_cases h : s.ops.inBase.toNat + c < s.ops.dstBase.toNat + 4 * p ∨
              s.ops.dstBase.toNat + (4 * p + 4) ≤ s.ops.inBase.toNat + c
          · exact hout _ h
          · exfalso
            exact (hd (s.ops.inBase.toNat + c - s.ops.dstBase.toNat) (by omega)).2 c hc (by omega)
        have hreadAll : Memory.readAll m1 s.ops.inBase.toNat s.ops.inLen.toNat =
            Memory.readAll s.mem s.ops.inBase.toNat s.ops.inLen.toNat := Memory.readAll_congr hpay
        have hk1 : cursorAt { s with mem := m1 } (3 * (p + 1)) w.k w.cur := by
          simp only [cursorAt, hreadAll]; exact hk'
        have hcong : ∀ b, b < s.ops.gridBytes → embeddedByte { s with mem := m1 } b = embeddedByte s b :=
          fun b hb => embeddedByte_congr rfl (hsrc b hb) hpay
        have hstep : embedPixels s p (n + 1) k cur = embedPixels { s with mem := m1 } (p + 1) n w.k w.cur := by
          simp only [embedPixels, hr, hw, hwr]
        have join : ∀ m N, 4 * p + 4 ≤ N → N ≤ s.ops.gridBytes →
            embeddedBetween { s with mem := m1 } m (4 * (p + 1)) N → embeddedBetween s m (4 * p) N := by
          rintro m N h1 h2 ⟨ho, hi⟩
          simp only at ho hi
          refine ⟨fun a ha => ?_, fun b hb1 hb2 => ?_⟩
          · rw [ho a (by omega), hout a (by omega)]
          · by_cases hb : b < 4 * p + 4
            · rw [ho _ (by omega), hin b hb1 hb]
            · rw [hi b (by omega) hb2, hcong b (by omega)]
        have hn' : p + 1 + n ≤ s.ops.npix := by omega
        rcases ih (s := { s with mem := m1 }) hd hn' hk1 with ⟨m, hm, hb⟩ | ⟨m, N, h, hm, h1, h2, hb, hh⟩
        · refine .inl ⟨m, by rw [hstep, hm], ?_⟩
          rw [show 4 * (p + (n + 1)) = 4 * (p + 1 + n) by omega]
          exact join m _ (by omega) (by simp only [Operands.gridBytes]; omega) hb
        · refine .inr ⟨m, N, h, by rw [hstep, hm], by omega, by omega, ?_, hh⟩
          exact join m _ (by omega) (by simp only [Operands.gridBytes]; omega) hb

/-- The pixels of EMBED keep the canonical form, complete or not. -/
theorem embedPixels_wf {s : State} {p n k : Nat} {cur : Byte} (hm : Memory.wf s.mem = true) :
    (∀ t, embedPixels s p n k cur = .ok t → Memory.wf t.mem = true) ∧
    (∀ t h, embedPixels s p n k cur = .error (t, h) → Memory.wf t.mem = true) := by
  induction n generalizing s p k cur with
  | zero => exact ⟨fun t h => (by cases h; exact hm), fun t h he => (by cases he)⟩
  | succ n ih =>
    simp only [embedPixels]
    cases readBytes s (s.ops.srcBase.toNat + 4 * p) 4 with
    | error e => exact ⟨fun t h => (by cases h), fun t h he => (by cases he; exact hm)⟩
    | ok q =>
      simp only
      cases embedChannels s [0, 1, 2] { k := k, cur := cur, q := q } with
      | error e => exact ⟨fun t h => (by cases h), fun t h he => (by cases he; exact hm)⟩
      | ok w =>
        simp only
        cases hw : writeBytes s (s.ops.dstBase.toNat + 4 * p) w.q with
        | error e => exact ⟨fun t h => (by cases h), fun t h he => (by cases he; exact (writeBytes_wf hm).2 _ _ hw)⟩
        | ok u => exact ih ((writeBytes_wf hm).1 _ hw)

/-- The slot of a grid offset, and back. -/
theorem slotOffset_facts (j : Nat) :
    slotOffset j % 4 < 3 ∧ 3 * (slotOffset j / 4) + slotOffset j % 4 = j := by
  unfold slotOffset; omega

theorem slotOffset_lt {o : Operands} {j : Nat} (h : j < o.capacity) : slotOffset j < o.gridBytes := by
  simp only [Operands.capacity, Operands.gridBytes, slotOffset] at *; omega

/-- The embedded byte at slot `j`. -/
theorem embeddedByte_slot (s : State) (j : Nat) :
    embeddedByte s (slotOffset j) =
      if j < frameBitCount s.ops.inLen.toNat then
        lsbPut (Memory.read s.mem (s.ops.srcBase.toNat + slotOffset j))
          ((frame (Memory.readAll s.mem s.ops.inBase.toNat s.ops.inLen.toNat)).getD j false)
      else Memory.read s.mem (s.ops.srcBase.toNat + slotOffset j) := by
  obtain ⟨h1, h2⟩ := slotOffset_facts j
  simp only [embeddedByte, h1, h2, true_and]

/-- The embedded byte at an alpha offset is the source's. -/
theorem embeddedByte_alpha (s : State) (p : Nat) :
    embeddedByte s (4 * p + 3) = Memory.read s.mem (s.ops.srcBase.toNat + 4 * p + 3) := by
  simp only [embeddedByte, show (4 * p + 3) % 4 = 3 by omega, ← Nat.add_assoc]
  simp

/-- The state in which EMBED's pixels begin. -/
def embedStart (s : State) : State := writeTrunc (writeFits (writeCapBits (accept .embed s)))

theorem embedStart_eq (s : State) :
    embedStart s =
      { accept .embed s with
          capBits := sat32 s.ops.capacity,
          status := { (accept .embed s).status with
            fits := frameFits s.ops.inLen.toNat s.ops.capacity,
            trunc := decide (frameBitCount s.ops.inLen.toNat > s.ops.capacity) } } := by
  unfold embedStart writeTrunc
  split <;> rename_i h <;> simp only [writeFits_ops, writeCapBits_ops, accept_ops] at h <;>
    simp [h] <;>
    rfl

/-- Everything EMBED can do when it gives a next state: a parameter error, the whole grid embedded, or a
prefix of it up to a bus error. -/
theorem execEmbed_next {s t : State} (hb : s.status.busy = false) (he : exec .embed s = .next t) :
    (∃ e, checkEmbed s.ctrl s.ops = some e ∧
      t = finish e (writeFits (writeCapBits (accept .embed s)))) ∨
    (checkEmbed s.ctrl s.ops = none ∧ ∃ m,
      (embeddedBetween s m 0 s.ops.gridBytes ∧ t = finish .noError { embedStart s with mem := m }) ∨
      (∃ n a, n < s.ops.gridBytes ∧ embeddedBetween s m 0 n ∧ embedHalts s n (.bus a) ∧
        t = raiseBusError a { embedStart s with mem := m })) := by
  have h1 : embedBody (accept .embed s) = .next t := by
    simpa [exec, execEmbed, issue_idle hb] using he
  rcases embedBody_next h1 with ⟨e, hc, ht⟩ | ⟨hc, h⟩
  · exact .inl ⟨e, hc, ht⟩
  · refine .inr ⟨hc, ?_⟩
    have hc' : checkEmbed s.ctrl s.ops = none := hc
    have hops : (embedStart s).ops = s.ops := by rw [embedStart_eq]; rfl
    have hmem : (embedStart s).mem = s.mem := by rw [embedStart_eq]; rfl
    have hplat : (embedStart s).plat = s.plat := by rw [embedStart_eq]; rfl
    have hd : destinationApart (embedStart s) := by
      simpa only [destinationApart, hops] using destinationApart_of_check hc'
    have tr : ∀ m lo hi, embeddedBetween (embedStart s) m lo hi → embeddedBetween s m lo hi := by
      intro m lo hi h
      have : ∀ b, embeddedByte (embedStart s) b = embeddedByte s b := fun b =>
        embeddedByte_congr hops (by rw [hmem]) (fun c _ => by rw [hmem])
      simpa only [embeddedBetween, hops, hmem, this] using h
    change (∃ s' a, embedPixels (embedStart s) 0 s.ops.npix 0 0 = _ ∧ _) ∨
      (∃ s', embedPixels (embedStart s) 0 s.ops.npix 0 0 = _ ∧ _) at h
    rcases embedPixels_spec (s := embedStart s) (p := 0) (n := s.ops.npix) (k := 0) (cur := 0) hd
      (by rw [hops]; omega) ⟨by simp, by simp⟩ with ⟨m, hm, hemb⟩ | ⟨m, n, hh, hm, -, h2, hemb, hhh⟩
    · rw [hm] at h
      rcases h with ⟨s', a, h, -⟩ | ⟨s', h, ht⟩
      · cases h
      · simp only [Except.ok.injEq] at h
        exact ⟨m, .inl ⟨by simpa [Operands.gridBytes] using tr _ _ _ hemb, ht.trans (by rw [← h])⟩⟩
    · rw [hm] at h
      rcases h with ⟨s', a, h, ht⟩ | ⟨s', h, ht⟩
      · simp only [Except.error.injEq, Prod.mk.injEq] at h
        refine ⟨m, .inr ⟨n, a, by simpa [Operands.gridBytes] using h2, by simpa using tr _ _ _ hemb, ?_,
          ht.trans (by rw [← h.1])⟩⟩
        rw [← h.2]
        simpa only [embedHalts, hops, hplat] using hhh
      · cases h

end Sys2Proof.Machine
end

