-- ==== Sys2Proof/Laws/PerInstr.lean ====
section
/-! SUPPORT. Statements made for each command as syntax. Family Encoding: the word of a command has its
reserved bits 0 and its opcode in OP, and is a command word (R70, R72). -/

namespace Sys2Proof.Laws.Encoding

/-- The fields of a command's word (R70, R72). -/
def Statement (i : Instr) : Prop :=
  rsvField (encode i) = 0#28 ∧ opField (encode i) = i.opcode ∧ commandWordWf (encode i) = true

theorem nop : Statement .nop := by unfold Statement; decide
theorem deriveKey : Statement .deriveKey := by unfold Statement; decide
theorem sealPlain : Statement .sealPlain := by unfold Statement; decide
theorem openSealed : Statement .openSealed := by unfold Statement; decide
theorem capacity : Statement .capacity := by unfold Statement; decide
theorem embed : Statement .embed := by unfold Statement; decide
theorem extract : Statement .extract := by unfold Statement; decide

end Sys2Proof.Laws.Encoding
end

