-- ==== Sys2Proof/Laws/Sequencer.lean ====
section
/-! SUPPORT. What an engine step can do, said once: its pure computation touches the engine, CAP_BITS, FITS
and TRUNC only, and then one access, one transaction or the completion follows. -/

namespace Sys2Proof.Machine

/-- A state with the engine, CAP_BITS, FITS and TRUNC of another. -/
def State.planned (s t : State) : State :=
  { s with engine := t.engine, capBits := t.capBits,
           status := { s.status with fits := t.status.fits, trunc := t.status.trunc } }

theorem planOutput_planned (s : State) : (planOutput s).1 = s.planned (planOutput s).1 := by
  unfold planOutput; split <;> rfl

theorem planInput_planned (s : State) : (planInput s).1 = s.planned (planInput s).1 := by
  unfold planInput; split <;> rfl

theorem planKey_planned (s : State) : (planKey s).1 = s.planned (planKey s).1 := by
  unfold planKey
  split
  · rfl
  · exact planInput_planned (enterPhase .input s)

theorem planSource_planned (s : State) : (planSource s).1 = s.planned (planSource s).1 := by
  unfold planSource; split <;> rfl

theorem planChannels_planned (n : Nat) (s : State) :
    (planChannels n s).1 = s.planned (planChannels n s).1 := by
  induction n generalizing s with
  | zero => rfl
  | succ n ih =>
    unfold planChannels
    split
    · split
      · exact ih _
      · split
        · exact ih _
        · rfl
    · exact ih s

theorem planSlots_planned (s : State) : (planSlots s).1 = s.planned (planSlots s).1 := by
  unfold planSlots
  split
  · rfl
  · split
    · rfl
    · split
      · rfl
      · exact planOutput_planned _

theorem planFirst_planned (s : State) : (planFirst s).1 = s.planned (planFirst s).1 := by
  unfold planFirst
  split
  · rfl
  · exact planInput_planned (enterPhase .input s)
  · exact planKey_planned (enterPhase .key s)
  · exact planKey_planned (enterPhase .key s)
  · rfl
  · exact planSource_planned (enterPhase .source s)
  · exact planSlots_planned (enterPhase .slots s)

theorem opening_planned (op : Instr) (s : State) : (opening op s).1 = s.planned (opening op s).1 := by
  cases op <;> try rfl
  simp only [opening]
  split
  · rfl
  · unfold writeTrunc
    split <;> rfl

theorem planStart_planned (s : State) : (planStart s).1 = s.planned (planStart s).1 := by
  have h := opening_planned s.engine.curOp s
  unfold planStart
  split
  · rename_i s' e he
    rwa [he] at h
  · rename_i s' he
    rw [he] at h
    simp only at h
    have h' := planFirst_planned s'
    rw [h] at h' ⊢
    exact h'

/-- The pure computation of an engine step (R96). -/
theorem planStep_planned (s : State) : (planStep s).1 = s.planned (planStep s).1 := by
  unfold planStep
  split
  · exact planStart_planned s
  · exact planKey_planned s
  · exact planInput_planned s
  · rfl
  · rfl
  · rfl
  · rfl
  · exact planSource_planned s
  · exact planChannels_planned _ s
  · rfl
  · rfl
  · exact planSlots_planned s
  · exact planOutput_planned s
  · rfl

/-- Everything an engine read can do when it is performed. -/
theorem engineRead_ok {raced : Bool} {s t : State} {a : Nat} {b : Byte}
    (h : engineRead raced s a = .ok (b, t)) :
    accessHalt s.plat a .read = none ∧
    ((b = Memory.read s.mem a ∧ t = s) ∨
      (b = Config.freeByte s.free ∧ t = { s with free := s.free + 1 })) := by
  unfold engineRead at h
  split at h
  · cases h
  · rename_i hn
    refine ⟨hn, ?_⟩
    split at h <;> simp only [Except.ok.injEq, Prod.mk.injEq] at h
    · exact .inr ⟨h.1.symm, h.2.symm⟩
    · exact .inl ⟨h.1.symm, h.2.symm⟩

/-- Everything an engine write can do when it is performed: one byte of memory, its value or a free one. -/
theorem engineWrite_ok {s t : State} {a : Nat} {v : Byte}
    (h : engineWrite s a v = .ok t) :
    accessHalt s.plat a .write = none ∧
    (t = { s with mem := Memory.write s.mem a v } ∨
      t = { s with mem := Memory.write s.mem a (Config.freeByte s.free), free := s.free + 1 }) := by
  unfold engineWrite at h
  split at h
  · cases h
  · rename_i hn
    refine ⟨hn, ?_⟩
    split at h <;> simp only [Except.ok.injEq] at h
    · exact .inr h.symm
    · exact .inl h.symm

theorem engineRead_error {raced : Bool} {s : State} {a : Nat} {h : Halt}
    (he : engineRead raced s a = .error h) : accessHalt s.plat a .read = some h := by
  unfold engineRead at he
  split at he
  · simp_all
  · split at he <;> cases he

theorem engineWrite_error {s : State} {a : Nat} {v : Byte} {h : Halt}
    (he : engineWrite s a v = .error h) : accessHalt s.plat a .write = some h := by
  unfold engineWrite at he
  split at he
  · simp_all
  · split at he <;> cases he

/-- Everything a port transaction can change: the engine, and the number of draws. -/
theorem transact_planned (port : CryptoPort) (s : State) :
    transact port s = { s with engine := (transact port s).engine, draws := (transact port s).draws } := by
  unfold transact
  split <;> try rfl
  split <;> rfl

/-- Everything the action of an engine step can do when it gives a next state. -/
theorem performAction_next {port : CryptoPort} {raced : Bool} {s t : State} {act : Action}
    (h : performAction port raced s act = .next t) :
    (∃ a dir, accessHalt s.plat a dir = some (.bus a) ∧ t = raiseBusError a s ∧
      ((dir = .read ∧ act = .read a) ∨ (dir = .write ∧ ∃ v, act = .write a v))) ∨
    (∃ a b s', act = .read a ∧ engineRead raced s a = .ok (b, s') ∧
      t = { s' with engine := afterRead s'.ops b s'.engine }) ∨
    (∃ a v s', act = .write a v ∧ engineWrite s a v = .ok s' ∧
      t = { s' with engine := afterWrite s'.ops s'.engine }) ∨
    (act = .transact ∧ t = transact port s) ∨
    (∃ n, act = .complete n ∧ t = completeWith n s) ∨
    (act = .completePlain ∧ t = finish .noError s) ∨
    (∃ code, act = .raise code ∧ t = finish code s) := by
  have halted : ∀ {a : Nat} {dir : Dir} {e : Halt}, accessHalt s.plat a dir = some e →
      halt e s = .next t → e = .bus a ∧ t = raiseBusError a s := by
    intro a dir e ha hh
    obtain ⟨a', rfl, rfl⟩ := halt_next hh
    rcases accessHalt_some ha with ⟨h, -⟩ | ⟨h, -⟩ | ⟨h, -⟩
    · cases h
    · cases h; exact ⟨rfl, rfl⟩
    · cases h
  cases act with
  | read a =>
    simp only [performAction] at h
    split at h
    · rename_i e he
      have ha := engineRead_error he
      obtain ⟨rfl, ht⟩ := halted ha h
      exact .inl ⟨a, .read, ha, ht, .inl ⟨rfl, rfl⟩⟩
    · rename_i b s' he
      simp only [Host.Outcome.next.injEq] at h
      exact .inr (.inl ⟨a, b, s', rfl, he, h.symm⟩)
  | write a v =>
    simp only [performAction] at h
    split at h
    · rename_i e he
      have ha := engineWrite_error he
      obtain ⟨rfl, ht⟩ := halted ha h
      exact .inl ⟨a, .write, ha, ht, .inr ⟨rfl, v, rfl⟩⟩
    · rename_i s' he
      simp only [Host.Outcome.next.injEq] at h
      exact .inr (.inr (.inl ⟨a, v, s', rfl, he, h.symm⟩))
  | transact =>
    simp only [performAction, Host.Outcome.next.injEq] at h
    exact .inr (.inr (.inr (.inl ⟨rfl, h.symm⟩)))
  | complete n =>
    simp only [performAction, Host.Outcome.next.injEq] at h
    exact .inr (.inr (.inr (.inr (.inl ⟨n, rfl, h.symm⟩))))
  | completePlain =>
    simp only [performAction, Host.Outcome.next.injEq] at h
    exact .inr (.inr (.inr (.inr (.inr (.inl ⟨rfl, h.symm⟩)))))
  | raise code =>
    simp only [performAction, Host.Outcome.next.injEq] at h
    exact .inr (.inr (.inr (.inr (.inr (.inr ⟨code, rfl, h.symm⟩)))))

/-- An engine step is its pure computation and then its action. -/
theorem engineStep_busy {port : CryptoPort} {raced : Bool} {s : State} (h : s.status.busy = true) :
    engineStep port raced s = performAction port raced (planStep s).1 (planStep s).2 := by
  simp [engineStep, h]

theorem engineStep_idle {port : CryptoPort} {raced : Bool} {s : State} (h : s.status.busy = false) :
    engineStep port raced s = .next s := by
  simp [engineStep, h]

end Sys2Proof.Machine
end

