-- ==== Sys2Proof/Laws/Ready.lean ====
section
/-! SUPPORT. What a running engine is ready for: where its state agrees with its command, the next access is
one that the command's regions hold, and the state after it agrees again. -/

namespace Sys2Proof.Machine

/-- A read at `a` that the phase of the running command asks for, its cursors inside their ends. -/
def readReady (s : State) (a : Nat) : Prop :=
  parameterCheck s.engine.curOp s = none ∧
  match s.engine.phase with
  | .key => (s.engine.curOp = .sealPlain ∨ s.engine.curOp = .openSealed) ∧ s.engine.i < Config.keySize ∧
      s.engine.input = [] ∧ a = s.ops.keyBase.toNat + s.engine.i
  | .input => (s.engine.curOp = .deriveKey ∨ s.engine.curOp = .sealPlain ∨ s.engine.curOp = .openSealed) ∧
      s.engine.i < s.ops.inLen.toNat ∧ s.engine.input.length = s.engine.i ∧ a = s.ops.inBase.toNat + s.engine.i
  | .source => s.engine.curOp = .embed ∧ s.engine.i < 4 ∧ cursorInGrid s = true ∧ a = cursorPixel s.ops.srcBase s + s.engine.i
  | .payload => s.engine.curOp = .embed ∧ cursorInGrid s = true ∧ s.engine.k < frameBitCount s.ops.inLen.toNat ∧ 4 ≤ s.engine.k / 8 ∧
      a = s.ops.inBase.toNat + (s.engine.k / 8 - 4)
  | .slots => s.engine.curOp = .extract ∧ cursorInGrid s = true ∧ a = cursorPixel s.ops.srcBase s + s.engine.c.val
  | .start | .hash | .rng | .sealing | .unseal | .channel | .dest | .output | .failed _ => False

/-- A write at `a` that the phase of the running command asks for, its cursors inside their ends. -/
def writeReady (s : State) (a : Nat) : Prop :=
  parameterCheck s.engine.curOp s = none ∧
  match s.engine.phase with
  | .dest => s.engine.curOp = .embed ∧ cursorInGrid s = true ∧ s.engine.i < 4 ∧ a = cursorPixel s.ops.dstBase s + s.engine.i
  | .output => (s.engine.curOp = .deriveKey ∨ s.engine.curOp = .sealPlain ∨ s.engine.curOp = .openSealed ∨
        s.engine.curOp = .extract) ∧ s.engine.i < s.engine.output.length ∧ s.engine.output.length ≤ s.ops.outCap.toNat ∧
      (s.engine.curOp = .deriveKey → s.engine.output.length = Config.keySize) ∧ a = s.ops.outBase.toNat + s.engine.i
  | .start | .key | .input | .hash | .rng | .sealing | .unseal | .source | .channel | .payload | .slots | .failed _ => False

/-- A port transaction that the phase of the running command asks for. -/
def transactReady (s : State) : Prop :=
  parameterCheck s.engine.curOp s = none ∧
  match s.engine.phase with
  | .hash    => s.engine.curOp = .deriveKey ∧ s.engine.input.length = s.ops.inLen.toNat
  | .rng     => s.engine.curOp = .sealPlain ∧ s.engine.input.length = s.ops.inLen.toNat
  | .sealing =>
      s.engine.curOp = .sealPlain ∧ s.engine.input.length = s.ops.inLen.toNat ∧
      s.engine.nonce.length = s.plat.nonceSize.val
  | .unseal  => s.engine.curOp = .openSealed ∧ s.engine.input.length = s.ops.inLen.toNat
  | .start | .key | .input | .source | .channel | .payload | .dest | .slots | .output | .failed _ => False

/-- The action of an engine step is one that its planned state is ready for. -/
def actionReady (p : State × Action) : Prop :=
  match p.2 with
  | .read a => readReady p.1 a
  | .write a _ => writeReady p.1 a
  | .transact => transactReady p.1
  | .complete _ => True
  | .completePlain => True
  | .raise code => code ≠ .noError

theorem planOutput_ready {s : State} (hp : parameterCheck s.engine.curOp s = none) (hph : s.engine.phase = .output)
   (ha : phaseAgrees s) : actionReady (planOutput s) := by
  unfold phaseAgrees at ha; rw [hph] at ha; simp only at ha
  unfold planOutput
  split
  · rename_i b hb
    have : s.engine.i < s.engine.output.length := by
      by_contra h
      rw [List.getElem?_eq_none (by omega)] at hb; cases hb
    refine ⟨hp, ?_⟩
    simp only [hph]
    exact ⟨ha.1, this, ha.2.2.1, ha.2.2.2, trivial⟩
  · trivial

/-- The parameter checks read the operands, CTRL and the platform only. -/
theorem parameterCheck_eq {op : Instr} {s t : State} (h1 : t.ops = s.ops) (h2 : t.ctrl = s.ctrl) (h3 : t.plat = s.plat) :
   parameterCheck op t = parameterCheck op s := by
  cases op <;> simp only [parameterCheck, h1, h2, h3]

theorem planInput_ready {s : State} (hp : parameterCheck s.engine.curOp s = none)
   (h1 : s.engine.curOp = .deriveKey ∨ s.engine.curOp = .sealPlain ∨ s.engine.curOp = .openSealed)
   (hph : s.engine.phase = .input)
   (h2 : s.engine.i ≤ s.ops.inLen.toNat) (h3 : s.engine.input.length = s.engine.i) : actionReady (planInput s) := by
  unfold planInput
  split
  · rename_i hi
    refine ⟨hp, ?_⟩
    simp only [hph]
    exact ⟨h1, hi, h3, trivial⟩
  · refine ⟨(parameterCheck_eq rfl rfl rfl).trans hp, ?_⟩
    rcases h1 with h | h | h <;> simp only [enterPhase, h, transactionPhase] <;> exact ⟨trivial, by omega⟩

theorem planKey_ready {s : State} (hp : parameterCheck s.engine.curOp s = none)
   (h1 : s.engine.curOp = .sealPlain ∨ s.engine.curOp = .openSealed)
   (hph : s.engine.phase = .key)
   (h3 : s.engine.input = []) : actionReady (planKey s) := by
  unfold planKey
  split
  · rename_i hi
    refine ⟨hp, ?_⟩
    simp only [hph]
    exact ⟨h1, hi, h3, trivial⟩
  · exact planInput_ready (s := enterPhase .input s) hp (.inr h1) rfl (Nat.zero_le _) (by simp [enterPhase, h3])

theorem planSource_ready {s : State} (hp : parameterCheck s.engine.curOp s = none)
   (h1 : s.engine.curOp = .embed) (hph : s.engine.phase = .source) (hi : s.engine.i < 4) : actionReady (planSource s) := by
  unfold planSource
  split
  · rename_i hg
    refine ⟨hp, ?_⟩
    simp only [hph]
    exact ⟨h1, hi, hg, trivial⟩
  · trivial

theorem planChannels_ready {n : Nat} {s : State} (hp : parameterCheck s.engine.curOp s = none)
   (h1 : s.engine.curOp = .embed) (hg : cursorInGrid s = true) : actionReady (planChannels n s) := by
  induction n generalizing s with
  | zero =>
    refine ⟨hp, ?_⟩
    simp only [planChannels, planDest, enterPhase]
    exact ⟨h1, hg, by omega, trivial⟩
  | succ n ih =>
    unfold planChannels
    split
    · rename_i hk
      split
      · exact ih hp h1 hg
      · split
        · exact ih hp h1 hg
        · refine ⟨hp, ?_⟩
          simp only
          exact ⟨h1, hg, hk, by omega, trivial⟩
    · exact ih hp h1 hg

theorem planSlots_ready {s : State} (hp : parameterCheck s.engine.curOp s = none)
   (h1 : s.engine.curOp = .extract) (hph : s.engine.phase = .slots) : actionReady (planSlots s) := by
  unfold planSlots
  split
  · rename_i hg
    refine ⟨hp, ?_⟩
    simp only [hph]
    exact ⟨h1, hg, trivial⟩
  · split
    · simp [actionReady]
    · split
      · simp [actionReady]
      · refine planOutput_ready (s := { s with engine := _ }) hp rfl ?_
        simp only [phaseAgrees]
        exact ⟨.inr (.inr (.inr h1)), by omega, by omega, by simp [h1]⟩

/-- A passed opening leaves the engine and everything the checks read. -/
theorem opening_none {op : Instr} {s s' : State} (h : opening op s = (s', none)) : s'.engine = s.engine ∧ s'.ops = s.ops ∧ s'.plat = s.plat ∧ s'.ctrl = s.ctrl ∧ parameterCheck op s = none := by
  have h1 : s' = s.planned s' := by have := opening_planned op s; rwa [h] at this
  have h2 : none = parameterCheck op s := by have := opening_code op s; rwa [h] at this
  have he : s'.engine = s.engine := by
    have h3 : (opening op s).1 = s' := by rw [h]
    rw [← h3]
    cases op <;> try rfl
    simp only [opening]
    split
    · rfl
    · unfold writeTrunc; split <;> rfl
  exact ⟨he, by rw [h1]; rfl, by rw [h1]; rfl, by rw [h1]; rfl, h2.symm⟩

theorem parameterCheck_ne {op : Instr} {s : State} : parameterCheck op s ≠ some .noError := by
  cases op <;> simp only [parameterCheck, checkDeriveKey, checkSeal, checkOpen, checkEmbed, checkExtract] <;> repeat' split
  all_goals simp

theorem planStart_ready {s : State} (he : s.engine = Engine.atStart s.engine.curOp) : actionReady (planStart s) := by
  unfold planStart
  split
  · rename_i s' e ho
    have := opening_code s.engine.curOp s
    rw [ho] at this
    simp only [actionReady]
    rintro rfl
    exact parameterCheck_ne this.symm
  · rename_i s' ho
    obtain ⟨h1, h2, h3, h4, h5⟩ := opening_none ho
    have hp : parameterCheck s'.engine.curOp s' = none := by
      rw [parameterCheck_eq h2 h4 h3, h1]; exact h5
    have hin : s'.engine.input = [] := by rw [h1, he]; rfl
    unfold planFirst
    split
    · trivial
    · rename_i hop
      exact planInput_ready (s := enterPhase .input s') hp (.inl hop) rfl (Nat.zero_le _) (by simp [enterPhase, hin])
    · rename_i hop
      exact planKey_ready (s := enterPhase .key s') hp (.inl hop) rfl hin
    · rename_i hop
      exact planKey_ready (s := enterPhase .key s') hp (.inr hop) rfl hin
    · trivial
    · rename_i hop
      exact planSource_ready (s := enterPhase .source s') hp hop rfl (by simp [enterPhase])
    · rename_i hop
      exact planSlots_ready (s := enterPhase .slots s') hp hop rfl

/-- Where the engine agrees with its command, the plan of its next step is ready. -/
theorem planStep_ready {s : State} (hb : s.status.busy = true) (he : engineAgrees s) : actionReady (planStep s) := by
  obtain ⟨ha, hp⟩ := he hb
  have ha' := ha
  unfold phaseAgrees at ha'
  unfold planStep
  split <;> rename_i hph <;> rw [hph] at ha' hp <;> simp only [ne_eq, reduceCtorEq, not_false_eq_true, forall_const, not_true_eq_false, false_implies] at ha' hp
  · exact planStart_ready ha'.1
  · exact planKey_ready hp ha'.1 hph ha'.2.2
  · exact planInput_ready hp ha'.1 hph ha'.2.1 ha'.2.2
  · exact ⟨hp, by simp only [hph]; exact ha'⟩
  · exact ⟨hp, by simp only [hph]; exact ha'⟩
  · exact ⟨hp, by simp only [hph]; exact ha'⟩
  · exact ⟨hp, by simp only [hph]; exact ha'⟩
  · exact planSource_ready hp ha'.1 hph ha'.2.1
  · exact planChannels_ready hp ha'.1 ha'.2
  · exact ⟨hp, by simp only [hph]; exact ⟨ha'.1, ha'.2.1, ha'.2.2.1, ha'.2.2.2, trivial⟩⟩
  · exact ⟨hp, by simp only [planDest, hph]; exact ⟨ha'.1, ha'.2.1, ha'.2.2, trivial⟩⟩
  · exact planSlots_ready hp ha'.1 hph
  · exact planOutput_ready hp hph ha
  · exact ha'



theorem rangeOk_lt {b n i : Nat} (h : ¬ (!rangeOk b n) = true) (hi : i < n) : b + i < Config.addressSpace := by
  simp [rangeOk, Config.addressSpace] at *; omega

/-- One check of a chain of parameter checks passes where its condition fails and the rest passes. -/
theorem check_passes {c : Prop} [Decidable c] {e : ErrCode} {rest : Option ErrCode} :
    (if c then some e else rest) = none ↔ ¬c ∧ rest = none := by
  by_cases h : c <;> simp [h]

/-- A passed parameter check bounds every region of the command (R93). -/
theorem check_ranges {op : Instr} {s : State} (h : parameterCheck op s = none) :
   (∀ r ∈ readRegions op s.ops, r.base + r.size ≤ 2^32) ∧ (∀ r ∈ writeRegions op s.ops, r.base + r.size ≤ 2^32) := by
  cases op <;> simp only [parameterCheck, checkDeriveKey, checkSeal, checkOpen, checkEmbed, checkExtract] at h <;>
    simp only [readRegions, writeRegions, List.mem_cons, List.not_mem_nil, or_false, forall_eq_or_imp, forall_eq, false_imp_iff, implies_true, and_self]
  all_goals
    have hr := (check_passes.mp h).1
    simp only [Bool.or_eq_true, Bool.not_eq_true', not_or, Bool.not_eq_false, Region.rangeOk_iff] at hr
    first | exact ⟨hr.1, hr.2⟩ | exact ⟨⟨hr.2, hr.1.1⟩, hr.1.2⟩ | exact ⟨⟨hr.1.1, hr.2⟩, hr.1.2⟩

theorem pixel_lt {o : Operands} {x y : Nat} (hx : x < o.width.toNat) (hy : y < o.height.toNat) : pixelOffset o.width.toNat x y + 4 ≤ o.gridBytes := by
  simp only [pixelOffset, Operands.gridBytes, Operands.npix]
  have : (y+1) * o.width.toNat ≤ o.height.toNat * o.width.toNat := Nat.mul_le_mul_right _ hy
  rw [Nat.mul_comm o.width.toNat]
  nlinarith [this]

theorem inGrid_iff {s : State} : cursorInGrid s = true ↔ s.engine.y.toNat < s.ops.height.toNat ∧ s.engine.x.toNat < s.ops.width.toNat := by
  simp [cursorInGrid]

/-- A ready read lies in a region that the command reads (R79). -/
theorem readReady_region {s : State} {a : Nat} (h : readReady s a) : ∃ r ∈ readRegions s.engine.curOp s.ops, r.contains a = true := by
  obtain ⟨-, h⟩ := h
  split at h
  · obtain ⟨h1, h2, -, rfl⟩ := h
    refine ⟨s.ops.keyBuffer, by rcases h1 with h | h <;> simp [h, readRegions], ?_⟩
    rw [Region.contains_iff]; simp only [Operands.keyBuffer]; omega
  · obtain ⟨h1, h2, -, rfl⟩ := h
    refine ⟨s.ops.inBuffer, by rcases h1 with h | h | h <;> simp [h, readRegions], ?_⟩
    rw [Region.contains_iff]; simp only [Operands.inBuffer]; omega
  · obtain ⟨h1, h2, hg, rfl⟩ := h
    refine ⟨s.ops.srcGrid, by simp [h1, readRegions], ?_⟩
    rw [inGrid_iff] at hg
    have := pixel_lt hg.2 hg.1
    rw [Region.contains_iff]; simp only [Operands.srcGrid, cursorPixel]; omega
  · obtain ⟨h1, hg, hk, h4, rfl⟩ := h
    refine ⟨s.ops.inBuffer, by simp [h1, readRegions], ?_⟩
    rw [Region.contains_iff]; simp only [Operands.inBuffer, frameBitCount] at *; omega
  · obtain ⟨h1, hg, rfl⟩ := h
    refine ⟨s.ops.srcGrid, by simp [h1, readRegions], ?_⟩
    rw [inGrid_iff] at hg
    have := pixel_lt hg.2 hg.1
    have := s.engine.c.isLt
    rw [Region.contains_iff]; simp only [Operands.srcGrid, cursorPixel]; omega
  all_goals cases h

/-- A ready write lies in a region that the command writes (R68). -/
theorem writeReady_region {s : State} {a : Nat} (h : writeReady s a) : ∃ r ∈ writeRegions s.engine.curOp s.ops, r.contains a = true := by
  obtain ⟨-, h⟩ := h
  split at h
  · obtain ⟨h1, hg, h2, rfl⟩ := h
    refine ⟨s.ops.dstGrid, by simp [h1, writeRegions], ?_⟩
    rw [inGrid_iff] at hg
    have := pixel_lt hg.2 hg.1
    rw [Region.contains_iff]; simp only [Operands.dstGrid, cursorPixel]; omega
  · obtain ⟨h1, h2, h3, -, rfl⟩ := h
    refine ⟨s.ops.outBuffer, by rcases h1 with h | h | h | h <;> simp [h, writeRegions], ?_⟩
    rw [Region.contains_iff]; simp only [Operands.outBuffer]; omega
  all_goals cases h

theorem readReady_lt {s : State} {a : Nat} (h : readReady s a) : a < Config.addressSpace := by
  obtain ⟨r, hr, hc⟩ := readReady_region h
  have := (check_ranges h.1).1 r hr
  rw [Region.contains_iff] at hc
  simp only [Config.addressSpace]; omega
theorem writeReady_lt {s : State} {a : Nat} (h : writeReady s a) : a < Config.addressSpace := by
  obtain ⟨r, hr, hc⟩ := writeReady_region h
  have := (check_ranges h.1).2 r hr
  rw [Region.contains_iff] at hc
  simp only [Config.addressSpace]; omega

theorem halt_fault {h : Halt} {s : State} {f : Fault} : halt h s = .fault f ↔ ∃ a, h = .outside a ∧ f = .outsideDataMemory a := by
  cases h <;> simp [halt, eq_comm]

/-- An engine that agrees with its command makes no access outside data memory (R50). -/
theorem engineStep_not_fault (port : CryptoPort) (raced : Bool) {s : State} (hi : engineAgrees s) (f : Fault) : engineStep port raced s ≠ .fault f := by
  cases hb : s.status.busy
  · rw [engineStep_idle hb]; simp
  · rw [engineStep_busy hb]
    have hr := planStep_ready hb hi
    intro he
    generalize planStep s = p at *
    obtain ⟨s', act⟩ := p
    cases act <;> simp only [performAction] at he <;> try cases he
    · simp only [actionReady] at hr
      split at he
      · rename_i h1
        obtain ⟨a', rfl, -⟩ := halt_fault.mp he
        have := readReady_lt hr
        rcases accessHalt_some (engineRead_error h1) with ⟨h, h2⟩ | ⟨h, -⟩ | ⟨h, -⟩
        · omega
        · cases h
        · cases h
      · cases he
    · simp only [actionReady] at hr
      split at he
      · rename_i h1
        obtain ⟨a', rfl, -⟩ := halt_fault.mp he
        have := writeReady_lt hr
        rcases accessHalt_some (engineWrite_error h1) with ⟨h, h2⟩ | ⟨h, -⟩ | ⟨h, -⟩
        · omega
        · cases h
        · cases h
      · cases he



/-- The engine is past its first step: it agrees with its command, whose checks have passed. -/
def enginePast (s : State) : Prop := phaseAgrees s ∧ parameterCheck s.engine.curOp s = none

theorem nextPixel_y {o : Operands} {e : Engine} (h : e.y.toNat < o.height.toNat) : (nextPixel o e).y.toNat ≤ o.height.toNat := by
  unfold nextPixel
  split
  · simp only; omega
  · simp only
    have := o.height.isLt
    rw [BitVec.toNat_add]
    simp
    omega
theorem nextPixel_phase {o : Operands} {e : Engine} : (nextPixel o e).phase = e.phase := by unfold nextPixel; split <;> rfl
theorem nextPixel_curOp {o : Operands} {e : Engine} : (nextPixel o e).curOp = e.curOp := by unfold nextPixel; split <;> rfl
theorem nextPixel_i {o : Operands} {e : Engine} : (nextPixel o e).i = e.i := by unfold nextPixel; split <;> rfl

/-- After a ready read the engine agrees with its command. -/
theorem afterRead_past {s : State} {a : Nat} {b : Byte} (h : readReady s a) : enginePast { s with engine := afterRead s.ops b s.engine } := by
  obtain ⟨hp, h⟩ := h
  have pc : ∀ e : Engine, e.curOp = s.engine.curOp → parameterCheck e.curOp { s with engine := e } = none := by
    intro e he; rw [he]; exact (parameterCheck_eq rfl rfl rfl).trans hp
  split at h <;> rename_i hph
  · obtain ⟨h1, h2, h3, -⟩ := h
    have he : afterRead s.ops b s.engine = { s.engine with key := s.engine.key ++ [b], i := s.engine.i + 1 } := by simp only [afterRead, hph]
    rw [he]
    refine ⟨?_, pc _ rfl⟩
    simp only [phaseAgrees, hph]
    exact ⟨h1, by omega, h3⟩
  · obtain ⟨h1, h2, h3, -⟩ := h
    have he : afterRead s.ops b s.engine = { s.engine with input := s.engine.input ++ [b], i := s.engine.i + 1 } := by simp only [afterRead, hph]
    rw [he]
    refine ⟨?_, pc _ rfl⟩
    simp only [phaseAgrees, hph]
    exact ⟨h1, by omega, by simp [h3]⟩
  · obtain ⟨h1, h2, hg, -⟩ := h
    have hg' := inGrid_iff.mp hg
    by_cases hi : s.engine.i < 3
    · have he : afterRead s.ops b s.engine = { s.engine with q := s.engine.q ++ [b], i := s.engine.i + 1 } := by simp only [afterRead, hph, hi, if_true]
      rw [he]
      refine ⟨?_, pc _ rfl⟩
      simp only [phaseAgrees, hph]
      exact ⟨h1, by omega, by omega⟩
    · have he : afterRead s.ops b s.engine = { s.engine with q := s.engine.q ++ [b], i := 0, phase := .channel, c := 0 } := by simp only [afterRead, hph, hi, if_false]
      rw [he]
      refine ⟨?_, pc _ rfl⟩
      simp only [phaseAgrees]
      exact ⟨h1, hg⟩
  · obtain ⟨h1, hg, -, -, -⟩ := h
    have he : afterRead s.ops b s.engine = afterPayload b s.engine := by simp only [afterRead, hph]
    rw [he]
    unfold afterPayload
    split
    · refine ⟨?_, pc _ rfl⟩
      simp only [phaseAgrees]
      exact ⟨h1, hg⟩
    · refine ⟨?_, pc _ rfl⟩
      simp only [phaseAgrees]
      exact ⟨h1, hg, by omega⟩
  · obtain ⟨h1, hg, -⟩ := h
    have hg' := inGrid_iff.mp hg
    by_cases hc : s.engine.c.val < 2
    · have he : afterRead s.ops b s.engine = { s.engine with bits := s.engine.bits ++ [lsbGet b], c := s.engine.c + 1 } := by simp only [afterRead, hph, hc, if_true]
      rw [he]
      refine ⟨?_, pc _ rfl⟩
      simp only [phaseAgrees, hph]
      exact ⟨h1, by omega⟩
    · have he : afterRead s.ops b s.engine = nextPixel s.ops { s.engine with bits := s.engine.bits ++ [lsbGet b], c := 0 } := by simp only [afterRead, hph, hc, if_false]
      rw [he]
      refine ⟨?_, pc _ nextPixel_curOp⟩
      simp only [phaseAgrees, nextPixel_phase, nextPixel_curOp, hph]
      exact ⟨h1, nextPixel_y hg'.1⟩
  all_goals cases h

/-- After a ready write the engine agrees with its command. -/
theorem afterWrite_past {s : State} {a : Nat} (h : writeReady s a) : enginePast { s with engine := afterWrite s.ops s.engine } := by
  obtain ⟨hp, h⟩ := h
  have pc : ∀ e : Engine, e.curOp = s.engine.curOp → parameterCheck e.curOp { s with engine := e } = none := by
    intro e he; rw [he]; exact (parameterCheck_eq rfl rfl rfl).trans hp
  split at h <;> rename_i hph
  · obtain ⟨h1, hg, h2, -⟩ := h
    have hg' := inGrid_iff.mp hg
    by_cases hi : s.engine.i < 3
    · have he : afterWrite s.ops s.engine = { s.engine with i := s.engine.i + 1 } := by simp only [afterWrite, hph, hi, if_true]
      rw [he]
      refine ⟨?_, pc _ rfl⟩
      simp only [phaseAgrees, hph]
      exact ⟨h1, hg, by omega⟩
    · have he : afterWrite s.ops s.engine = nextPixel s.ops { s.engine with i := 0, q := [], phase := .source } := by simp only [afterWrite, hph, hi, if_false]
      rw [he]
      refine ⟨?_, pc _ nextPixel_curOp⟩
      simp only [phaseAgrees, nextPixel_phase, nextPixel_curOp, nextPixel_i]
      exact ⟨h1, by omega, nextPixel_y hg'.1⟩
  · obtain ⟨h1, h2, h3, h4, -⟩ := h
    have he : afterWrite s.ops s.engine = { s.engine with i := s.engine.i + 1 } := by simp only [afterWrite, hph]
    rw [he]
    refine ⟨?_, pc _ rfl⟩
    simp only [phaseAgrees, hph]
    exact ⟨h1, by omega, h3, h4⟩
  all_goals cases h

theorem draw_length {port : CryptoPort} {i n : Nat} {b : Bytes} (h : port.draw i n = .bytes b) : b.length = n := by
  unfold CryptoPort.draw at h
  split at h
  · cases h
  · cases h; simp

theorem checkSeal_none {p : Platform} {o : Operands} (h : checkSeal p o = none) :
    p.nonceSize.val + o.inLen.toNat + 16 ≤ o.outCap.toNat := by
  simpa [checkSeal, check_passes, sealNeed, Config.tagSize] using (check_passes.mp (check_passes.mp
    (check_passes.mp h).2).2).1

theorem checkDerive_none {o : Operands} (h : checkDeriveKey o = none) : 32 ≤ o.outCap.toNat :=
  Nat.le_of_not_lt (check_passes.mp (check_passes.mp (check_passes.mp h).2).2).1

theorem checkOpen_none {p : Platform} {o : Operands} (h : checkOpen p o = none) :
    p.nonceSize.val + 16 ≤ o.inLen.toNat ∧
      o.inLen.toNat - p.nonceSize.val - 16 ≤ o.outCap.toNat := by
  have tagged := check_passes.mp (check_passes.mp (check_passes.mp (check_passes.mp h).2).2).2
  have room := (check_passes.mp tagged.2).1
  have tag := tagged.1
  simp only [Config.tagSize] at tag room
  omega

/-- After a port transaction the engine agrees with its command, whatever the port answers. -/
theorem transact_past {port : CryptoPort} {s : State} (h : transactReady s) : enginePast (transact port s) := by
  obtain ⟨hp, h⟩ := h
  have pc : ∀ (e : Engine) d, e.curOp = s.engine.curOp → parameterCheck e.curOp { s with engine := e, draws := d } = none := by
    intro e d he; rw [he]; exact (parameterCheck_eq rfl rfl rfl).trans hp
  have fl : ∀ code d, code ≠ .noError → enginePast { s with engine := withFailure code s.engine, draws := d } := by
    intro code d hc
    exact ⟨by simpa [phaseAgrees, withFailure] using hc, pc _ _ rfl⟩
  have out : ∀ bs d, (s.engine.curOp = .deriveKey ∨ s.engine.curOp = .sealPlain ∨ s.engine.curOp = .openSealed ∨
        s.engine.curOp = .extract) → bs.length ≤ s.ops.outCap.toNat →
      (s.engine.curOp = .deriveKey → bs.length = Config.keySize) → enginePast { s with engine := withOutput bs s.engine, draws := d } := by
    intro bs d h1 h2 h3
    exact ⟨by simp only [phaseAgrees, withOutput]; exact ⟨h1, by omega, h2, h3⟩, pc _ _ rfl⟩
  split at h <;> rename_i hph
  · simp only [transact, hph]
    refine out _ s.draws (.inl h.1) ?_ (fun _ => by simp [Config.keySize])
    have := checkDerive_none (by rw [h.1] at hp; exact hp)
    simpa using this
  · simp only [transact, hph]
    split
    · exact fl _ _ (by simp)
    · rename_i n hd
      refine ⟨?_, pc _ _ rfl⟩
      simp only [phaseAgrees]
      exact ⟨h.1, h.2, draw_length hd⟩
  · simp only [transact, hph]
    unfold afterSeal
    split
    · exact fl _ s.draws (by simp)
    · split
      · exact fl _ s.draws (by simp)
      · rename_i sealed hs hl
        refine out _ s.draws (.inr (.inl h.1)) ?_ (by simp [h.1])
        have := checkSeal_none (by rw [h.1] at hp; exact hp)
        simp only [List.length_append]
        simp only [Config.tagSize, ne_eq, Decidable.not_not] at hl
        rw [h.2.2, hl, h.2.1]; omega
  · simp only [transact, hph]
    unfold afterOpen
    split
    · exact fl _ s.draws (by simp)
    · split
      · exact fl _ s.draws (by simp)
      · rename_i p hs hl
        refine out _ s.draws (.inr (.inr (.inl h.1))) ?_ (by simp [h.1])
        have := checkOpen_none (by rw [h.1] at hp; exact hp)
        simp only [Config.tagSize, ne_eq, Decidable.not_not, List.length_drop] at hl
        rw [hl, h.2]; omega
  all_goals cases h



theorem planOutput_status (s : State) : (planOutput s).1.status = s.status := by unfold planOutput; split <;> rfl
theorem planInput_status (s : State) : (planInput s).1.status = s.status := by unfold planInput; split <;> rfl
theorem planKey_status (s : State) : (planKey s).1.status = s.status := by
  unfold planKey; split
  · rfl
  · exact planInput_status _
theorem planSource_status (s : State) : (planSource s).1.status = s.status := by unfold planSource; split <;> rfl
theorem planChannels_status (n : Nat) (s : State) : (planChannels n s).1.status = s.status := by
  induction n generalizing s with
  | zero => rfl
  | succ n ih =>
    unfold planChannels
    split
    · split
      · exact ih _
      · split
        · exact ih _
        · rfl
    · exact ih s
theorem planSlots_status (s : State) : (planSlots s).1.status = s.status := by
  unfold planSlots
  split
  · rfl
  · split
    · rfl
    · split
      · rfl
      · exact planOutput_status _
theorem planFirst_status (s : State) : (planFirst s).1.status = s.status := by
  unfold planFirst
  split
  · rfl
  · exact planInput_status _
  · exact planKey_status _
  · exact planKey_status _
  · rfl
  · exact planSource_status _
  · exact planSlots_status _

/-- The plan of a step sets TRUNC only where the frame does not fit (R29, R152). -/
theorem planStep_trunc {s : State} (hr : s.status.trunc = true → s.status.fits = false) (hp : s.engine.phase = .start → s.status.trunc = false)
   (h : (planStep s).1.status.trunc = true) : (planStep s).1.status.fits = false := by
  by_cases hph : s.engine.phase = .start
  · have ht := hp hph
    have e : planStep s = planStart s := by simp only [planStep, hph]
    rw [e] at h ⊢
    have key : ((planStart s).1.status = (opening s.engine.curOp s).1.status) := by
      unfold planStart
      split
      · rename_i ho; rw [ho]
      · rename_i ho; rw [ho, planFirst_status]
    rw [key] at h ⊢
    generalize s.engine.curOp = op at *
    cases op <;> simp only [opening, writeFits, writeCapBits] at h ⊢ <;> try (rw [ht] at h; cases h)
    · split at h
      · simp only at h; rw [ht] at h; cases h
      · simp only
        unfold writeTrunc at h ⊢
        split at h
        · rename_i hn
          simp only [hn, if_true, frameFits]
          simpa using hn
        · simp only at h; rw [ht] at h; cases h
  · have : (planStep s).1.status = s.status := by
      unfold planStep
      split
      · rename_i h'; exact absurd h' hph
      all_goals first
        | rfl | exact planKey_status _ | exact planInput_status _ | exact planSource_status _ | exact planChannels_status _ _ | exact planSlots_status _ | exact planOutput_status _
    rw [this] at h ⊢
    exact hr h

/-- An engine step keeps the invariant, at every crypto port and with or without a race. -/
theorem engineStep_inv {port : CryptoPort} {raced : Bool} {s t : State} (hi : s.Inv) (h : engineStep port raced s = .next t) : t.Inv := by
  obtain ⟨hm, hr, he⟩ := hi
  cases hb : s.status.busy
  · rw [engineStep_idle hb] at h; cases h; exact ⟨hm, hr, he⟩
  rw [engineStep_busy hb] at h
  have hready := planStep_ready hb he
  have hpl := planStep_planned s
  have htr := planStep_trunc hr.2.2.2.2 (fun hs => by have := (he hb).1; unfold phaseAgrees at this; rw [hs] at this; exact this.2)
  generalize planStep s = p at *
  obtain ⟨u, act⟩ := p
  simp only at h hready hpl htr
  have ub : u.status.busy = true := by rw [hpl]; exact hb
  have um : Memory.wf u.mem = true := by rw [hpl]; exact hm
  have ur : registersAgree u := by
    obtain ⟨r1, r2, r3, r4, -⟩ := hr
    rw [hpl]
    refine ⟨r1, r2, r3, r4, ?_⟩
    exact htr
  obtain ⟨ud, ue, uc, ua, uo⟩ := ur.1 ub
  have fin : ∀ (code : ErrCode) (ea ol : Word) , (code ≠ .busError → ea = 0) → (code ≠ .noError → ol = 0) → (finish code { u with errAddr := ea, outLen := ol}).Inv := by
    intro code ea ol h1 h2
    refine ⟨um, ⟨fun h => (by cases h), ?_, h1, h2, htr⟩, fun h => (by cases h)⟩
    simp [finish]
  have past : ∀ v : State, v.status = u.status → v.errAddr = u.errAddr → v.outLen = u.outLen → Memory.wf v.mem = true → enginePast v → v.Inv := by
    intro v e1 e2 e3 hm hp
    refine ⟨hm, ?_, fun _ => ⟨hp.1, fun _ => hp.2⟩⟩
    unfold registersAgree
    rw [e1, e2, e3]; exact ur
  rcases performAction_next h with ⟨a, dir, -, rfl, -⟩ | ⟨a, b, s', rfl, hrd, rfl⟩ | ⟨a, v, s', rfl, hwr, rfl⟩ | ⟨rfl, rfl⟩ | ⟨n, rfl, rfl⟩ | ⟨rfl, rfl⟩ | ⟨code, rfl, rfl⟩
  · exact fin .busError (BitVec.ofNat 32 a) u.outLen (by simp) (fun _ => uo)
  · have hpst := afterRead_past (b := b) hready
    obtain ⟨-, ⟨-, rfl⟩ | ⟨-, rfl⟩⟩ := engineRead_ok hrd
    · exact past _ rfl rfl rfl um hpst
    · exact past _ rfl rfl rfl um hpst
  · have hpst := afterWrite_past hready
    have hlt := writeReady_lt hready
    obtain ⟨-, rfl | rfl⟩ := engineWrite_ok hwr
    · exact past _ rfl rfl rfl (Memory.wf_write _ um hlt) hpst
    · exact past _ rfl rfl rfl (Memory.wf_write _ um hlt) hpst
  · have := transact_past (port := port) hready
    have e := transact_planned port u
    refine past _ ?_ ?_ ?_ ?_ this <;> rw [e] <;> first | rfl | exact um
  · exact fin .noError u.errAddr (BitVec.ofNat 32 n) (fun _ => ua) (by simp)
  · exact fin .noError u.errAddr u.outLen (fun _ => ua) (by simp)
  · exact fin code u.errAddr u.outLen (fun _ => ua) (fun _ => uo)

end Sys2Proof.Machine
end

