-- ==== Sys2Proof/Laws/Window.lean ====
section
/-! SUPPORT. Decoding a command word, and a host access of the window, said once: which word decodes to what,
and what a read or a write at a register's address does. -/

namespace Sys2Proof.Machine

theorem rsvField_eq_zero_iff (w : Word) : rsvField w = 0#28 ↔ w.toNat / 16 = 0 := by
  unfold rsvField
  rw [← BitVec.toNat_inj]
  simp [BitVec.extractLsb'_toNat, Nat.shiftRight_eq_div_pow]
  omega

theorem toNat_opField (w : Word) : (opField w).toNat = w.toNat % 16 := by
  simp [opField, BitVec.extractLsb'_toNat]

/-- Everything the decoder can answer (R71). -/
theorem decode_cases (w : Word) :
    (decode w = .error .reservedBits ∧ 16 ≤ w.toNat) ∨
    (decode w = .error .reservedOpcode ∧ 7 ≤ w.toNat ∧ w.toNat < 16) ∨
    (∃ i, decode w = .ok i ∧ w = encode i) := by
  by_cases h : rsvField w = 0#28
  · have h1 := (rsvField_eq_zero_iff w).mp h
    have hlt : w.toNat < 16 := by omega
    by_cases h7 : 7 ≤ w.toNat
    · refine .inr (.inl ⟨?_, h7, hlt⟩)
      simp only [decode, h, if_true, decodeOpcode, toNat_opField]
      rw [Nat.mod_eq_of_lt hlt]
      split <;> first | omega | rfl
    · refine .inr (.inr ?_)
      have hw : w = BitVec.ofNat 32 w.toNat := by simp
      have : w.toNat = 0 ∨ w.toNat = 1 ∨ w.toNat = 2 ∨ w.toNat = 3 ∨ w.toNat = 4 ∨ w.toNat = 5 ∨
          w.toNat = 6 := by omega
      rcases this with h | h | h | h | h | h | h <;> rw [h] at hw <;> subst hw
      exacts [⟨.nop, by decide, by decide⟩, ⟨.deriveKey, by decide, by decide⟩,
        ⟨.sealPlain, by decide, by decide⟩, ⟨.openSealed, by decide, by decide⟩,
        ⟨.capacity, by decide, by decide⟩, ⟨.embed, by decide, by decide⟩,
        ⟨.extract, by decide, by decide⟩]
  · have h1 := (not_congr (rsvField_eq_zero_iff w)).mp h
    exact .inl ⟨by simp [decode, h], by omega⟩

theorem decode_encode (i : Instr) : decode (encode i) = .ok i := by cases i <;> decide

theorem alignedOffset_reg (base : Nat) (r : Reg) :
    alignedOffset base (r.address base) 4 = some r.offset := by
  cases r <;> simp [alignedOffset, Reg.address, Reg.offset]

theorem selectAccess_reg (base : Nat) (r : Reg) :
    selectAccess base (r.address base) 4 = .offset r.offset := by
  simp [selectAccess, alignedOffset_reg]

theorem ofOffset_offset (r : Reg) : Reg.ofOffset r.offset = some r := by cases r <;> decide

/-- A write at a register's address writes that register (R81). -/
theorem hostWrite_reg (s : State) (r : Reg) (v : Word) :
    hostWrite (r.address s.plat.codecBase) 4 v s = { writeReg s r v with response := .written } := by
  simp [hostWrite, selectAccess_reg, writeOffset, ofOffset_offset]

/-- A read at a register's address answers its value and changes nothing (R82). -/
theorem hostRead_reg (s : State) (r : Reg) :
    hostRead (r.address s.plat.codecBase) 4 s = { s with response := .word (readReg s r) } := by
  simp [hostRead, selectAccess_reg, readOffset, ofOffset_offset]

/-- A host read changes the answer only. -/
theorem hostRead_eq (addr size : Nat) (s : State) :
    ∃ r, hostRead addr size s = { s with response := r } := by
  unfold hostRead
  split <;> exact ⟨_, rfl⟩

/-- Everything a write of a register can do: nothing, OVERRUN, the W1C clearing, a stored value, or an
accepted command word. -/
theorem writeReg_cases (s : State) (r : Reg) (v : Word) :
    writeReg s r v = s ∨
    (s.status.busy = true ∧ writeReg s r v = setOverrun s) ∨
    (r = .status ∧ writeReg s r v = { s with status := s.status.clearWritten v }) ∨
    (s.status.busy = false ∧ r = .cmd ∧ writeReg s r v = acceptWord v s) ∨
    (s.status.busy = false ∧ ∃ c o, writeReg s r v = { s with ctrl := c, ops := o }) := by
  cases hb : s.status.busy <;> cases r <;>
    simp only [writeReg, unlessBusy, hb, if_true, if_false, Bool.false_eq_true, true_and, false_and,
      false_or, or_false, reduceCtorEq, and_self, and_false, or_true, true_or] <;>
    first
      | trivial
      | exact .inr ⟨_, _, rfl⟩

/-- Everything a host write can do: what a write of some register does, or nothing, and an answer. -/
theorem hostWrite_cases (addr size : Nat) (v : Word) (s : State) :
    ∃ a, hostWrite addr size v s = { s with response := a } ∨
      ∃ r, addr = Reg.address s.plat.codecBase r ∧ size = 4 ∧
        hostWrite addr size v s = { writeReg s r v with response := a } := by
  unfold hostWrite
  split
  · rename_i off hs
    cases hr : Reg.ofOffset off with
    | none => exact ⟨.written, .inl (by simp [writeOffset, hr])⟩
    | some r =>
      have hoff : r.offset = off := by
        have := List.find?_some (by simpa [Reg.ofOffset] using hr : Reg.all.find? _ = some r)
        simpa using this
      unfold selectAccess at hs
      split at hs
      · rename_i off' ha
        unfold alignedOffset at ha
        split at ha
        · rename_i hc
          simp only [Option.some.injEq, Selected.offset.injEq] at ha hs
          refine ⟨.written, .inr ⟨r, ?_, hc.1, by simp [writeOffset, hr]⟩⟩
          rw [Reg.address, hoff, ← hs, ← ha, BitVec.toNat_ofNat]
          omega
        · cases ha
      · split at hs <;> cases hs
  · exact ⟨.busError, .inl rfl⟩
  · exact ⟨.notSelected, .inl rfl⟩

/-- The number that the STATUS word is (R77). -/
theorem toNat_toWord (st : Status) :
    st.toWord.toNat =
      st.busy.toNat + 2 * st.done.toNat + 4 * st.err.toNat + 8 * st.overrun.toNat
        + 16 * st.trunc.toNat + 32 * st.fits.toNat + 256 * st.errcode.code.toNat := by
  obtain ⟨a, b, c, d, e, f, g⟩ := st
  revert a b c d e f
  cases g <;> decide

end Sys2Proof.Machine
end

