-- ==== Sys2Proof/Laws/Schedule.lean ====
section
/-! SUPPORT. What a turn of the schedule can do while a command runs, and what the machine sees of the races
to come. -/

namespace Sys2Proof.Machine

/-- What a turn leaves of a state while a command runs: the operands, CTRL, the platform, the schedule. -/
def turnKeeps (s t : State) : Prop :=
  t.ops = s.ops ∧ t.ctrl = s.ctrl ∧ t.plat = s.plat ∧ t.turns = s.turns

/-- Everything another agent's store can do: one byte of memory, its value or, in a race, a free one. -/
theorem agentStore_cases (a : Word) (v : Byte) (s : State) :
    (inCommandRegion s a.toNat = true ∧
      agentStore a v s = { raceAt a.toNat s with response := .written }) ∨
    (inCommandRegion s a.toNat = false ∧
      agentStore a v s = { s with mem := Memory.write s.mem a.toNat v, response := .written }) := by
  unfold agentStore
  cases inCommandRegion s a.toNat <;> simp

/-- Everything another agent's load can do: the byte of memory, or in a race a free one. -/
theorem agentLoad_cases (raced : Bool) (a : Word) (s : State) :
    (inWrittenRegion s a.toNat = true ∧ agentLoad raced a s = loadFree (raceAt a.toNat s)) ∨
    (inCommandRegion s a.toNat = true ∧ (raced = true ∨ a.toNat ∈ s.raced) ∧
      agentLoad raced a s = loadFree s) ∨
    agentLoad raced a s = { s with response := .byte (Memory.read s.mem a.toNat) } := by
  unfold agentLoad
  cases inWrittenRegion s a.toNat
  · cases hr : inCommandRegion s a.toNat && (raced || s.raced.contains a.toNat)
    · exact .inr (.inr rfl)
    · simp only [Bool.and_eq_true, Bool.or_eq_true, List.contains_iff_mem] at hr
      exact .inr (.inl ⟨hr.1, hr.2, rfl⟩)
  · exact .inl ⟨rfl, rfl⟩

/-- A host's or another agent's operation while a command runs leaves the command as it is. -/
theorem hostStep_busy {raced : Bool} {again : HostOp → State → State} {op : HostOp} {s t : State}
    (hb : s.status.busy = true)
    (ha : ∀ op u, turnKeeps u (again op u) ∧ (again op u).engine = u.engine ∧
      (again op u).status = u.status)
    (h : hostStep raced again op s = .next t) :
    turnKeeps s t ∧ t.engine = s.engine ∧ t.status.busy = true := by
  have polled : ∀ a m v, ∃ r, (pollOnce a m v s).1 = { s with response := r } := by
    intro a m v
    obtain ⟨r, hr⟩ := hostRead_eq a 4 s
    refine ⟨r, ?_⟩
    unfold pollOnce
    simp only [hr]
    cases r <;> rfl
  cases op with
  | write a n v =>
    simp only [hostStep, Host.Outcome.next.injEq] at h
    obtain ⟨r, e | ⟨reg, -, -, e⟩⟩ := hostWrite_cases a n v s
    · rw [← h, e]; exact ⟨⟨rfl, rfl, rfl, rfl⟩, rfl, hb⟩
    · rw [← h, e]
      rcases writeReg_cases s reg v with e | ⟨-, e⟩ | ⟨-, e⟩ | ⟨hi, -⟩ | ⟨hi, -⟩
      · rw [e]; exact ⟨⟨rfl, rfl, rfl, rfl⟩, rfl, hb⟩
      · rw [e]; exact ⟨⟨rfl, rfl, rfl, rfl⟩, rfl, hb⟩
      · rw [e]; exact ⟨⟨rfl, rfl, rfl, rfl⟩, rfl, hb⟩
      · rw [hb] at hi; cases hi
      · rw [hb] at hi; cases hi
  | read a n =>
    simp only [hostStep, Host.Outcome.next.injEq] at h
    obtain ⟨r, e⟩ := hostRead_eq a n s
    rw [← h, e]; exact ⟨⟨rfl, rfl, rfl, rfl⟩, rfl, hb⟩
  | poll a m v =>
    obtain ⟨r, hr⟩ := polled a m v
    simp only [hostStep] at h
    split at h <;> rename_i u hp <;> rw [hp] at hr <;> simp only at hr <;> subst hr <;> cases h
    · exact ⟨⟨rfl, rfl, rfl, rfl⟩, rfl, hb⟩
    · obtain ⟨kept, he, hs⟩ := ha (.poll a m v) { s with response := r }
      exact ⟨kept, he, by rw [hs]; exact hb⟩
  | run w =>
    simp only [hostStep, hostRun, hb, if_true, Host.Outcome.next.injEq] at h
    obtain ⟨kept, he, hs⟩ := ha (donePoll s) { setOverrun s with response := .written }
    rw [← h]
    exact ⟨kept, he, by rw [hs]; exact hb⟩
  | store a v =>
    simp only [hostStep, Host.Outcome.next.injEq] at h
    rcases agentStore_cases a v s with ⟨-, e⟩ | ⟨-, e⟩ <;> rw [← h, e] <;>
      exact ⟨⟨rfl, rfl, rfl, rfl⟩, rfl, hb⟩
  | load a =>
    simp only [hostStep, Host.Outcome.next.injEq] at h
    rcases agentLoad_cases raced a s with ⟨-, e⟩ | ⟨-, -, e⟩ | e <;> rw [← h, e] <;>
      exact ⟨⟨rfl, rfl, rfl, rfl⟩, rfl, hb⟩

/-- An engine step leaves the operands, CTRL, the platform and what belongs to the host. -/
theorem engineStep_keeps {port : CryptoPort} {raced : Bool} {s t : State}
    (h : engineStep port raced s = .next t) : turnKeeps s t ∧ t.program = s.program := by
  cases hb : s.status.busy
  · rw [engineStep_idle hb] at h; cases h; exact ⟨⟨rfl, rfl, rfl, rfl⟩, rfl⟩
  rw [engineStep_busy hb] at h
  have planned := planStep_planned s
  generalize planStep s = p at *
  obtain ⟨u, act⟩ := p
  simp only at h planned
  have kept : turnKeeps s u ∧ u.program = s.program := by
    rw [planned]; exact ⟨⟨rfl, rfl, rfl, rfl⟩, rfl⟩
  rcases performAction_next h with
    ⟨a, dir, -, rfl, -⟩ | ⟨a, b, w, -, hr, rfl⟩ | ⟨a, v, w, -, hw, rfl⟩ | ⟨-, rfl⟩ | ⟨n, -, rfl⟩ |
      ⟨-, rfl⟩ | ⟨code, -, rfl⟩
  · exact kept
  · obtain ⟨-, ⟨-, rfl⟩ | ⟨-, rfl⟩⟩ := engineRead_ok hr <;> exact kept
  · obtain ⟨-, rfl | rfl⟩ := engineWrite_ok hw <;> exact kept
  · rw [transact_planned]; exact kept
  · exact kept
  · exact kept
  · exact kept

/-- A turn that is no reset, taken while a command runs, keeps the operands, CTRL, the platform and the
turns after it. -/
theorem turnWith_busy {raced : Bool} {turn : Turn} {s t : State} (hb : s.status.busy = true)
    (hr : turn ≠ .reset) (h : turnWith raced turn s = .next t) : turnKeeps s t := by
  cases turn with
  | host =>
    simp only [turnWith, hostTurn] at h
    split at h
    · cases h; exact ⟨rfl, rfl, rfl, rfl⟩
    · rename_i op ops _
      exact (hostStep_busy (again := keepPolling) (s := { s with program := ops }) hb
        (fun _ _ => ⟨⟨rfl, rfl, rfl, rfl⟩, rfl, rfl⟩) h).1
  | other op => exact (hostStep_busy hb (fun _ _ => ⟨⟨rfl, rfl, rfl, rfl⟩, rfl, rfl⟩) h).1
  | engine => exact (engineStep_keeps h).1
  | reset => exact absurd rfl hr

/-- Where the turns come to no race, no turn's read is in one. -/
theorem racedAhead_of_no_race {turn : Turn} {ts : List Turn} {s : State}
    (h : raceToCome (turn :: ts) s = false) : racedAhead turn { s with turns := ts } = false := by
  unfold racedAhead
  split
  · rw [show raceToCome (turn :: ts) { s with turns := ts } = raceToCome (turn :: ts) s from rfl, h,
      Bool.and_false]
  · rfl

/-- While BUSY = 0 nothing races. -/
theorem raceToCome_idle {ts : List Turn} {s : State} (h : s.status.busy = false) :
    raceToCome ts s = false := by
  cases ts <;> simp [raceToCome, h]

/-- One turn further: where the turns come to no race, this turn is in none, and neither are those after
it. -/
theorem raceToCome_cons {turn : Turn} {ts : List Turn} {s : State} (hb : s.status.busy = true) :
    raceToCome (turn :: ts) s = false ↔
      (turnOp turn s).any (clashes s) = false ∧
        ∀ t, turnWith false turn { s with turns := ts } = .next t → raceToCome ts t = false := by
  simp only [raceToCome, hb, Bool.true_and, Bool.or_eq_false_iff]
  refine and_congr_right fun _ => ?_
  cases turnWith false turn { s with turns := ts } <;> simp

end Sys2Proof.Machine
end

