-- ==== Sys2Proof/Tests/Slice0.lean ====
section
/-! SUPPORT. Tests against the spec's own vectors (95_test_vectors.md), the smoke tests of well-formedness
and decoding, and a witness for the hypotheses of every obligation. -/

namespace Sys2Proof.Tests

set_option Elab.async false

open Sys2Proof Sys2Proof.Machine

/-! ## Small states -/

/-- A crypto port that computes and meets the law of R114: the sealed bytes are the plaintext and a tag of
16 zero bytes. -/
def toy : CryptoPort :=
  { hash := fun bs => Vector.replicate 32 (BitVec.ofNat 8 bs.length),
    rngFails := fun _ => false,
    rngByte := fun t j => BitVec.ofNat 8 (16 * t + j),
    aeadSeal := fun _ _ plain => .sealedBytes (plain ++ List.replicate 16 0),
    aeadOpen := fun _ _ sealed => .plain (sealed.take (sealed.length - 16)) }

theorem toy_opens (n : Nat) : toy.OpenInvertsSeal n := by
  intro key nonce plain sealed _ _ h
  simp only [toy, SealAnswer.sealedBytes.injEq] at h
  subst h
  simp [toy]

/-- The state of an outcome. -/
def after : Outcome → State
  | .next t    => t
  | .fault _   => State.reset
  | .refused _ => State.reset

/-- Whether an outcome is a next state. -/
def isNext : Outcome → Bool
  | .next _    => true
  | .fault _   => false
  | .refused _ => false

theorem eq_next {o : Outcome} (h : isNext o = true) : o = .next (after o) := by
  cases o <;> simp_all [isNext, after]

/-- The STATUS word after an outcome. -/
def statusWord (o : Outcome) : Word := (after o).status.toWord

/-- An idle state with these operand registers and these bytes from address `a` on. -/
def idle (o : Operands) (a : Nat) (bs : Bytes) : State :=
  { State.reset with ops := o, mem := Memory.writeAll [] a bs }

/-- Bus errors for this direction at one address. -/
def withBusError (dir : Dir) (a : Nat) (s : State) : State :=
  match dir with
  | .read  => { s with plat := { s.plat with readErrors := [{ base := a, size := 1 }] } }
  | .write => { s with plat := { s.plat with writeErrors := [{ base := a, size := 1 }] } }

/-- Grid F of the vectors: pixel p is (0x10 + p, 0x80 + p, 0xF0 - p, 0xFF). -/
def gridF : Bytes := (List.range 16).flatMap (fun p =>
  [BitVec.ofNat 8 (0x10 + p), BitVec.ofNat 8 (0x80 + p), BitVec.ofNat 8 (0xF0 - p), 0xFF])

/-- The registers of V10 to V15, and of EXTRACT after them. -/
def codecOps (len : Word) : Operands :=
  { srcBase := 0x1000, dstBase := 0x2000, width := 4, height := 4, inBase := 0x3000, inLen := len,
    outBase := 0x4000, outCap := 64, keyBase := 0 }

/-- V10 for a payload length and a policy: grid F and the bytes `41 42 43`. -/
def v10 (len : Word) (legacy : Bool) : State :=
  { State.reset with
      ops := codecOps len,
      ctrl := { truncPolicy := legacy, irqEn := false },
      mem := Memory.writeAll (Memory.writeAll [] 0x1000 gridF) 0x3000 [0x41, 0x42, 0x43] }

/-- V11 from V10: the destination grid read as a grid of `w` by `h`. -/
def v11 (w h cap : Word) (s : State) : State :=
  { s with ops := { s.ops with srcBase := 0x2000, width := w, height := h, outCap := cap } }

/-- V40 to V42: IN at 0x3000, OUT at 0x4000, KEY at 0x5000. -/
def cryptoOps (len cap : Word) : Operands :=
  { Operands.reset with inBase := 0x3000, inLen := len, outBase := 0x4000, outCap := cap,
                        keyBase := 0x5000 }

/-- The STATUS of FRAMING, 0x506, from which V30 to V34 start. -/
def framed : State :=
  { State.reset with status := { Status.reset with done := true, err := true, errcode := .framing } }

/-- A state whose engine has accepted a command. -/
def running (i : Instr) (o : Operands) : State := accept i { State.reset with ops := o }

/-! ## Well-formedness -/

theorem smoke_word_reserved_opcode : commandWordWf 0x7 = false := by decide
theorem smoke_word_reserved_bits : commandWordWf 0x15 = false := by decide
theorem smoke_word_good : commandWordWf 0x6 = true := by decide
theorem smoke_access_size : registerAccessWf 0x8000 0x8004 2 = false := by decide
theorem smoke_access_alignment : registerAccessWf 0x8000 0x8006 4 = false := by decide
theorem smoke_access_below : registerAccessWf 0x8000 0x7FFC 4 = false := by decide
theorem smoke_access_reserved : registerAccessWf 0x8000 0x8040 4 = false := by decide
theorem smoke_access_good : registerAccessWf 0x8000 0x803C 4 = true := by decide
theorem smoke_write : HostOp.wf 0x8000 (.write 0x8005 4 1) = false := by decide
theorem smoke_read : HostOp.wf 0x8000 (.read 0x8004 1) = false := by decide
theorem smoke_poll : HostOp.wf 0x8000 (.poll 0x8040 2 2) = false := by decide
theorem smoke_run : HostOp.wf 0x8000 (.run 0x80000005) = false := by decide

/-! ## Decoding: each command's word from RSV = 0 and its OP of the opcode map (R70, R72) -/

theorem test_decode_nop : decode (0#28 ++ 0b0000#4) = .ok .nop := by decide
theorem test_decode_derive_key : decode (0#28 ++ 0b0001#4) = .ok .deriveKey := by decide
theorem test_decode_seal : decode (0#28 ++ 0b0010#4) = .ok .sealPlain := by decide
theorem test_decode_open : decode (0#28 ++ 0b0011#4) = .ok .openSealed := by decide
theorem test_decode_capacity : decode (0#28 ++ 0b0100#4) = .ok .capacity := by decide
theorem test_decode_embed : decode (0#28 ++ 0b0101#4) = .ok .embed := by decide
theorem test_decode_extract : decode (0#28 ++ 0b0110#4) = .ok .extract := by decide
theorem test_decode_illegal : decode 0x7 = .error .reservedOpcode ∧
    decode 0x15 = .error .reservedBits := by decide
theorem test_table_word : decodeTableWord 32 0x5 = some .embed ∧ decodeTableWord 32 0x10 = none := by
  decide

/-! ## Bit primitives (V1 to V6c) -/

theorem test_frame : frame [0x41, 0x42] =
    [false, false, false, false, false, false, true, false] ++ List.replicate 24 false ++
    [false, true, false, false, false, false, false, true,
     false, true, false, false, false, false, true, false] := by decide
theorem test_reassemble : reassemble [false, true, false, false, false, false, false, true, false, true]
    = [0x41] := by decide
theorem test_slice : slicePayload [2, 0, 0, 0, 0x41, 0x42] = some [0x41, 0x42] ∧
    slicePayload [0xFF, 0xFF, 0xFF, 0xFF, 0, 0] = none ∧ slicePayload [1, 2, 3] = none := by decide
theorem test_lsb_put : lsbPut 0x37 false = 0x36 ∧ lsbPut 0xFE true = 0xFF ∧ lsbPut 0x80 false = 0x80 := by
  decide

/-! ## Commands (V7 to V42) -/

/-- V30: NOP from 0x506. -/
theorem test_nop : statusWord (exec .nop framed) = 0x2 := by decide +kernel

/-- V40a: the hash, and byte 0x4020 untouched. -/
theorem test_derive_key :
    let t := execWith toy .deriveKey (idle (cryptoOps 0 40) 0x4020 [0x77])
    statusWord t = 0x2 ∧ (after t).outLen = 32 ∧ Memory.read (after t).mem 0x4020 = 0x77 := by
  decide +kernel
/-- V40b: OUT_CAP 31. -/
theorem test_derive_key_overflow :
    statusWord (execWith toy .deriveKey (idle (cryptoOps 2 31) 0 [])) = 0x606 := by decide +kernel

/-- V41b: 30 bytes, the nonce first. -/
theorem test_seal :
    let t := execWith toy .sealPlain (idle (cryptoOps 2 30) 0x3000 [0x68, 0x69])
    statusWord t = 0x2 ∧ (after t).outLen = 30 ∧ (after t).draws = 1 ∧
    Memory.readAll (after t).mem 0x400B 4 = [11, 0x68, 0x69, 0] := by decide +kernel
/-- V41a: OUT_CAP 27, and no draw. -/
theorem test_seal_overflow :
    let t := execWith toy .sealPlain (idle (cryptoOps 0 27) 0 [])
    statusWord t = 0x606 ∧ (after t).draws = 0 := by decide +kernel

/-- V42e: the plaintext of V41b's 30 bytes. -/
theorem test_open :
    let t := execWith toy .openSealed (idle (cryptoOps 30 2) 0x300C [0x68, 0x69])
    statusWord t = 0x2 ∧ (after t).outLen = 2 ∧
    Memory.readAll (after t).mem 0x4000 3 = [0x68, 0x69, 0] := by decide +kernel
/-- V42a, V42b: 11 bytes are MALFORMED, 12 and 27 are AUTH_FAIL. -/
theorem test_open_short :
    statusWord (execWith toy .openSealed (idle (cryptoOps 11 2) 0 [])) = 0x706 ∧
    statusWord (execWith toy .openSealed (idle (cryptoOps 12 2) 0 [])) = 0x806 ∧
    statusWord (execWith toy .openSealed (idle (cryptoOps 27 2) 0 [])) = 0x806 := by decide +kernel

/-- The operands of a CAPACITY vector. -/
def capacityOps (w h len : Word) : Operands :=
  { Operands.reset with width := w, height := h, inLen := len }

/-- V7e, V7f: an exact fit on a large grid, and one byte more. -/
theorem test_capacity_exact :
    let t := exec .capacity (idle (capacityOps 0x8000 0x8000 0x17FFFFFC) 0 [])
    let u := exec .capacity (idle (capacityOps 0x8000 0x8000 0x17FFFFFD) 0 [])
    statusWord t = 0x22 ∧ (after t).capBits = 0xC0000000 ∧ statusWord u = 0x2 := by decide +kernel
/-- V7g, V7h: CAP_BITS saturates, FITS does not. -/
theorem test_capacity_saturates :
    let t := exec .capacity (idle (capacityOps 0x10000 0x10000 0xFFFFFFFF) 0 [])
    let u := exec .capacity (idle (capacityOps 0xFFFFFFFF 0xFFFFFFFF 0) 0 [])
    statusWord t = 0x2 ∧ (after t).capBits = 0xFFFFFFFF ∧ statusWord u = 0x22 := by decide +kernel

/-- V10: pixels 0 to 3 and 15 of the destination. -/
theorem test_embed :
    let t := exec .embed (v10 2 false)
    statusWord t = 0x22 ∧ (after t).capBits = 0x30 ∧
    Memory.readAll (after t).mem 0x2000 16 =
      [0x10, 0x80, 0xF0, 0xFF, 0x10, 0x80, 0xEE, 0xFF, 0x13, 0x82, 0xEE, 0xFF, 0x12, 0x82, 0xEC, 0xFF] ∧
    Memory.readAll (after t).mem 0x203C 4 = [0x1E, 0x8F, 0xE0, 0xFF] := by decide +kernel
/-- V21: a bus error on the write of 0x2006. -/
theorem test_embed_bus_error :
    let t := exec .embed (withBusError .write 0x2006 (v10 2 false))
    statusWord t = 0xB26 ∧ (after t).errAddr = 0x2006 ∧
    Memory.readAll (after t).mem 0x2004 4 = [0x10, 0x80, 0, 0] := by decide +kernel

/-- V11: EXTRACT right after V10. -/
theorem test_extract :
    let t := exec .extract (v11 4 4 64 (after (exec .embed (v10 2 false))))
    statusWord t = 0x22 ∧ (after t).outLen = 2 ∧
    Memory.readAll (after t).mem 0x4000 3 = [0x41, 0x42, 0] := by decide +kernel
/-- V27: a bus error on the read of 0x1005. -/
theorem test_extract_bus_error :
    let t := exec .extract (withBusError .read 0x1005 (v10 2 false))
    statusWord t = 0xB06 ∧ (after t).errAddr = 0x1005 := by decide +kernel

/-! ## The register window (V31 to V36) -/

theorem test_illegal_word :
    (hostWrite 0x04 4 0x15 framed).status.toWord = 0x106 ∧
    (hostWrite 0x04 4 0x7 framed).status.toWord = 0x106 := by decide +kernel
theorem test_version : (hostRead 0x00 4 State.reset).response = .word 0x20100C01 := by decide +kernel
theorem test_ctrl_bits :
    (hostRead 0x08 4 (hostWrite 0x08 4 0xFFFFFFFF State.reset)).response = .word 3 := by decide +kernel
theorem test_status_w1c :
    (hostWrite 0x0C 4 0x4 framed).status.toWord = 0x502 ∧
    (hostWrite 0x0C 4 0x11 framed).status.toWord = 0x506 := by decide +kernel
theorem test_reserved_offset :
    (hostRead 0x40 4 (hostWrite 0x40 4 0x12345678 State.reset)).response = .word 0 ∧
    (hostWrite 0x40 4 0x12345678 State.reset).status.overrun = false := by decide +kernel

/-- A step from reset runs the word that is placed for it (log 3). -/
theorem test_step_runs_word :
    statusWord (step (State.reset.withFetchWord 32 4)) = 0x2 ∧
    statusWord (step (State.reset.withFetchWord 32 5)) = 0x406 := by decide +kernel

/-! ## Witnesses: states and operands that meet the hypotheses of each obligation, clause by clause -/

/-- Where the platform has no bus error for a direction and no device memory, a region inside data memory
can be accessed. -/
theorem accessible_of_clean {p : Platform} {r : Region} (dir : Dir)
    (hr : p.readErrors = []) (hw : p.writeErrors = []) (hd : p.devices = [])
    (h : r.rangeOk = true) : r.accessible p dir := by
  intro a ha
  rw [accessHalt_none_iff]
  simp only [Region.contains, Bool.and_eq_true, decide_eq_true_eq] at ha
  simp only [Region.rangeOk, rangeOk, decide_eq_true_eq] at h
  refine ⟨?_, ?_, ?_⟩
  · simp only [Config.addressSpace]; omega
  · cases dir <;> simp [busOk, hr, hw]
  · simp [isDevice, hd]

theorem witness_DecodeIsTotalAndExact :
    (16#32).toNat / 16 ≠ 0 ∧ (0xFFFFFFFF#32).toNat / 16 ≠ 0 ∧
    ((7#32).toNat / 16 = 0 ∧ 7 ≤ (7#32).toNat % 16) ∧
    ((15#32).toNat / 16 = 0 ∧ 7 ≤ (15#32).toNat % 16) ∧
    (0#32).toNat = 0 ∧ (1#32).toNat = 1 ∧ (2#32).toNat = 2 ∧ (3#32).toNat = 3 ∧ (4#32).toNat = 4 ∧
    (5#32).toNat = 5 ∧ (6#32).toNat = 6 ∧ decode 7 = .error .reservedOpcode ∧
    decode 16 = .error .reservedBits := by decide

theorem witness_AssemblerTakesMnemonicsOnly : ∀ i : Instr, "EMBED 1" ≠ i.mnemonic := by
  intro i; cases i <;> decide

theorem witness_ReservedOffsetsReadZeroIgnoreWrites :
    (0x40 ≤ 0x40 ∧ 0x40 ≤ 0xFC ∧ 0x40 % 4 = 0) ∧ (0x40 ≤ 0xFC ∧ 0xFC ≤ 0xFC ∧ 0xFC % 4 = 0) := by decide

/-- For a window at 0x8000: a byte at its start, a misaligned word at its end, a word that reaches into it
from below, and accesses of no byte of it. -/
theorem witness_OnlyAlignedWordAccessesAct :
    let base := 0x8000
    (0 < 1 ∧ base ≤ 0x8000 ∧ 0x8000 < base + 256 ∧ (1 ≠ 4 ∨ (0x8000 - base) % 4 ≠ 0)) ∧
    (0 < 4 ∧ base ≤ 0x80FF ∧ 0x80FF < base + 256 ∧ (4 ≠ 4 ∨ (0x80FF - base) % 4 ≠ 0)) ∧
    (0 < 4 ∧ 0x7FFD < base + 256 ∧ base < 0x7FFD + 4 ∧
      (4 ≠ 4 ∨ 0x7FFD < base ∨ (0x7FFD - base) % 4 ≠ 0)) ∧
    (base + 256 ≤ 0x8100 ∧ 0x7FFC + 4 ≤ base) := by decide

theorem witness_RegisterMapByOffset :
    framed.status.busy = false ∧ State.reset.plat.nonceSize.val = 12 ∧
    (0x40 ≤ 0xFC ∧ 0xFC ≤ 0xFC ∧ 0xFC % 4 = 0) ∧ (0x04 ≤ 0x3C ∧ 0x3C ≤ 0x3C ∧ 0x3C % 4 = 0) := by decide

theorem witness_VersionWordFields : State.reset.plat.nonceSize.val = 12 := rfl

theorem witness_WriteThenReadBack :
    isReadWrite .ctrl = true ∧ isReadWrite .srcBase = true ∧ isReadWrite .keyBase = true ∧
    State.reset.status.busy = false ∧ (running .nop Operands.reset).status.busy = true := by decide

theorem witness_WritesWhileBusyAreIgnored : (running .embed (codecOps 2)).status.busy = true := by decide

/-- A host that writes 1 to bit 3 of STATUS after an overrun. -/
def clearsOverrun : State :=
  { State.reset with status := { Status.reset with overrun := true },
                     program := [.wr 0 .status 8] }

theorem witness_OverrunClearedOnlyByHostOrReset :
    (running .nop Operands.reset).status.busy = true ∧ (8#32).getLsbD 3 = true ∧
    (step clearsOverrun = .next (after (step clearsOverrun)) ∧ clearsOverrun.status.overrun = true ∧
      (after (step clearsOverrun)).status.overrun = false) :=
  ⟨by decide, by decide, eq_next (by decide +kernel), by decide, by decide +kernel⟩

theorem witness_AcceptanceClearsAndStarts :
    framed.status.busy = false ∧ decode 5 = .ok .embed ∧ decode 7 = .error .reservedOpcode := by decide

/-- The one engine step of NOP. -/
theorem witness_EngineEndsOnlyByCompletion :
    let s := running .nop Operands.reset
    s.status.busy = true ∧ engineStep toy false s = .next (after (engineStep toy false s)) ∧
    (after (engineStep toy false s)).status.busy = false :=
  ⟨by decide, eq_next (by decide +kernel), by decide +kernel⟩

theorem witness_IrqFollowsDoneAndEnable :
    framed.status.busy = false ∧ exec .nop framed = .next (after (exec .nop framed)) ∧
    (2#32).getLsbD 1 = true ∧ decode 0 = .ok .nop ∧ decode 7 = .error .reservedOpcode :=
  ⟨by decide, eq_next (by decide +kernel), by decide, by decide, by decide⟩

theorem witness_ResetKeepsMemoryAndIdles :
    let s := { running .embed (codecOps 2) with turns := [.reset] }
    s.turns = .reset :: [] ∧ decode 6 = .ok .extract := by decide

/-- CAPACITY of V13 is an error of EMBED; the next command word is EXTRACT's. -/
theorem witness_ReturnFromError :
    let s := v10 3 false
    s.status.busy = false ∧ exec .embed s = .next (after (exec .embed s)) ∧
    (after (exec .embed s)).status.errcode ≠ .noError ∧ decode 6 = .ok .extract :=
  ⟨rfl, eq_next (by decide +kernel), by decide +kernel, by decide⟩

theorem witness_FrameBitLayout : ([0x41, 0x42] : Bytes).length < 2 ^ 32 := by decide

theorem witness_NopCompletes :
    framed.status.busy = false ∧ (running .nop Operands.reset).status.busy = true := by decide

theorem witness_CapacityReportsCapBitsAndFits :
    (idle (capacityOps 4 4 2) 0 []).status.busy = false := by decide

/-- DERIVE_KEY of two bytes into exactly 32. -/
theorem witness_DeriveKeyWritesTheHash :
    let s := idle (cryptoOps 2 32) 0x3000 [0x70, 0x77]
    s.status.busy = false ∧ rangeOk s.ops.inBase.toNat s.ops.inLen.toNat = true ∧
    rangeOk s.ops.outBase.toNat s.ops.outCap.toNat = true ∧
    overlaps s.ops.inBase.toNat s.ops.inLen.toNat s.ops.outBase.toNat s.ops.outCap.toNat = false ∧
    32 ≤ s.ops.outCap.toNat ∧ s.ops.inBuffer.accessible s.plat .read ∧
    Region.accessible s.plat ⟨s.ops.outBase.toNat, 32⟩ .write :=
  ⟨by decide, by decide, by decide, by decide, by decide,
    accessible_of_clean .read rfl rfl rfl (by decide), accessible_of_clean .write rfl rfl rfl (by decide)⟩

theorem witness_DeriveKeyParameterErrors :
    let inTop := idle { cryptoOps 2 32 with inBase := 0xFFFFFFFF } 0 []
    let outTop := idle { cryptoOps 2 32 with outBase := 0xFFFFFFE1 } 0 []
    let crossing := idle { cryptoOps 2 32 with outBase := 0x3001 } 0 []
    let short := idle (cryptoOps 2 31) 0 []
    inTop.status.busy = false ∧
    rangeOk inTop.ops.inBase.toNat inTop.ops.inLen.toNat = false ∧
    rangeOk outTop.ops.outBase.toNat outTop.ops.outCap.toNat = false ∧
    (checkDeriveKey crossing.ops = some .overlap ∧
      rangeOk crossing.ops.inBase.toNat crossing.ops.inLen.toNat = true ∧
      rangeOk crossing.ops.outBase.toNat crossing.ops.outCap.toNat = true ∧
      overlaps crossing.ops.inBase.toNat crossing.ops.inLen.toNat crossing.ops.outBase.toNat
        crossing.ops.outCap.toNat = true) ∧
    (rangeOk short.ops.inBase.toNat short.ops.inLen.toNat = true ∧
      rangeOk short.ops.outBase.toNat short.ops.outCap.toNat = true ∧
      overlaps short.ops.inBase.toNat short.ops.inLen.toNat short.ops.outBase.toNat
        short.ops.outCap.toNat = false ∧ short.ops.outCap.toNat < 32) := by decide

/-- A read error at the last IN byte, and a write error at the last key byte. -/
theorem witness_DeriveKeyBusErrors :
    let s := withBusError .read 0x3001 (idle (cryptoOps 2 32) 0 [])
    let w := withBusError .write 0x401F (idle (cryptoOps 2 32) 0 [])
    (s.status.busy = false ∧ rangeOk s.ops.inBase.toNat s.ops.inLen.toNat = true ∧
      rangeOk s.ops.outBase.toNat s.ops.outCap.toNat = true ∧
      overlaps s.ops.inBase.toNat s.ops.inLen.toNat s.ops.outBase.toNat s.ops.outCap.toNat = false ∧
      32 ≤ s.ops.outCap.toNat) ∧
    (1 < s.ops.inLen.toNat ∧ busOk s.plat (s.ops.inBase.toNat + 1) .read = false ∧
      ∀ k, k < 1 → accessHalt s.plat (s.ops.inBase.toNat + k) .read = none) ∧
    (w.status.busy = false ∧ 31 < 32 ∧ busOk w.plat (w.ops.outBase.toNat + 31) .write = false ∧
      ∀ k, k < 31 → accessHalt w.plat (w.ops.outBase.toNat + k) .write = none) ∧
    w.ops.inBuffer.accessible w.plat .read := by
  refine ⟨by decide, by decide, by decide, ?_⟩
  have h : (idle (cryptoOps 2 32) 0 []).ops.inBuffer.accessible State.reset.plat .read :=
    accessible_of_clean .read rfl rfl rfl (by decide)
  intro a ha
  rw [accessHalt_none_iff]
  obtain ⟨h1, -, -⟩ := accessHalt_none_iff.mp (h a ha)
  exact ⟨h1, rfl, rfl⟩

/-- SEAL of two bytes into exactly 30. -/
theorem witness_SealFollowsThePort :
    let s := idle (cryptoOps 2 30) 0x3000 [0x68, 0x69]
    s.status.busy = false ∧ rangeOk s.ops.inBase.toNat s.ops.inLen.toNat = true ∧
    rangeOk s.ops.outBase.toNat s.ops.outCap.toNat = true ∧ rangeOk s.ops.keyBase.toNat 32 = true ∧
    overlaps s.ops.outBase.toNat s.ops.outCap.toNat s.ops.inBase.toNat s.ops.inLen.toNat = false ∧
    overlaps s.ops.outBase.toNat s.ops.outCap.toNat s.ops.keyBase.toNat 32 = false ∧
    s.plat.nonceSize.val + s.ops.inLen.toNat + 16 ≤ s.ops.outCap.toNat ∧
    s.ops.keyBuffer.accessible s.plat .read ∧ s.ops.inBuffer.accessible s.plat .read ∧
    Region.accessible s.plat
      ⟨s.ops.outBase.toNat, s.plat.nonceSize.val + s.ops.inLen.toNat + 16⟩ .write :=
  ⟨by decide, by decide, by decide, by decide, by decide, by decide, by decide,
    accessible_of_clean .read rfl rfl rfl (by decide),
    accessible_of_clean .read rfl rfl rfl (by decide),
    accessible_of_clean .write rfl rfl rfl (by decide)⟩

/-- The parameter checks of SEAL and OPEN as their statements write them. -/
def rangesHold (o : Operands) : Bool :=
  rangeOk o.inBase.toNat o.inLen.toNat && rangeOk o.outBase.toNat o.outCap.toNat &&
    rangeOk o.keyBase.toNat 32

/-- The overlap check of SEAL and OPEN as their statements write it. -/
def regionsCross (o : Operands) : Bool :=
  overlaps o.outBase.toNat o.outCap.toNat o.inBase.toNat o.inLen.toNat ||
    overlaps o.outBase.toNat o.outCap.toNat o.keyBase.toNat 32

theorem witness_SealParameterErrors :
    (idle (cryptoOps 2 30) 0 []).status.busy = false ∧
    rangesHold { cryptoOps 2 30 with keyBase := 0xFFFFFFE1 } = false ∧
    (rangesHold { cryptoOps 2 30 with keyBase := 0x401D } = true ∧
      regionsCross { cryptoOps 2 30 with keyBase := 0x401D } = true) ∧
    (rangesHold (cryptoOps 2 29) = true ∧ regionsCross (cryptoOps 2 29) = false ∧
      12 + (cryptoOps 2 29).inLen.toNat + 16 > (cryptoOps 2 29).outCap.toNat) := by decide

/-- OPEN of 30 bytes into exactly 2, and of 28 into none. -/
theorem witness_OpenFollowsThePort :
    let s := idle (cryptoOps 30 2) 0x3000 [0x68, 0x69]
    let plainLen := s.ops.inLen.toNat - s.plat.nonceSize.val - 16
    s.status.busy = false ∧ rangeOk s.ops.inBase.toNat s.ops.inLen.toNat = true ∧
    rangeOk s.ops.outBase.toNat s.ops.outCap.toNat = true ∧ rangeOk s.ops.keyBase.toNat 32 = true ∧
    overlaps s.ops.outBase.toNat s.ops.outCap.toNat s.ops.inBase.toNat s.ops.inLen.toNat = false ∧
    overlaps s.ops.outBase.toNat s.ops.outCap.toNat s.ops.keyBase.toNat 32 = false ∧
    s.plat.nonceSize.val + 16 ≤ s.ops.inLen.toNat ∧ plainLen ≤ s.ops.outCap.toNat ∧
    s.ops.keyBuffer.accessible s.plat .read ∧ s.ops.inBuffer.accessible s.plat .read ∧
    Region.accessible s.plat ⟨s.ops.outBase.toNat, plainLen⟩ .write :=
  ⟨by decide, by decide, by decide, by decide, by decide, by decide, by decide, by decide,
    accessible_of_clean .read rfl rfl rfl (by decide),
    accessible_of_clean .read rfl rfl rfl (by decide),
    accessible_of_clean .write rfl rfl rfl (by decide)⟩

theorem witness_OpenParameterErrors :
    (idle (cryptoOps 30 2) 0 []).status.busy = false ∧
    rangesHold { cryptoOps 30 2 with inBase := 0xFFFFFFE3 } = false ∧
    (rangesHold { cryptoOps 30 2 with outBase := 0x301D } = true ∧
      regionsCross { cryptoOps 30 2 with outBase := 0x301D } = true) ∧
    (rangesHold (cryptoOps 11 2) = true ∧ regionsCross (cryptoOps 11 2) = false ∧
      (cryptoOps 11 2).inLen.toNat < 12) ∧
    (regionsCross (cryptoOps 12 2) = false ∧ 12 ≤ (cryptoOps 12 2).inLen.toNat ∧
      (cryptoOps 12 2).inLen.toNat < 12 + 16) ∧
    (regionsCross (cryptoOps 27 2) = false ∧ 12 ≤ (cryptoOps 27 2).inLen.toNat ∧
      (cryptoOps 27 2).inLen.toNat < 12 + 16) ∧
    (regionsCross (cryptoOps 30 1) = false ∧ 12 + 16 ≤ (cryptoOps 30 1).inLen.toNat ∧
      (cryptoOps 30 1).outCap.toNat < (cryptoOps 30 1).inLen.toNat - 12 - 16) := by decide

/-- What EMBED's statement asks of a state, but for the accesses. -/
def embedReady (s : State) : Bool :=
  !s.status.busy && s.ops.srcGrid.rangeOk && s.ops.dstGrid.rangeOk && s.ops.inBuffer.rangeOk &&
    !s.ops.dstGrid.overlaps s.ops.srcGrid && !s.ops.dstGrid.overlaps s.ops.inBuffer &&
    (decide (32 + 8 * s.ops.inLen.toNat ≤ 3 * (s.ops.width.toNat * s.ops.height.toNat)) ||
      s.ctrl.truncPolicy)

/-- The exact fit of V10 under the hardened policy, and the cut frame of V14 under the legacy policy, where
the byte at 0x3002 that has no room cannot be read. -/
theorem witness_EmbedWritesTheFrame :
    let s := v10 2 false
    let u := withBusError .read 0x3002 (v10 3 true)
    embedReady s = true ∧ embedReady u = true ∧
    s.ops.srcGrid.accessible s.plat .read ∧ s.ops.dstGrid.accessible s.plat .write ∧
    u.ops.dstGrid.accessible u.plat .write ∧
    (∀ n, n < 2 → 32 + 8 * n < 48 → accessHalt s.plat (s.ops.inBase.toNat + n) .read = none) ∧
    (∀ n, n < 3 → 32 + 8 * n < 48 → accessHalt u.plat (u.ops.inBase.toNat + n) .read = none) := by
  refine ⟨by decide +kernel, by decide +kernel,
    accessible_of_clean .read rfl rfl rfl (by decide +kernel),
    accessible_of_clean .write rfl rfl rfl (by decide +kernel), ?_, by decide +kernel, by decide +kernel⟩
  intro a ha
  have h : (v10 3 true).ops.dstGrid.accessible State.reset.plat .write :=
    accessible_of_clean .write rfl rfl rfl (by decide +kernel)
  rw [accessHalt_none_iff]
  obtain ⟨h1, -, -⟩ := accessHalt_none_iff.mp (h a ha)
  exact ⟨h1, rfl, rfl⟩

/-- The parameter checks of EMBED as its statement writes them: ranges, overlap. -/
def embedChecks (o : Operands) : Bool × Bool :=
  (o.srcGrid.rangeOk && o.dstGrid.rangeOk && o.inBuffer.rangeOk,
    o.dstGrid.overlaps o.srcGrid || o.dstGrid.overlaps o.inBuffer)

theorem witness_EmbedParameterErrors :
    (v10 2 false).status.busy = false ∧
    (embedChecks { codecOps 0 with srcBase := 0xFFFFFFF0, width := 2, height := 3 }).1 = false ∧
    embedChecks { codecOps 2 with inBase := 0x203F } = (true, true) ∧
    (embedChecks (codecOps 3) = (true, false) ∧ 32 + 8 * (codecOps 3).inLen.toNat > 48 ∧
      (v10 3 false).ctrl.truncPolicy = false) := by decide +kernel

theorem witness_EmbedPreservesTheRest :
    let s := v10 2 false
    s.status.busy = false ∧ exec .embed s = .next (after (exec .embed s)) ∧
    (after (exec .embed s)).status.errcode = .noError :=
  ⟨rfl, eq_next (by decide +kernel), by decide +kernel⟩

/-- V21 for a destination write; a source read and a payload read that fail. -/
theorem witness_EmbedBusErrorLeavesPrefix :
    let s := withBusError .write 0x2006 (v10 2 false)
    let u := withBusError .read 0x1004 (v10 2 false)
    let w := withBusError .read 0x3001 (v10 2 false)
    (s.status.busy = false ∧ exec .embed s = .next (after (exec .embed s)) ∧
      (after (exec .embed s)).status.errcode = .busError) ∧
    (after (exec .embed u)).status.errcode = .busError ∧ (after (exec .embed u)).errAddr = 0x1004 ∧
    (after (exec .embed w)).status.errcode = .busError ∧ (after (exec .embed w)).errAddr = 0x3001 :=
  ⟨⟨rfl, eq_next (by decide +kernel), by decide +kernel⟩, by decide +kernel, by decide +kernel,
    by decide +kernel, by decide +kernel⟩

/-- What EXTRACT's statement asks of a state, but for the accesses. -/
def extractReady (s : State) : Bool :=
  !s.status.busy && s.ops.srcGrid.rangeOk && s.ops.outBuffer.rangeOk &&
    !s.ops.outBuffer.overlaps s.ops.srcGrid

/-- The declared bytes (V11), one byte of room too few (V12), and FRAMING (V22). -/
theorem witness_ExtractReturnsTheDeclaredBytes :
    let s := v11 4 4 2 (after (exec .embed (v10 2 false)))
    let f := v10 2 false
    (extractReady s = true ∧ u32le (reassemble (slotBits s)) = s.ops.outCap.toNat ∧
      (reassemble (slotBits s)).length = 4 + 2) ∧
    (∀ j, j < 48 → accessHalt s.plat (s.ops.srcBase.toNat + slotOffset j) .read = none) ∧
    Region.accessible s.plat ⟨s.ops.outBase.toNat, 2⟩ .write ∧
    (extractReady f = true ∧ 4 + u32le (reassemble (slotBits f)) > (reassemble (slotBits f)).length) ∧
    (extractReady (v11 4 4 1 s) = true ∧ u32le (reassemble (slotBits s)) > 1) :=
  ⟨by decide +kernel, by decide +kernel, accessible_of_clean .write rfl rfl rfl (by decide +kernel),
    by decide +kernel, by decide +kernel⟩

theorem witness_ExtractParameterErrors :
    let s := v10 2 false
    let o := { s.ops with outBase := 0xFFFFFFFF, outCap := 2 }
    let c := { s.ops with outBase := 0x103F, outCap := 1 }
    s.status.busy = false ∧ (o.srcGrid.rangeOk && o.outBuffer.rangeOk) = false ∧
    ((c.srcGrid.rangeOk && c.outBuffer.rangeOk) = true ∧ c.outBuffer.overlaps c.srcGrid = true) := by
  decide +kernel

theorem witness_BusErrorRecordsTheAddress :
    (let r := withBusError .read 0x3000 (running .deriveKey (cryptoOps 2 32))
     r.status.busy = true ∧ (planStep r).2 = .read 0x3000 ∧ busOk r.plat 0x3000 .read = false) ∧
    (let w := withBusError .write 0x4000 (running .deriveKey (cryptoOps 2 32))
     let u := { w with engine := { w.engine with phase := .output, output := [7] } }
     u.status.busy = true ∧ (planStep u).2 = .write 0x4000 7 ∧ busOk u.plat 0x4000 .write = false) ∧
    let s := withBusError .write 0x2006 (v10 2 false)
    s.status.busy = false ∧ exec .embed s = .next (after (exec .embed s)) ∧
    (after (exec .embed s)).status.errcode = .busError :=
  ⟨by decide +kernel, by decide +kernel, rfl, eq_next (by decide +kernel), by decide +kernel⟩

/-- A read error, and a write error of the second output byte. -/
theorem witness_OutputBusErrorKeepsTheRest :
    let s := withBusError .read 0x1005 (v10 2 false)
    let u := withBusError .write 0x4001 (v11 4 4 64 (after (exec .embed (v10 2 false))))
    (s.status.busy = false ∧ exec .extract s = .next (after (exec .extract s)) ∧
      (after (exec .extract s)).status.errcode = .busError ∧
      s.ops.outBuffer.contains (after (exec .extract s)).errAddr.toNat = false) ∧
    (u.status.busy = false ∧ exec .extract u = .next (after (exec .extract u)) ∧
      (after (exec .extract u)).status.errcode = .busError ∧
      (after (exec .extract u)).errAddr = 0x4001 ∧
      u.ops.outBuffer.contains (after (exec .extract u)).errAddr.toNat = true) :=
  ⟨⟨rfl, eq_next (by decide +kernel), by decide +kernel, by decide +kernel⟩,
    ⟨by decide +kernel, eq_next (by decide +kernel), by decide +kernel, by decide +kernel⟩⟩

theorem witness_CommandFrame :
    (framed.status.busy = false ∧ exec .nop framed = .next (after (exec .nop framed))) ∧
    (let s := v11 4 4 64 (after (exec .embed (v10 2 false)))
     s.status.busy = false ∧ exec .extract s = .next (after (exec .extract s)) ∧
     (after (exec .extract s)).status.errcode = .noError) :=
  ⟨⟨rfl, eq_next (by decide +kernel)⟩, by decide +kernel, eq_next (by decide +kernel), by decide +kernel⟩

/-- A state whose IN buffer is device memory. -/
def deviceIn : State :=
  { idle (cryptoOps 2 32) 0 [] with
      plat := { Config.resetPlatform with devices := [{ base := 0x3000, size := 1 }] } }

theorem witness_EveryCommandCompletes :
    deviceIn.status.busy = false ∧ exec .deriveKey deviceIn = .refused (.deviceMemory 0x3000) ∧
    noDeviceOperand .embed (v10 2 false) :=
  ⟨by decide, rfl, fun _ _ _ _ => rfl⟩

theorem witness_StepRunsTheDecodedCommand :
    let s := { State.reset with program := [.run 4] }
    s.status.busy = false ∧ s.program = .run 4 :: [] ∧ decode 4 = .ok .capacity ∧
    (s.turns = [] ∨ s.turns.head? = some .host) := by decide

theorem witness_PollRepeatsUntilMatch :
    let s := { State.reset with turns := [.host], program := [.poll (Reg.address 0 .status) 2 2] }
    s.turns.head? = some .host ∧ s.program = .poll (Reg.status.address s.plat.codecBase) 2 2 :: [] ∧
    readReg s .status &&& 2 ≠ 2 ∧ readReg { s with status := framed.status } .status &&& 2 = 2 ∧
    ({ s with turns := [] }.turns = [] ∧ { s with turns := [] }.status.busy = false) := by decide

theorem witness_EndOfRunStays :
    (framed.status.busy = false ∧ framed.program = [] ∧ framed.turns = []) ∧
    ((running .embed (codecOps 2)).status.busy = true ∧ (running .embed (codecOps 2)).turns = []) := by
  decide

theorem reset_registersAgree : registersAgree State.reset := by unfold registersAgree; decide

/-- A command that has just been accepted meets the invariant. -/
theorem running_inv (i : Instr) (o : Operands) : (running i o).Inv := by
  refine ⟨rfl, ?_, ?_⟩
  · unfold registersAgree; simp [running, accept, beginCommand, clearForCommand, State.reset, Status.reset]
  · intro _
    refine ⟨⟨rfl, rfl⟩, fun h => absurd rfl h⟩

/-- A step of the engine and a step of the host. -/
theorem witness_StepKeepsInvariant :
    ((running .deriveKey (cryptoOps 2 32)).Inv ∧
      step (running .deriveKey (cryptoOps 2 32)) =
        .next (after (step (running .deriveKey (cryptoOps 2 32))))) ∧
    (State.reset.Inv ∧ step (State.reset.withFetchWord 32 4) =
      .next (after (step (State.reset.withFetchWord 32 4)))) :=
  ⟨⟨running_inv _ _, eq_next (by decide +kernel)⟩,
    ⟨rfl, reset_registersAgree, fun h => by cases h⟩, eq_next (by decide +kernel)⟩

theorem witness_InvariantStepsNeverFault : (running .extract (codecOps 2)).Inv := running_inv _ _

theorem witness_EngineStepsRefineTheMeaning : (v10 2 false).status.busy = false := rfl

theorem witness_RunIsWriteThenPoll :
    let s := { State.reset with program := [.run 4] }
    s.status.busy = false ∧ s.turns = [] ∧ s.program = .run 4 :: [] ∧ decode 4 = .ok .capacity := by decide

/-- The first read of DERIVE_KEY, and the first write of an output. -/
theorem witness_EngineStepWritesOneByte :
    let s := running .deriveKey (cryptoOps 2 32)
    let w := { s with engine := { s.engine with phase := .output, output := [7] } }
    (s.status.busy = true ∧ engineStep toy false s = .next (after (engineStep toy false s)) ∧
      (planStep s).2 = .read 0x3000) ∧
    (w.status.busy = true ∧ engineStep toy false w = .next (after (engineStep toy false w)) ∧
      (planStep w).2 = .write 0x4000 7) :=
  ⟨⟨by decide, eq_next (by decide +kernel), by decide +kernel⟩,
    by decide, eq_next (by decide +kernel), by decide +kernel⟩

theorem witness_EngineWritesStayInRegions :
    let s := running .deriveKey (cryptoOps 2 32)
    s.Inv ∧ s.status.busy = true ∧ engineStep toy false s = .next (after (engineStep toy false s)) ∧
    ∀ r ∈ writeRegions s.engine.curOp s.ops, r.contains 0x4020 = false :=
  ⟨running_inv _ _, by decide, eq_next (by decide +kernel), by decide⟩

theorem witness_RunningCommandReachesDone :
    let s := running .extract (codecOps 2)
    s.Inv ∧ s.status.busy = true ∧ s.turns = [] ∧ s.plat.devices = [] :=
  ⟨running_inv _ _, rfl, rfl, rfl⟩

theorem witness_OperandsFixedWhileBusy :
    let s := running .extract (codecOps 2)
    s.status.busy = true ∧ step s = .next (after (step s)) ∧ s.turns.head? ≠ some .reset :=
  ⟨rfl, eq_next (by decide +kernel), by decide⟩

theorem witness_PlatformNeverChanges : step State.reset = .next (after (step State.reset)) :=
  eq_next (by decide +kernel)

theorem witness_RacedBytesAreFree :
    let s := running .deriveKey (cryptoOps 2 32)
    let r := { s with raced := [0x4000] }
    accessHalt s.plat 0x3000 .read = none ∧
    engineWrite r 0x4000 7 =
      .ok { r with mem := Memory.write r.mem 0x4000 (Config.freeByte r.free), free := r.free + 1 } ∧
    inCommandRegion s 0x3001 = true ∧ inWrittenRegion s 0x401F = true ∧
    (inWrittenRegion s 0x3001 = false ∧ inCommandRegion s 0x3001 = true) ∧
    (inWrittenRegion s 0x3002 = false ∧ inCommandRegion s 0x3002 = false) ∧
    inCommandRegion State.reset 0x3001 = false := by
  refine ⟨by decide, ?_, by decide, by decide, by decide, by decide, by decide⟩
  rfl

/-- A store to come is to another byte than the one read; and no turn to come races at all. -/
theorem witness_EngineTurnsAreExactOutsideRaces :
    let s := { running .deriveKey (cryptoOps 2 32) with
                 turns := [.engine, .other (.store 0x3001 9)] }
    let u := { s with turns := [.engine, .other (.store 0x8000 9)] }
    0x3000 ∉ s.raced ∧ accessHalt s.plat 0x3000 .read = none ∧
    accessHalt s.plat 0x4000 .write = none ∧
    (s.turns = .engine :: [.other (.store 0x3001 9)] ∧
      (planStep { s with turns := [.other (.store 0x3001 9)] }).2 ≠ .read (0x3001#32).toNat ∧
      s.program = []) ∧
    (u.turns = .engine :: [.other (.store 0x8000 9)] ∧ raceToCome u.turns u = false) := by
  decide +kernel

/-- DERIVE_KEY of two bytes, whose first read comes before another agent's store to that byte. -/
def storeAfterRead : State :=
  { running .deriveKey (cryptoOps 2 32) with turns := [.engine, .other (.store 0x3000 9)] }

theorem witness_ReadBeforeStoreIsFree :
    let s := storeAfterRead
    let u := after (step s)
    s.status.busy = true ∧ s.turns = .engine :: [.other (.store 0x3000 9)] ∧
    (planStep { s with turns := [.other (.store 0x3000 9)] }).2 = .read (0x3000#32).toNat ∧
    inCommandRegion s (0x3000#32).toNat = true ∧ accessHalt s.plat (0x3000#32).toNat .read = none ∧
    step s = .next u ∧ runsBusy 0 u u ∧ u.status.busy = true ∧ nextHostOp u = some (.store 0x3000 9) :=
  ⟨by decide, rfl, by decide, by decide, by decide, eq_next (by decide +kernel), rfl,
    by decide +kernel, by decide +kernel⟩

/-- EMBED of one pixel, the schedule with `n` turns of the engine and then a store to the first source
byte. -/
def embedThenStore (n : Nat) : State :=
  { running .embed { codecOps 0 with width := 1, height := 1 } with
      ctrl := { truncPolicy := true, irqEn := false }, mem := [(0x1000, 5)],
      turns := List.replicate n .engine ++ [.other (.store 0x1000 9)] }

/-- R65: its first read is in a race while the store comes before its ninth step, which ends it; a store
after that races with nothing, and the read gives memory. -/
theorem test_race_ahead :
    (after (step (embedThenStore 8))).free = 1 ∧ (after (step (embedThenStore 9))).free = 0 ∧
    (after (step (embedThenStore 9))).engine.q = [5] := by decide +kernel

/-- R65: a load of a raced byte that the command only reads is free, and the byte left stays. -/
theorem test_load_of_raced_byte :
    let s := agentStore 0x3000 9 (running .deriveKey (cryptoOps 2 32))
    (agentLoad false 0x3000 s).mem = s.mem ∧
    (agentLoad false 0x3000 s).response = .byte (Config.freeByte 1) := ⟨rfl, rfl⟩

/-- An access of no byte touches nothing, at a window at 0 also (log 13). -/
theorem test_access_of_no_byte :
    (hostRead 0x05 0 State.reset).response = .notSelected ∧
    (hostWrite 0x04 0 5 State.reset).response = .notSelected := by decide

theorem v11_reads (w h cap : Word) (s : State) (a : Nat) :
    Memory.read (v11 w h cap s).mem a = Memory.read s.mem a := rfl

/-- EMBED of V10, then EXTRACT of its destination (V11). -/
theorem witness_CodecRoundTrip :
    let s := v10 2 false
    let t := after (exec .embed s)
    let u := v11 4 4 2 t
    let v := after (exec .extract u)
    s.status.busy = false ∧ u.status.busy = false ∧ exec .embed s = .next t ∧
    t.status.errcode = .noError ∧ t.status.trunc = false ∧ u.ops.srcBase = s.ops.dstBase ∧
    u.ops.width = s.ops.width ∧ u.ops.height = s.ops.height ∧
    s.ops.inLen.toNat ≤ u.ops.outCap.toNat ∧
    (∀ a, s.ops.dstGrid.contains a = true → Memory.read u.mem a = Memory.read t.mem a) ∧
    exec .extract u = .next v ∧ v.status.errcode ≠ .range ∧ v.status.errcode ≠ .overlap ∧
    v.status.errcode ≠ .busError :=
  ⟨rfl, by decide +kernel, eq_next (by decide +kernel), by decide +kernel, by decide +kernel,
    by decide +kernel, by decide +kernel, by decide +kernel, by decide +kernel,
    fun a _ => v11_reads 4 4 2 _ a, eq_next (by decide +kernel), by decide +kernel, by decide +kernel,
    by decide +kernel⟩

/-- The exact fit (V10), one byte more under the hardened policy (V13) and under the legacy policy (V14,
V15). -/
theorem witness_CapacityBoundary :
    let s := v10 2 false
    let h := v10 3 false
    let l := v10 3 true
    let t := after (exec .embed l)
    let u := v11 4 4 64 t
    let v := after (exec .extract u)
    (s.status.busy = false ∧ exec .embed s = .next (after (exec .embed s)) ∧
      (after (exec .embed s)).status.errcode = .noError ∧
      32 + 8 * s.ops.inLen.toNat = s.ops.capacity) ∧
    (exec .embed h = .next (after (exec .embed h)) ∧ (after (exec .embed h)).status.errcode = .capacity ∧
      h.ops.capacity < 32 + 8 * h.ops.inLen.toNat ∧ h.ctrl.truncPolicy = false) ∧
    (exec .embed l = .next t ∧ t.status.errcode = .noError ∧
      l.ops.capacity < 32 + 8 * l.ops.inLen.toNat ∧ l.ctrl.truncPolicy = true) ∧
    (u.status.busy = false ∧ u.ops.srcBase = l.ops.dstBase ∧ u.ops.width = l.ops.width ∧
      u.ops.height = l.ops.height ∧
      (∀ a, l.ops.dstGrid.contains a = true → Memory.read u.mem a = Memory.read t.mem a) ∧
      exec .extract u = .next v ∧ v.status.errcode = .framing) :=
  ⟨⟨rfl, eq_next (by decide +kernel), by decide +kernel, by decide +kernel⟩,
    ⟨eq_next (by decide +kernel), by decide +kernel, by decide +kernel, rfl⟩,
    ⟨eq_next (by decide +kernel), by decide +kernel, by decide +kernel, rfl⟩,
    by decide +kernel, by decide +kernel, by decide +kernel, by decide +kernel,
    fun a _ => v11_reads 4 4 64 _ a, eq_next (by decide +kernel), by decide +kernel⟩

/-- SEAL of two bytes (V41b), then OPEN of what it wrote (V42e). -/
theorem witness_SealThenOpen :
    let s := idle (cryptoOps 2 30) 0x3000 [0x68, 0x69]
    let t := after (execWith toy .sealPlain s)
    let u := { t with ops := { cryptoOps 30 2 with inBase := 0x4000, outBase := 0x6000 } }
    let v := after (execWith toy .openSealed u)
    toy.OpenInvertsSeal s.plat.nonceSize.val ∧ s.status.busy = false ∧ u.status.busy = false ∧
    execWith toy .sealPlain s = .next t ∧ t.status.errcode = .noError ∧
    u.plat.nonceSize = s.plat.nonceSize ∧ u.ops.inLen = t.outLen ∧
    Memory.readAll u.mem u.ops.inBase.toNat t.outLen.toNat =
      Memory.readAll t.mem s.ops.outBase.toNat t.outLen.toNat ∧
    Memory.readAll u.mem u.ops.keyBase.toNat 32 = Memory.readAll s.mem s.ops.keyBase.toNat 32 ∧
    s.ops.inLen.toNat ≤ u.ops.outCap.toNat ∧ execWith toy .openSealed u = .next v ∧
    v.status.errcode = .noError :=
  ⟨toy_opens _, rfl, by decide +kernel, eq_next (by decide +kernel), by decide +kernel, by decide +kernel,
    by decide +kernel, by decide +kernel, by decide +kernel, by decide +kernel,
    eq_next (by decide +kernel), by decide +kernel⟩

/-! The five commands of the end-to-end run, with a nonce of one byte and an empty plaintext, on a grid of
56 pixels: 17 sealed bytes, an exact fit. -/

/-- An idle state with a nonce of one byte. -/
def idle1 (o : Operands) (m : List Host.Cell) : State :=
  { State.reset with
      ops := o, mem := m,
      plat := { Config.resetPlatform with nonceSize := ⟨1, by decide, by decide⟩ } }

/-- DERIVE_KEY of one byte to 0x500. -/
def run0 : State :=
  idle1 { Operands.reset with inBase := 0x100, inLen := 1, outBase := 0x500, outCap := 32 } [(0x100, 0x70)]

/-- SEAL of no byte to 0x600, under the key of `run0`. -/
def run1 : State :=
  { idle1 { Operands.reset with outBase := 0x600, outCap := 17, keyBase := 0x500 }
      (Memory.writeAll [] 0x500 (List.replicate 32 1)) with draws := 5 }

/-- EMBED of the 17 bytes at 0x600 to the grid at 0x2000. -/
def run2 : State :=
  idle1 { Operands.reset with srcBase := 0x1000, dstBase := 0x2000, width := 56, height := 1,
                              inBase := 0x600, inLen := 17 } [(0x600, 80)]

/-- EXTRACT of that grid to 0x700. -/
def run3 : State :=
  idle1 { Operands.reset with srcBase := 0x2000, width := 56, height := 1, outBase := 0x700,
                              outCap := 17 } (after (execWith toy .embed run2)).mem

/-- OPEN of those bytes to 0x800, under the key of `run0`. -/
def run4 : State :=
  idle1 { Operands.reset with inBase := 0x700, inLen := 17, outBase := 0x800, outCap := 0,
                              keyBase := 0x500 }
    (Memory.writeAll [(0x700, 80)] 0x500 (List.replicate 32 1))

/-- DERIVE_KEY and SEAL complete, and SEAL's key is the one derived. -/
theorem run1_seals :
    toy.OpenInvertsSeal run1.plat.nonceSize.val ∧ run0.status.busy = false ∧ run1.status.busy = false ∧
    (execWith toy .deriveKey run0 = .next (after (execWith toy .deriveKey run0)) ∧
      (after (execWith toy .deriveKey run0)).status.errcode = .noError) ∧
    Memory.readAll run1.mem run1.ops.keyBase.toNat 32 =
      Memory.readAll (after (execWith toy .deriveKey run0)).mem run0.ops.outBase.toNat 32 ∧
    (execWith toy .sealPlain run1 = .next (after (execWith toy .sealPlain run1)) ∧
      (after (execWith toy .sealPlain run1)).status.errcode = .noError) :=
  ⟨toy_opens _, rfl, rfl, ⟨eq_next (by decide +kernel), by decide +kernel⟩, by decide +kernel,
    eq_next (by decide +kernel), by decide +kernel⟩

/-- EMBED takes SEAL's bytes and does not cut them. -/
theorem run2_embeds :
    run2.status.busy = false ∧
    run2.ops.inLen = (after (execWith toy .sealPlain run1)).outLen ∧
    Memory.readAll run2.mem run2.ops.inBase.toNat
        (after (execWith toy .sealPlain run1)).outLen.toNat =
      Memory.readAll (after (execWith toy .sealPlain run1)).mem run1.ops.outBase.toNat
        (after (execWith toy .sealPlain run1)).outLen.toNat ∧
    execWith toy .embed run2 = .next (after (execWith toy .embed run2)) ∧
    (after (execWith toy .embed run2)).status.errcode = .noError ∧
    (after (execWith toy .embed run2)).status.trunc = false :=
  ⟨rfl, by decide +kernel, by decide +kernel, eq_next (by decide +kernel), by decide +kernel,
    by decide +kernel⟩

/-- EXTRACT reads EMBED's grid, and OPEN completes on its bytes under the derived key. -/
theorem run4_opens :
    run3.status.busy = false ∧ run4.status.busy = false ∧ run3.ops.srcBase = run2.ops.dstBase ∧
    run3.ops.width = run2.ops.width ∧ run3.ops.height = run2.ops.height ∧
    (execWith toy .extract run3 = .next (after (execWith toy .extract run3)) ∧
      (after (execWith toy .extract run3)).status.errcode = .noError) ∧
    run4.plat.nonceSize = run1.plat.nonceSize ∧
    run4.ops.inLen = (after (execWith toy .extract run3)).outLen ∧
    Memory.readAll run4.mem run4.ops.inBase.toNat 17 =
      Memory.readAll (after (execWith toy .extract run3)).mem run3.ops.outBase.toNat 17 ∧
    Memory.readAll run4.mem run4.ops.keyBase.toNat 32 =
      (toy.hash (Memory.readAll run0.mem run0.ops.inBase.toNat run0.ops.inLen.toNat)).toList ∧
    (execWith toy .openSealed run4 = .next (after (execWith toy .openSealed run4)) ∧
      (after (execWith toy .openSealed run4)).status.errcode = .noError) :=
  ⟨rfl, rfl, rfl, rfl, rfl, ⟨eq_next (by decide +kernel), by decide +kernel⟩, rfl, by decide +kernel,
    by decide +kernel, by decide +kernel, eq_next (by decide +kernel), by decide +kernel⟩

/-- The whole chain meets the hypotheses together. -/
theorem witness_EndToEndRoundTrip :
    (toy.OpenInvertsSeal run1.plat.nonceSize.val ∧ run0.status.busy = false ∧ run1.status.busy = false ∧
    (execWith toy .deriveKey run0 = .next (after (execWith toy .deriveKey run0)) ∧
      (after (execWith toy .deriveKey run0)).status.errcode = .noError) ∧
    Memory.readAll run1.mem run1.ops.keyBase.toNat 32 =
      Memory.readAll (after (execWith toy .deriveKey run0)).mem run0.ops.outBase.toNat 32 ∧
    (execWith toy .sealPlain run1 = .next (after (execWith toy .sealPlain run1)) ∧
      (after (execWith toy .sealPlain run1)).status.errcode = .noError)) ∧
    (run2.status.busy = false ∧
    run2.ops.inLen = (after (execWith toy .sealPlain run1)).outLen ∧
    Memory.readAll run2.mem run2.ops.inBase.toNat
        (after (execWith toy .sealPlain run1)).outLen.toNat =
      Memory.readAll (after (execWith toy .sealPlain run1)).mem run1.ops.outBase.toNat
        (after (execWith toy .sealPlain run1)).outLen.toNat ∧
    execWith toy .embed run2 = .next (after (execWith toy .embed run2)) ∧
    (after (execWith toy .embed run2)).status.errcode = .noError ∧
    (after (execWith toy .embed run2)).status.trunc = false) ∧
    (run3.status.busy = false ∧ run4.status.busy = false ∧ run3.ops.srcBase = run2.ops.dstBase ∧
    run3.ops.width = run2.ops.width ∧ run3.ops.height = run2.ops.height ∧
    (execWith toy .extract run3 = .next (after (execWith toy .extract run3)) ∧
      (after (execWith toy .extract run3)).status.errcode = .noError) ∧
    run4.plat.nonceSize = run1.plat.nonceSize ∧
    run4.ops.inLen = (after (execWith toy .extract run3)).outLen ∧
    Memory.readAll run4.mem run4.ops.inBase.toNat 17 =
      Memory.readAll (after (execWith toy .extract run3)).mem run3.ops.outBase.toNat 17 ∧
    Memory.readAll run4.mem run4.ops.keyBase.toNat 32 =
      (toy.hash (Memory.readAll run0.mem run0.ops.inBase.toNat run0.ops.inLen.toNat)).toList ∧
    (execWith toy .openSealed run4 = .next (after (execWith toy .openSealed run4)) ∧
      (after (execWith toy .openSealed run4)).status.errcode = .noError)) :=
  ⟨run1_seals, run2_embeds, run4_opens⟩

/-- Two memories that differ in a bit 1 of a slot only. -/
theorem witness_ExtractDependsOnSlotLsbsOnly :
    let s := v10 2 false
    let m := Memory.write s.mem 0x1000 0x12
    s.status.busy = false ∧
    (∀ j, j < s.ops.capacity →
      lsbGet (Memory.read m (s.ops.srcBase.toNat + slotOffset j)) =
        lsbGet (Memory.read s.mem (s.ops.srcBase.toNat + slotOffset j))) ∧
    exec .extract s = .next (after (exec .extract s)) :=
  ⟨rfl, by decide +kernel, eq_next (by decide +kernel)⟩

/-- A 4 by 4 grid read as 8 by 2 (V11a). -/
theorem witness_ExtractDependsOnPixelCountOnly :
    let s := v11 4 4 64 (after (exec .embed (v10 2 false)))
    s.status.busy = false ∧ (8#32).toNat * (2#32).toNat = s.ops.npix ∧
    exec .extract s = .next (after (exec .extract s)) :=
  ⟨by decide +kernel, by decide +kernel, eq_next (by decide +kernel)⟩

end Sys2Proof.Tests
end

section
/-! PROOFS. The register window and the flags of the state (10_state.md): the words of VERSION, STATUS and
CTRL bit by bit, what a read returns after a write, the reserved offsets, OVERRUN, and reset. -/

namespace Sys2Proof.Machine

/-! ## Flags in a word -/

theorem getLsbD_flagAt (f : Bool) (n : Nat) {i : Nat} (hi : i < 32) :
    (flagAt f n).getLsbD i = (f && decide (i = n)) := by
  rcases Nat.lt_trichotomy i n with h | h | h
  · simp [flagAt, h, Nat.ne_of_lt h]
  · subst h
    simp [flagAt, hi]
  · simp [flagAt, hi, show i ≠ n by omega, show ¬ i < n by omega, show i - n ≠ 0 by omega]

/-- A mask keeps a flag where it has a 1 at the flag's bit. -/
theorem flagAt_and (f : Bool) (n : Nat) (w : Word) :
    flagAt f n &&& w = flagAt (f && w.getLsbD n) n := by
  apply BitVec.eq_of_getLsbD_eq
  intro i hi
  rw [BitVec.getLsbD_and, getLsbD_flagAt f n hi, getLsbD_flagAt _ n hi]
  by_cases h : i = n <;> simp [h]

/-- Clearing bits below 8 keeps ERRCODE. -/
theorem errcode_and_not (c : BitVec 4) (v : Word) {m : Word} (hm : m.toNat < 2 ^ 8) :
    (c.setWidth 32 <<< 8) &&& ~~~(v &&& m) = c.setWidth 32 <<< 8 := by
  apply BitVec.eq_of_getLsbD_eq
  intro i hi
  by_cases h8 : i < 8
  · simp [h8]
  · have : m.getLsbD i = false := by
      rw [← BitVec.testBit_toNat]
      exact Nat.testBit_lt_two_pow (hm.trans_le (Nat.pow_le_pow_right (by decide) (by omega)))
    rw [BitVec.getLsbD_and, BitVec.getLsbD_not, BitVec.getLsbD_and, this]
    simp [hi]

/-- The W1C write on the word: it clears bits 3:1 where the written word has a 1 (R24). -/
theorem toWord_clearWritten (st : Status) (v : Word) :
    (st.clearWritten v).toWord = st.toWord &&& ~~~(v &&& 0xE) := by
  simp only [Status.toWord, BitVec.and_or_distrib_right, flagAt_and,
    errcode_and_not _ v (show (0xE : Word).toNat < 2 ^ 8 by decide)]
  simp [Status.clearWritten]

/-- CTRL stores bits 1:0 of the written word (R23, R44). -/
theorem toWord_ofWord (v : Word) : (Ctrl.ofWord v).toWord = v &&& 3 := by
  have mask : (3 : Word) = flagAt true 0 ||| flagAt true 1 := by decide
  rw [BitVec.and_comm, mask, BitVec.and_or_distrib_right, flagAt_and, flagAt_and]
  rfl

/-! ## VERSION -/

theorem toNat_append_eq_add {m n : Nat} (x : BitVec m) (y : BitVec n) :
    (x ++ y).toNat = x.toNat * 2 ^ n + y.toNat := by
  rw [BitVec.toNat_append, ← Nat.shiftLeft_add_eq_or_of_lt y.isLt, Nat.shiftLeft_eq]

theorem toNat_versionWord (p : Platform) :
    (versionWord p).toNat =
      0x01 + 256 * p.nonceSize.val + 65536 * 0x10 + 16777216 * 0x20 := by
  have hn := p.nonceSize.le
  simp only [versionWord, toNat_append_eq_add, BitVec.toNat_ofNat, Config.keySize, Config.tagSize,
    Config.formatVersion]
  omega

/-- The field NONCE decides the word, all other fields being constants (R21). -/
theorem versionWord_of_nonceSize_eq_twelve {p : Platform} (h : p.nonceSize.val = 12) :
    versionWord p = 0x20100C01 := by
  apply BitVec.eq_of_toNat_eq
  rw [toNat_versionWord, h]
  rfl

/-- Settles O7: the fields are the bytes of the appended word, and the window's base is VERSION's address. -/
theorem versionWordFields : Obligations.VersionWordFields := by
  unfold Obligations.VersionWordFields
  intro s
  exact ⟨toNat_versionWord s.plat, rfl, versionWord_of_nonceSize_eq_twelve, hostRead_reg s .version,
    fun v => hostWrite_reg s .version v⟩

/-! ## Reserved offsets -/

/-- No register lies above 0x3C (R76). -/
theorem offset_le (r : Reg) : r.offset.toNat ≤ 0x3C := by cases r <;> decide

theorem ofOffset_reserved {off : BitVec 8} (h : 0x40 ≤ off.toNat) : Reg.ofOffset off = none := by
  unfold Reg.ofOffset
  rw [List.find?_eq_none]
  intro r _ he
  have hoff : r.offset = off := by simpa using he
  have := offset_le r
  rw [hoff] at this
  omega

theorem selectAccess_aligned (base : Nat) {off : Nat} (h : off < 256) (ha : off % 4 = 0) :
    selectAccess base (base + off) 4 = .offset (BitVec.ofNat 8 off) := by
  simp [selectAccess, alignedOffset, h, ha]

/-- Settles O4: the access selects its offset, and no register has it. -/
theorem reservedOffsetsReadZeroIgnoreWrites : Obligations.ReservedOffsetsReadZeroIgnoreWrites := by
  unfold Obligations.ReservedOffsetsReadZeroIgnoreWrites
  intro s off v hlo hhi ha
  have hsel := selectAccess_aligned s.plat.codecBase (show off < 256 by omega) ha
  have hnone : Reg.ofOffset (BitVec.ofNat 8 off) = none :=
    ofOffset_reserved (by rw [BitVec.toNat_ofNat]; omega)
  constructor
  · simp [hostRead, hsel, readOffset, hnone]
  · simp [hostWrite, hsel, writeOffset, hnone]

/-! ## Reading a register back -/

/-- No register shows the answer of the host bus. -/
@[simp] theorem readReg_response (s : State) (a : Response) (r : Reg) :
    readReg { s with response := a } r = readReg s r := by
  cases r <;> rfl

/-- A read-write register holds what was written to it while idle (R44). -/
theorem readReg_writeReg_same {s : State} {r : Reg} (v : Word) (hr : isReadWrite r = true)
    (hb : s.status.busy = false) :
    readReg (writeReg s r v) r = if r = .ctrl then v &&& 3 else v := by
  cases r <;> cases hr <;> simp [writeReg, unlessBusy, hb, readReg, toWord_ofWord]

/-- A write of a read-write register while idle leaves every other register (R44): each register is read
from a field of its own, and the write stores into the field of `r`. -/
theorem readReg_writeReg_other {s : State} {r r' : Reg} (v : Word) (hr : isReadWrite r = true)
    (hb : s.status.busy = false) (hne : r' ≠ r) : readReg (writeReg s r v) r' = readReg s r' := by
  cases r <;> cases hr <;> cases r' <;> simp [writeReg, unlessBusy, hb, readReg] at hne ⊢

/-- A write of a read-write register while idle stores into CTRL and the operands only. -/
theorem writeReg_readWrite_idle {s : State} {r : Reg} (v : Word) (hr : isReadWrite r = true)
    (hb : s.status.busy = false) : ∃ c o, writeReg s r v = { s with ctrl := c, ops := o } := by
  rcases writeReg_cases s r v with e | ⟨hb', -⟩ | ⟨rfl, -⟩ | ⟨-, rfl, -⟩ | ⟨-, h⟩
  · exact ⟨s.ctrl, s.ops, e⟩
  · rw [hb] at hb'; cases hb'
  · cases hr
  · cases hr
  · exact h

/-- A write of CMD, CTRL or an operand register while BUSY sets OVERRUN and does nothing else (R28, R217). -/
theorem hostWrite_reg_busy {s : State} {r : Reg} (v : Word) (hb : s.status.busy = true)
    (hr : r = .cmd ∨ isReadWrite r = true) :
    hostWrite (r.address s.plat.codecBase) 4 v s =
      { s with status := { s.status with overrun := true }, response := .written } := by
  rw [hostWrite_reg]
  rcases hr with rfl | hr
  · simp [writeReg, unlessBusy, hb, setOverrun]
  · cases r <;> cases hr <;> simp [writeReg, unlessBusy, hb, setOverrun]

/-- Settles O9: the write stores into one of CTRL and the operands, or while BUSY only sets OVERRUN. -/
theorem writeThenReadBack : Obligations.WriteThenReadBack := by
  unfold Obligations.WriteThenReadBack
  intro s r v hr
  refine ⟨fun hb => ?_, fun hb => hostWrite_reg_busy v hb (.inr hr)⟩
  obtain ⟨c, o, hw⟩ := writeReg_readWrite_idle v hr hb
  rw [hostWrite_reg]
  simp only [readReg_response]
  exact ⟨readReg_writeReg_same v hr hb, fun r' hne => readReg_writeReg_other v hr hb hne,
    by rw [hw], by rw [hw]⟩

/-! ## STATUS -/

/-- A host write of STATUS is the W1C clearing and nothing else (R24). -/
theorem hostWrite_status (s : State) (v : Word) :
    hostWrite (Reg.address s.plat.codecBase .status) 4 v s =
      { s with status := s.status.clearWritten v, response := .written } :=
  hostWrite_reg s .status v

/-- Settles O8: the word's number, the W1C write on the word, and its frame. -/
theorem statusPacksAndClearsByOnes : Obligations.StatusPacksAndClearsByOnes := by
  unfold Obligations.StatusPacksAndClearsByOnes
  intro s v
  rw [hostWrite_status]
  exact ⟨toNat_toWord s.status, by decide, by decide, toWord_clearWritten s.status v, rfl⟩

/-! ## Reset -/

/-- After reset every register but VERSION reads 0 (R43). -/
theorem readReg_resetBlock (s : State) {r : Reg} (h : r ≠ .version) :
    readReg (resetBlock s) r = 0 := by
  cases r
  case version => exact absurd rfl h
  case ctrl => exact (by decide : Ctrl.reset.toWord = 0)
  case status => exact (by decide : Status.reset.toWord = 0)
  all_goals rfl

/-- A reset turn resets the block, whatever it was doing (R210). -/
theorem step_reset {s : State} {ts : List Turn} (h : s.turns = .reset :: ts) :
    step s = .next (resetBlock { s with turns := ts }) := by
  simp [step, scheduledStep, h, takeTurn, turnWith]

/-- A command word written while idle starts its command (R90). -/
theorem hostWrite_cmd_busy {s : State} {w : Word} {i : Instr} (hb : s.status.busy = false)
    (hd : decode w = .ok i) :
    (hostWrite (Reg.address s.plat.codecBase .cmd) 4 w s).status.busy = true := by
  simp [hostWrite_reg, writeReg, unlessBusy, hb, acceptWord, hd]

/-- Settles O15: the reset turn gives the reset block, which is idle and reads 0. -/
theorem resetKeepsMemoryAndIdles : Obligations.ResetKeepsMemoryAndIdles := by
  unfold Obligations.ResetKeepsMemoryAndIdles
  intro s ts hs
  have idle : (resetBlock { s with turns := ts }).status.busy = false := rfl
  exact ⟨resetBlock { s with turns := ts }, step_reset hs, rfl, rfl, rfl, rfl, rfl,
    fun r hr => readReg_resetBlock _ hr, rfl, fun _ _ => engineStep_idle idle,
    fun _ _ hd => hostWrite_cmd_busy idle hd⟩

/-! ## OVERRUN: what no command, no engine step and no other access clears (R28) -/

theorem clearWritten_overrun (st : Status) (v : Word) :
    (st.clearWritten v).overrun = (st.overrun && !v.getLsbD 3) := rfl

theorem accept_overrun (op : Instr) (s : State) :
    (accept op s).status.overrun = s.status.overrun := rfl

theorem acceptWord_overrun (w : Word) (s : State) :
    (acceptWord w s).status.overrun = s.status.overrun := by
  unfold acceptWord
  split <;> rfl

theorem writeOutput_overrun {out : Bytes} {s t : State} (h : writeOutput out s = .next t) :
    t.status.overrun = s.status.overrun := by
  rcases writeOutput_next h with ⟨-, rfl⟩ | ⟨j, -, -, rfl⟩ <;> rfl

theorem deriveKeyBody_overrun {port : CryptoPort} {s t : State}
    (h : deriveKeyBody port s = .next t) : t.status.overrun = s.status.overrun := by
  rcases deriveKeyBody_next h with ⟨e, -, rfl⟩ | ⟨-, ⟨j, -, -, rfl⟩ | h⟩
  · rfl
  · rfl
  · exact writeOutput_overrun h

theorem sealBody_overrun {port : CryptoPort} {s t : State} (h : sealBody port s = .next t) :
    t.status.overrun = s.status.overrun := by
  rcases sealBody_next h with ⟨e, -, rfl⟩ | ⟨-, ⟨j, -, -, rfl⟩ | ⟨j, -, -, rfl⟩ | h⟩
  · rfl
  · rfl
  · rfl
  · rcases sealWith_next h with ⟨rfl, -⟩ | rfl | ⟨nonce, sealed, -, -, -, h⟩
    · rfl
    · rfl
    · exact (writeOutput_overrun h).trans rfl

theorem openBody_overrun {port : CryptoPort} {s t : State} (h : openBody port s = .next t) :
    t.status.overrun = s.status.overrun := by
  rcases openBody_next h with ⟨e, -, rfl⟩ | ⟨-, ⟨j, -, -, rfl⟩ | ⟨j, -, -, rfl⟩ | h⟩
  · rfl
  · rfl
  · rfl
  · rcases openWith_next h with ⟨rfl, -⟩ | ⟨p, -, ⟨-, rfl⟩ | ⟨-, h⟩⟩
    · rfl
    · rfl
    · exact writeOutput_overrun h

theorem extractBody_overrun {s t : State} (h : extractBody s = .next t) :
    t.status.overrun = s.status.overrun := by
  rcases extractBody_next h with ⟨e, -, rfl⟩ | ⟨-, ⟨q, c, -, -, -, rfl⟩ | h⟩
  · rfl
  · rfl
  · rcases extractFrom_next h with ⟨-, rfl⟩ | ⟨payload, -, ⟨-, rfl⟩ | ⟨-, h⟩⟩
    · rfl
    · rfl
    · exact (writeOutput_overrun h).trans rfl

theorem embedStart_overrun (s : State) : (embedStart s).status.overrun = s.status.overrun := by
  rw [embedStart_eq]
  rfl

/-- A command that is accepted and runs to its end keeps OVERRUN. -/
theorem exec_overrun {i : Instr} {s t : State} (hb : s.status.busy = false)
    (h : exec i s = .next t) : t.status.overrun = s.status.overrun := by
  cases i with
  | nop =>
    simp only [exec, execNop, issue_idle hb] at h
    rw [nopBody_next h]
    rfl
  | deriveKey =>
    simp only [exec, execDeriveKey, issue_idle hb] at h
    exact (deriveKeyBody_overrun h).trans (accept_overrun _ s)
  | sealPlain =>
    simp only [exec, execSeal, issue_idle hb] at h
    exact (sealBody_overrun h).trans (accept_overrun _ s)
  | openSealed =>
    simp only [exec, execOpen, issue_idle hb] at h
    exact (openBody_overrun h).trans (accept_overrun _ s)
  | capacity =>
    simp only [exec, execCapacity, issue_idle hb] at h
    rw [capacityBody_next h]
    rfl
  | embed =>
    rcases execEmbed_next hb h with ⟨e, -, rfl⟩ | ⟨-, m, ⟨-, rfl⟩ | ⟨n, a, -, -, -, rfl⟩⟩
    · rfl
    · exact embedStart_overrun s
    · exact embedStart_overrun s
  | extract =>
    simp only [exec, execExtract, issue_idle hb] at h
    exact (extractBody_overrun h).trans (accept_overrun _ s)

theorem engineStep_overrun {port : CryptoPort} {raced : Bool} {s t : State}
    (h : engineStep port raced s = .next t) : t.status.overrun = s.status.overrun := by
  cases hb : s.status.busy
  · rw [engineStep_idle hb] at h
    cases h
    rfl
  rw [engineStep_busy hb] at h
  have kept : (planStep s).1.status.overrun = s.status.overrun := by rw [planStep_planned]; rfl
  generalize (planStep s).1 = u at h kept
  rcases performAction_next h with
    ⟨a, dir, -, rfl, -⟩ | ⟨a, b, w, -, hr, rfl⟩ | ⟨a, v, w, -, hw, rfl⟩ | ⟨-, rfl⟩ | ⟨n, -, rfl⟩ |
      ⟨-, rfl⟩ | ⟨code, -, rfl⟩
  · exact kept
  · obtain ⟨-, ⟨-, rfl⟩ | ⟨-, rfl⟩⟩ := engineRead_ok hr <;> exact kept
  · obtain ⟨-, rfl | rfl⟩ := engineWrite_ok hw <;> exact kept
  · rw [transact_planned]
    exact kept
  · exact kept
  · exact kept
  · exact kept

/-- A host write that clears OVERRUN is one of STATUS with bit 3 set. -/
theorem hostWrite_overrun {addr size : Nat} {v : Word} {s : State} (ho : s.status.overrun = true) :
    (hostWrite addr size v s).status.overrun = true ∨
      addr = Reg.address s.plat.codecBase .status ∧ size = 4 ∧ v.getLsbD 3 = true := by
  obtain ⟨a, e | ⟨r, haddr, hsize, e⟩⟩ := hostWrite_cases addr size v s
  · exact .inl (by rw [e]; exact ho)
  rw [e]
  rcases writeReg_cases s r v with e | ⟨-, e⟩ | ⟨rfl, e⟩ | ⟨-, -, e⟩ | ⟨-, c, o, e⟩ <;> rw [e]
  · exact .inl ho
  · exact .inl rfl
  · cases hv : v.getLsbD 3
    · exact .inl (by rw [clearWritten_overrun, ho, hv]; rfl)
    · exact .inr ⟨haddr, hsize, rfl⟩
  · exact .inl ((acceptWord_overrun v s).trans ho)
  · exact .inl ho

theorem pollOnce_status (addr : Nat) (mask value : Word) (s : State) :
    (pollOnce addr mask value s).1.status = s.status := by
  obtain ⟨r, hr⟩ := hostRead_eq addr 4 s
  unfold pollOnce
  simp only [hr]
  cases r <;> rfl

/-- RUN clears no OVERRUN: while BUSY it sets it, and otherwise it accepts a word and runs it. -/
theorem hostRun_overrun {again : HostOp → State → State} {w : Word} {s t : State}
    (hag : ∀ op u, (again op u).status = u.status) (h : hostRun again w s = .next t)
    (ho : s.status.overrun = true) : t.status.overrun = true := by
  unfold hostRun at h
  split at h
  · cases h
    rw [hag]
    rfl
  · rename_i hb
    split at h
    · cases h
      exact ho
    · split at h
      · rename_i u he
        cases h
        exact (exec_overrun (by simpa using hb) he).trans ho
      · cases h
      · cases h

/-- A host's or another agent's operation that clears OVERRUN is a write of STATUS with bit 3 set. -/
theorem hostStep_overrun {raced : Bool} {again : HostOp → State → State} {op : HostOp} {s t : State}
    (hag : ∀ op u, (again op u).status = u.status) (h : hostStep raced again op s = .next t)
    (ho : s.status.overrun = true) :
    t.status.overrun = true ∨
      ∃ v, op = .write (Reg.address s.plat.codecBase .status) 4 v ∧ v.getLsbD 3 = true := by
  cases op with
  | write addr size v =>
    cases h
    exact (hostWrite_overrun ho).imp_right fun ⟨ha, hs, hv⟩ => ⟨v, by rw [ha, hs], hv⟩
  | read addr size =>
    cases h
    obtain ⟨r, e⟩ := hostRead_eq addr size s
    exact .inl (by rw [e]; exact ho)
  | poll addr mask value =>
    have kept := pollOnce_status addr mask value s
    simp only [hostStep] at h
    split at h <;> rename_i u hp <;> rw [hp] at kept <;> cases h
    · exact .inl (by rw [kept]; exact ho)
    · exact .inl (by rw [hag, kept]; exact ho)
  | run w => exact .inl (hostRun_overrun hag h ho)
  | store addr v =>
    cases h
    rcases agentStore_cases addr v s with ⟨-, e⟩ | ⟨-, e⟩ <;> exact .inl (by rw [e]; exact ho)
  | load addr =>
    cases h
    rcases agentLoad_cases raced addr s with ⟨-, e⟩ | ⟨-, -, e⟩ | e <;>
      exact .inl (by rw [e]; exact ho)

theorem hostTurn_overrun {raced : Bool} {s t : State} (h : hostTurn raced s = .next t)
    (ho : s.status.overrun = true) :
    t.status.overrun = true ∨
      ∃ v, s.program.head? = some (.write (Reg.address s.plat.codecBase .status) 4 v) ∧
        v.getLsbD 3 = true := by
  unfold hostTurn at h
  split at h
  · cases h
    exact .inl ho
  · rename_i op ops hp
    refine (hostStep_overrun (again := keepPolling) (s := { s with program := ops })
      (fun _ _ => rfl) h ho).imp_right ?_
    rintro ⟨v, rfl, hv⟩
    exact ⟨v, by rw [hp]; rfl, hv⟩

/-- A turn that clears OVERRUN is a reset, or a host's or another agent's write of STATUS with bit 3 set. -/
theorem turnWith_overrun {raced : Bool} {turn : Turn} {s t : State}
    (h : turnWith raced turn s = .next t) (ho : s.status.overrun = true) :
    t.status.overrun = true ∨ turn = .reset ∨
      ∃ v, turnOp turn s = some (.write (Reg.address s.plat.codecBase .status) 4 v) ∧
        v.getLsbD 3 = true := by
  cases turn with
  | host => exact (hostTurn_overrun h ho).imp_right .inr
  | other op =>
    refine (hostStep_overrun (fun _ _ => rfl) h ho).imp_right fun ⟨v, hop, hv⟩ => .inr ⟨v, ?_, hv⟩
    rw [hop]
    rfl
  | engine => exact .inl ((engineStep_overrun h).trans ho)
  | reset => exact .inr (.inl rfl)

/-- A scheduled turn performs the operation that comes next. -/
theorem nextHostOp_of_turn {turn : Turn} {ts : List Turn} {s : State} (h : s.turns = turn :: ts) :
    nextHostOp s = turnOp turn s := by
  cases turn <;> simp [nextHostOp, turnOp, h]

/-- A step that clears OVERRUN takes a reset turn or a write of STATUS with bit 3 set (R28). -/
theorem step_overrun {s t : State} (h : step s = .next t) (ho : s.status.overrun = true) :
    t.status.overrun = true ∨ s.turns.head? = some .reset ∨
      ∃ v, nextHostOp s = some (.write (Reg.address s.plat.codecBase .status) 4 v) ∧
        v.getLsbD 3 = true := by
  unfold step scheduledStep at h
  split at h
  · rename_i turn ts hts
    rw [nextHostOp_of_turn hts, hts]
    exact (turnWith_overrun h ho).imp_right (.imp_left (by rintro rfl; rfl))
  · rename_i hts
    split at h
    · exact .inl ((engineStep_overrun h).trans ho)
    · rename_i hb
      have hop : nextHostOp s = s.program.head? := by simp [nextHostOp, hts, hb]
      rw [hop]
      exact (hostTurn_overrun h ho).imp_right .inr

/-- Settles O11: the writes that set OVERRUN, the two events that clear it, and no other step that does. -/
theorem overrunClearedOnlyByHostOrReset : Obligations.OverrunClearedOnlyByHostOrReset := by
  unfold Obligations.OverrunClearedOnlyByHostOrReset
  refine ⟨fun s r v hb hr => hostWrite_reg_busy v hb hr, fun s v hv => ?_, fun s => rfl,
    fun s t h ho ht => ?_⟩
  · rw [hostWrite_status, clearWritten_overrun, hv, Bool.not_true, Bool.and_false]
  · exact (step_overrun h ho).resolve_left (by simp [ht])

end Sys2Proof.Machine
end

section
/-! PROOFS. Encoding (30_encoding.md): the decoder word by word, an ILLEGAL word at acceptance, the
assembler, and the register map by number. -/

namespace Sys2Proof.Machine

/-! ## Decoding -/

/-- A set reserved bit makes a word ILLEGAL, whatever its opcode (R74). -/
theorem decode_of_reservedBits {w : Word} (h : w.toNat / 16 ≠ 0) :
    decode w = .error .reservedBits := by
  have hrsv : rsvField w ≠ 0#28 := mt (rsvField_eq_zero_iff w).mp h
  simp [decode, hrsv]

/-- Opcodes stop at 6 (R72). -/
theorem toNat_encode_le (i : Instr) : (encode i).toNat ≤ 6 := by cases i <;> decide

/-- An opcode of 7 to 15 makes a word ILLEGAL (R73): no command's word is that large. -/
theorem decode_of_reservedOpcode {w : Word} (hrsv : w.toNat / 16 = 0) (hop : 7 ≤ w.toNat % 16) :
    decode w = .error .reservedOpcode := by
  rcases decode_cases w with ⟨-, hbits⟩ | ⟨hd, -, -⟩ | ⟨i, -, rfl⟩
  · omega
  · exact hd
  · have := toNat_encode_le i
    omega

/-- Each command has exactly one word (R71). -/
theorem decode_eq_ok_iff (w : Word) (i : Instr) : decode w = .ok i ↔ w = encode i := by
  constructor
  · intro hd
    rcases decode_cases w with ⟨he, -⟩ | ⟨he, -⟩ | ⟨j, hj, rfl⟩
    · cases hd.symm.trans he
    · cases hd.symm.trans he
    · cases hd.symm.trans hj
      rfl
  · rintro rfl
    exact decode_encode i

/-- A word with the number of a command's word decodes to that command. -/
theorem decode_of_toNat_eq {w : Word} (i : Instr) (h : w.toNat = (encode i).toNat) :
    decode w = .ok i :=
  (decode_eq_ok_iff w i).mpr (BitVec.eq_of_toNat_eq h)

/-- An ILLEGAL word is not run (R71, R100). -/
theorem acceptWord_illegal {w : Word} {e : DecodeError} (hd : decode w = .error e) (s : State) :
    acceptWord w s = acceptIllegal s := by
  simp [acceptWord, hd]

/-- An ILLEGAL word completes with ILLEGAL_OP; of STATUS it keeps OVERRUN and FITS (R92, R100). -/
theorem acceptIllegal_status (s : State) :
    (acceptIllegal s).status = statusAfter s .illegalOp false s.status.fits := rfl

/-- Settles O2: the decoder's errors and commands by the number of the word, and the completion of an
ILLEGAL word at its acceptance. -/
theorem decodeIsTotalAndExact : Obligations.DecodeIsTotalAndExact := by
  unfold Obligations.DecodeIsTotalAndExact
  intro w
  refine ⟨decode_of_reservedBits, decode_of_reservedOpcode, decode_of_toNat_eq .nop,
    decode_of_toNat_eq .deriveKey, decode_of_toNat_eq .sealPlain, decode_of_toNat_eq .openSealed,
    decode_of_toNat_eq .capacity, decode_of_toNat_eq .embed, decode_of_toNat_eq .extract,
    decode_eq_ok_iff w, fun e s hd => ?_⟩
  rw [acceptWord_illegal hd, acceptIllegal_status]
  exact ⟨rfl, rfl, rfl⟩

/-! ## The assembler -/

/-- The mnemonics differ, so each finds its own command (R80). -/
theorem assemble_mnemonic (i : Instr) : assemble i.mnemonic = some (encode i) := by
  cases i <;> decide

/-- A line that is no mnemonic finds no command (R80). -/
theorem assemble_eq_none {line : String} (h : ∀ i : Instr, line ≠ i.mnemonic) :
    assemble line = none := by
  have hfind : Instr.all.find? (fun i => i.mnemonic == line) = none := by
    rw [List.find?_eq_none]
    intro i _ he
    exact h i (eq_of_beq he).symm
  rw [assemble, hfind]
  rfl

/-- Settles O3: a mnemonic finds its command, and any other line none. -/
theorem assemblerTakesMnemonicsOnly : Obligations.AssemblerTakesMnemonicsOnly := by
  unfold Obligations.AssemblerTakesMnemonicsOnly
  exact ⟨assemble_mnemonic, fun _ h => assemble_eq_none h⟩

/-! ## The register map by number -/

/-- Each aligned offset up to 0x3C has a register (R76). -/
theorem exists_reg_at_offset {off : Nat} (h : off ≤ 0x3C) (ha : off % 4 = 0) :
    ∃ r : Reg, r.offset.toNat = off := by
  have words : ∀ k < 16, ∃ r ∈ Reg.all, r.offset.toNat = 4 * k := by decide
  obtain ⟨r, -, hr⟩ := words (off / 4) (by omega)
  exact ⟨r, by omega⟩

/-- A read at each register's offset, with the whole map as one list (R76). -/
theorem hostRead_registerMap (s : State) :
    ∀ p ∈ Reg.all.map fun r => (r.offset.toNat, readReg s r),
      hostRead (s.plat.codecBase + p.1) 4 s = { s with response := .word p.2 } :=
  List.forall_mem_map.mpr fun r _ => hostRead_reg s r

/-- After reset a read of any register but VERSION answers 0 (R43). -/
theorem hostRead_resetBlock (s : State) {r : Reg} (h : r ≠ .version) :
    (hostRead (r.address s.plat.codecBase) 4 (resetBlock s)).response = .word 0 := by
  have hread := hostRead_reg (resetBlock s) r
  rw [readReg_resetBlock s h] at hread
  exact congrArg State.response hread

/-- A write of CMD, CTRL or an operand register while idle makes that register's update (R44, R90). -/
theorem hostWrite_reg_idle {s t u : State} {v : Word} (r : Reg) (hb : s.status.busy = false)
    (hw : writeReg s r v = if s.status.busy then setOverrun s else u)
    (ht : { u with response := .written } = t) :
    hostWrite (r.address s.plat.codecBase) 4 v s = t := by
  rw [hostWrite_reg, hw, ← ht]
  simp [hb]

/-- Settles O6: every offset of the statement is a register's address, where `hostRead_reg` and
`hostWrite_reg` apply, or a reserved offset. -/
theorem registerMapByOffset : Obligations.RegisterMapByOffset := by
  unfold Obligations.RegisterMapByOffset
  intro s v
  refine ⟨hostRead_registerMap s, ?readOnly, hostWrite_status s v, fun hb => ?idle,
    fun off hlo hhi ha => reservedOffsetsReadZeroIgnoreWrites s off v hlo hhi ha,
    fun off hlo hhi ha => ?afterReset, fun hn => ?version⟩
  case readOnly =>
    simp only [List.forall_mem_cons]
    exact ⟨hostWrite_reg s .version v, hostWrite_reg s .errAddr v, hostWrite_reg s .outLen v,
      hostWrite_reg s .capBits v, List.forall_mem_nil _⟩
  case idle =>
    refine ⟨hostWrite_reg_idle .cmd hb rfl rfl, hostWrite_reg_idle .ctrl hb rfl rfl, ?_⟩
    simp only [List.forall_mem_cons]
    exact ⟨hostWrite_reg_idle .srcBase hb rfl rfl, hostWrite_reg_idle .dstBase hb rfl rfl,
      hostWrite_reg_idle .width hb rfl rfl, hostWrite_reg_idle .height hb rfl rfl,
      hostWrite_reg_idle .inBase hb rfl rfl, hostWrite_reg_idle .inLen hb rfl rfl,
      hostWrite_reg_idle .outBase hb rfl rfl, hostWrite_reg_idle .outCap hb rfl rfl,
      hostWrite_reg_idle .keyBase hb rfl rfl, List.forall_mem_nil _⟩
  case afterReset =>
    obtain ⟨r, rfl⟩ := exists_reg_at_offset hhi ha
    have hr : r ≠ .version := by
      rintro rfl
      exact absurd hlo (by decide)
    exact hostRead_resetBlock s hr
  case version =>
    have hread := hostRead_reg (resetBlock s) .version
    rw [show readReg (resetBlock s) .version = 0x20100C01 from
      versionWord_of_nonceSize_eq_twelve hn] at hread
    exact congrArg State.response hread

end Sys2Proof.Machine
end

section
/-! PROOFS. Commands (40_commands.md): what acceptance clears and starts, what BUSY turns away, the operands
while a command runs, and NOP. -/

namespace Sys2Proof.Machine

/-! ## While BUSY -/

/-- Any command issued while BUSY is turned away: it sets OVERRUN and does nothing else (R91). -/
theorem exec_busy {s : State} (i : Instr) (hb : s.status.busy = true) :
    exec i s = .next (setOverrun s) := by
  cases i <;> exact issue_busy hb

/-- Settles O10: the writes that BUSY makes ignored, the write of STATUS, which it does not, and the
commands turned away. -/
theorem writesWhileBusyAreIgnored : Obligations.WritesWhileBusyAreIgnored := by
  unfold Obligations.WritesWhileBusyAreIgnored
  intro s v hb
  exact ⟨fun r hr => hostWrite_reg_busy v hb hr, hostWrite_status s v, fun i => exec_busy i hb⟩

/-- Whoever moves while BUSY, a step that is no reset keeps the operands, CTRL (R101) and the platform: a turn
of the schedule does (`turnWith_busy`), and where none is left the engine steps. -/
theorem step_busy_keeps {s t : State} (hb : s.status.busy = true) (h : step s = .next t)
    (hr : s.turns.head? ≠ some .reset) : t.ops = s.ops ∧ t.ctrl = s.ctrl ∧ t.plat = s.plat := by
  unfold step scheduledStep at h
  split at h
  · rename_i turn ts hts
    have hturn : turn ≠ .reset := by
      rintro rfl
      exact hr (by rw [hts]; rfl)
    obtain ⟨hops, hctrl, hplat, -⟩ := turnWith_busy (s := { s with turns := ts }) hb hturn h
    exact ⟨hops, hctrl, hplat⟩
  · rw [if_pos hb] at h
    obtain ⟨⟨hops, hctrl, hplat, -⟩, -⟩ := engineStep_keeps h
    exact ⟨hops, hctrl, hplat⟩

/-- Settles O50: the operands and CTRL are among what `step_busy_keeps` keeps. -/
theorem operandsFixedWhileBusy : Obligations.OperandsFixedWhileBusy := by
  unfold Obligations.OperandsFixedWhileBusy
  intro s t hb h hr
  obtain ⟨hops, hctrl, -⟩ := step_busy_keeps hb h hr
  exact ⟨hops, hctrl⟩

/-! ## Acceptance -/

/-- A command's word starts the command (R90). -/
theorem acceptWord_command {w : Word} {i : Instr} (hd : decode w = .ok i) (s : State) :
    acceptWord w s = accept i s := by
  simp [acceptWord, hd]

/-- What acceptance of any word, ILLEGAL or not, clears and keeps outside STATUS (R92). -/
theorem acceptWord_clears (w : Word) (s : State) :
    (acceptWord w s).errAddr = 0 ∧ (acceptWord w s).outLen = 0 ∧
    (acceptWord w s).capBits = s.capBits ∧ (acceptWord w s).ctrl = s.ctrl ∧
    (acceptWord w s).ops = s.ops ∧ (acceptWord w s).mem = s.mem ∧
    (acceptWord w s).draws = s.draws := by
  cases hd : decode w with
  | ok i => rw [acceptWord_command hd]; exact ⟨rfl, rfl, rfl, rfl, rfl, rfl, rfl⟩
  | error e => rw [acceptWord_illegal hd]; exact ⟨rfl, rfl, rfl, rfl, rfl, rfl, rfl⟩

/-- A CMD write while idle is acceptance of its word (R90). -/
theorem hostWrite_cmd_idle {s : State} (w : Word) (hb : s.status.busy = false) :
    hostWrite (Reg.address s.plat.codecBase .cmd) 4 w s =
      { acceptWord w s with response := .written } :=
  hostWrite_reg_idle .cmd hb rfl rfl

/-- Settles O12: the CMD write is acceptance, which starts a command's word and completes an ILLEGAL
one. -/
theorem acceptanceClearsAndStarts : Obligations.AcceptanceClearsAndStarts := by
  unfold Obligations.AcceptanceClearsAndStarts
  intro s w hb
  simp only [hostWrite_cmd_idle w hb]
  obtain ⟨herrAddr, houtLen, hcapBits, hctrl, hops, hmem, hdraws⟩ := acceptWord_clears w s
  refine ⟨herrAddr, houtLen, hcapBits, hctrl, hops, hmem, hdraws, fun i hd => ?_, fun e hd => ?_⟩
  · rw [acceptWord_command hd]
    exact ⟨accept_status i s, accept_engine i s⟩
  · rw [acceptWord_illegal hd]
    exact acceptIllegal_status s

/-! ## NOP -/

/-- NOP from idle is acceptance and the completion step (R99). -/
theorem exec_nop_idle {s : State} (hb : s.status.busy = false) :
    exec .nop s = .next (finish .noError (accept .nop s)) :=
  issue_idle hb

/-- NOP's first engine step is its completion: there is no access or transaction before it (R99). -/
theorem planStep_accept_nop (s : State) : planStep (accept .nop s) = (accept .nop s, .completePlain) :=
  rfl

/-- The engine step after NOP's acceptance completes it. -/
theorem engineStep_accept_nop (port : CryptoPort) (raced : Bool) (s : State) :
    engineStep port raced (accept .nop s) = .next (finish .noError (accept .nop s)) := by
  rw [engineStep_busy rfl, planStep_accept_nop]
  rfl

/-- What a success right after acceptance leaves: the acceptance clearing, and the rest as it was (R92, R97). -/
theorem finish_accept_endsWith (i : Instr) (s : State) :
    endsWith s (finish .noError (accept i s)) .noError false s.status.fits s.capBits 0 :=
  ⟨rfl, rfl, rfl, rfl, sameConfiguration.refl s⟩

/-- Settles O20: from idle the meaning and the one engine step are the same completion, and while BUSY NOP
is turned away. -/
theorem nopCompletes : Obligations.NopCompletes := by
  unfold Obligations.NopCompletes
  refine ⟨by decide, fun s hb => ⟨rfl, ?_, _, exec_nop_idle hb, finish_accept_endsWith .nop s, rfl, rfl⟩,
    fun s hb => exec_busy .nop hb⟩
  rw [engineStep_accept_nop, exec_nop_idle hb]

end Sys2Proof.Machine
end

section
/-! PROOFS. The end-to-end round trip (41_crypto.md, R124): what a frame's bits reassemble to, what EXTRACT
collects from a grid that EMBED filled, and what each of the five commands leaves when it completes. -/

namespace Sys2Proof.Machine

/-! ## From a frame's bits back to its bytes -/

/-- A byte is the byte of its bits (R140, R148). -/
theorem byteOfBits_getLsbD (b : Byte) :
    byteOfBits (b.getLsbD 7) (b.getLsbD 6) (b.getLsbD 5) (b.getLsbD 4) (b.getLsbD 3) (b.getLsbD 2)
      (b.getLsbD 1) (b.getLsbD 0) = b := by
  apply BitVec.eq_of_getLsbD_eq
  intro i hi
  simp only [byteOfBits, BitVec.getLsbD_append, BitVec.getLsbD_ofBool]
  interval_cases i <;> simp

/-- A byte's bits give the byte back (R148). -/
theorem reassemble_expand_append (b : Byte) (rest : Bits) :
    reassemble (expand b ++ rest) = b :: reassemble rest := by
  have groups : reassemble (expand b ++ rest) =
      byteOfBits (b.getLsbD 7) (b.getLsbD 6) (b.getLsbD 5) (b.getLsbD 4) (b.getLsbD 3) (b.getLsbD 2)
        (b.getLsbD 1) (b.getLsbD 0) :: reassemble rest := rfl
  rw [groups, byteOfBits_getLsbD]

/-- Reassembly inverts bit expansion at the front of a bit sequence (R148). -/
theorem reassemble_expandBytes_append (bs : Bytes) (rest : Bits) :
    reassemble (expandBytes bs ++ rest) = bs ++ reassemble rest := by
  induction bs with
  | nil => rfl
  | cons b bs ih =>
    have front : expandBytes (b :: bs) ++ rest = expand b ++ (expandBytes bs ++ rest) :=
      List.append_assoc _ _ _
    rw [front, reassemble_expand_append, ih, List.cons_append]

/-- The length prefix of a ciphertext states its length (R17, R142). -/
theorem u32le_le32_append {n : Nat} (h : n < 2 ^ 32) (rest : Bytes) : u32le (le32 n ++ rest) = n := by
  simp only [u32le, le32, List.cons_append, List.getD_cons_zero, List.getD_cons_succ,
    BitVec.toNat_ofNat]
  omega

/-- Slicing takes the ciphertext out of its frame bytes, whatever follows them (R149). -/
theorem slicePayload_frameBytes_append {c : Bytes} (h : c.length < 2 ^ 32) (rest : Bytes) :
    slicePayload (frameBytes c ++ rest) = some c := by
  have hlen : (frameBytes c ++ rest).length = 4 + c.length + rest.length := by
    rw [List.length_append, length_frameBytes]
  have hprefix : u32le (frameBytes c ++ rest) = c.length := by
    rw [frameBytes, List.append_assoc, u32le_le32_append h]
  have hdrop : (frameBytes c ++ rest).drop 4 = c ++ rest := rfl
  rw [slicePayload, hlen, hprefix, hdrop, if_neg (by omega), if_neg (by omega), List.take_left]

/-- A bit sequence that begins with a frame gives the frame's ciphertext (R148, R149). -/
theorem slicePayload_reassemble_frame_append {c : Bytes} (h : c.length < 2 ^ 32) (rest : Bits) :
    slicePayload (reassemble (frame c ++ rest)) = some c := by
  rw [frame, reassemble_expandBytes_append, slicePayload_frameBytes_append h]

/-! ## The slot bits of an embedded grid -/

/-- Extraction reads the bit that substitution put (R145). -/
theorem lsbGet_lsbPut (v : Byte) (f : Bool) : lsbGet (lsbPut v f) = f := by
  cases f <;> simp [lsbGet, lsbPut]

/-- The LSBs of R, G and B pixel by pixel are the LSBs slot by slot (R146). -/
theorem flatMap_pixels_eq_map_slots (m : List Host.Cell) (a n : Nat) :
    (List.range n).flatMap (fun q => (Memory.readAll m (a + 4 * q) 3).map lsbGet) =
      (List.range (3 * n)).map (fun j => lsbGet (Memory.read m (a + slotOffset j))) := by
  induction n with
  | zero => rfl
  | succ n ih =>
    have hslot : ∀ c, c < 3 → slotOffset (3 * n + c) = 4 * n + c := by
      intro c hc
      unfold slotOffset
      omega
    rw [List.range_succ, List.flatMap_append, ih, Nat.mul_succ, List.range_add, List.map_append,
      List.map_map]
    congr 1
    simp only [List.flatMap_singleton, Memory.readAll, List.map_map]
    apply List.map_congr_left
    intro c hc
    simp only [Function.comp, hslot c (List.mem_range.mp hc), Nat.add_assoc]

@[simp] theorem length_slotBits (s : State) : (slotBits s).length = s.ops.capacity := by
  simp [slotBits]

theorem getElem_slotBits (s : State) {j : Nat} (h : j < (slotBits s).length) :
    (slotBits s)[j] = lsbGet (Memory.read s.mem (s.ops.srcBase.toNat + slotOffset j)) := by
  simp [slotBits]

/-- While frame bits remain, the slot of an embedded grid holds the next one (R152). -/
theorem lsbGet_embeddedByte_slot {s : State} {j : Nat} (h : j < frameBitCount s.ops.inLen.toNat) :
    lsbGet (embeddedByte s (slotOffset j)) =
      (frame (Memory.readAll s.mem s.ops.inBase.toNat s.ops.inLen.toNat)).getD j false := by
  rw [embeddedByte_slot, if_pos h, lsbGet_lsbPut]

/-- EXTRACT's operands name the grid that EMBED filled, and memory still holds that grid. -/
def readsEmbeddedGrid (s : State) (m : List Host.Cell) (u : State) : Prop :=
  u.ops.srcBase = s.ops.dstBase ∧ u.ops.width = s.ops.width ∧ u.ops.height = s.ops.height ∧
    ∀ a, s.ops.dstGrid.contains a = true → Memory.read u.mem a = Memory.read m a

/-- The slot bits of a grid into which a whole frame was embedded begin with the frame. -/
theorem slotBits_of_embedded {s u : State} {m : List Host.Cell}
    (hfit : frameBitCount s.ops.inLen.toNat ≤ s.ops.capacity)
    (hm : embeddedBetween s m 0 s.ops.gridBytes) (hu : readsEmbeddedGrid s m u) :
    ∃ rest, slotBits u =
      frame (Memory.readAll s.mem s.ops.inBase.toNat s.ops.inLen.toNat) ++ rest := by
  obtain ⟨hbase, hwidth, hheight, hgrid⟩ := hu
  obtain ⟨-, hfilled⟩ := hm
  have hcap : u.ops.capacity = s.ops.capacity := by
    simp only [Operands.capacity, Operands.npix, hwidth, hheight]
  have hframe := length_frame (Memory.readAll s.mem s.ops.inBase.toNat s.ops.inLen.toNat)
  rw [Memory.length_readAll] at hframe
  have hprefix : frame (Memory.readAll s.mem s.ops.inBase.toNat s.ops.inLen.toNat) <+: slotBits u := by
    rw [List.prefix_iff_getElem]
    refine ⟨by rw [hframe, length_slotBits, hcap]; exact hfit, fun j hj => ?_⟩
    have hoff : slotOffset j < s.ops.gridBytes := slotOffset_lt (by omega)
    have hin : s.ops.dstGrid.contains (s.ops.dstBase.toNat + slotOffset j) = true :=
      Region.contains_iff.mpr ⟨Nat.le_add_right _ _, Nat.add_lt_add_left hoff _⟩
    rw [getElem_slotBits, hbase, hgrid _ hin, hfilled _ (Nat.zero_le _) hoff,
      lsbGet_embeddedByte_slot (by omega), List.getD_eq_getElem _ _ hj]
  obtain ⟨rest, hrest⟩ := hprefix
  exact ⟨rest, hrest.symm⟩

/-! ## What each command leaves when it completes -/

/-- Output writes that meet no bus error complete: OUT_LEN and the bytes at OUT_BASE are the output's. -/
theorem writeOutput_of_ne_busError {out : Bytes} {s t : State} (h : writeOutput out s = .next t)
    (hbus : t.status.errcode ≠ .busError) :
    t.status.errcode = .noError ∧ t.outLen = BitVec.ofNat 32 out.length ∧
      Memory.readAll t.mem s.ops.outBase.toNat out.length = out := by
  rcases writeOutput_next h with ⟨-, rfl⟩ | ⟨j, -, -, rfl⟩
  · exact ⟨rfl, rfl, Memory.readAll_writeAll _ _ _⟩
  · exact absurd rfl hbus

/-- DERIVE_KEY that completes writes the hash of the passphrase (R118). -/
theorem execWith_deriveKey_noError {port : CryptoPort} {s t : State} (hb : s.status.busy = false)
    (h : execWith port .deriveKey s = .next t) (hok : t.status.errcode = .noError) :
    Memory.readAll t.mem s.ops.outBase.toNat 32 =
      (port.hash (Memory.readAll s.mem s.ops.inBase.toNat s.ops.inLen.toNat)).toList := by
  rw [execWith, issue_idle hb] at h
  rcases deriveKeyBody_next h with ⟨e, he, rfl⟩ | ⟨-, ⟨j, -, -, rfl⟩ | hw⟩
  · cases hok
    exact absurd he (parameterCheck_ne (op := .deriveKey) (s := s))
  · cases hok
  · obtain ⟨-, -, hout⟩ := writeOutput_of_ne_busError hw (by rw [hok]; decide)
    rwa [Vector.length_toList] at hout

/-- SEAL that completes writes its nonce and the port's sealed bytes (R119, R120). -/
theorem execWith_sealPlain_noError {port : CryptoPort} {s t : State} (hb : s.status.busy = false)
    (h : execWith port .sealPlain s = .next t) (hok : t.status.errcode = .noError) :
    ∃ nonce sealed, nonce.length = s.plat.nonceSize.val ∧
      port.aeadSeal (Memory.readAll s.mem s.ops.keyBase.toNat 32) nonce
        (Memory.readAll s.mem s.ops.inBase.toNat s.ops.inLen.toNat) = .sealedBytes sealed ∧
      sealed.length = s.ops.inLen.toNat + Config.tagSize ∧
      Memory.readAll t.mem s.ops.outBase.toNat t.outLen.toNat = nonce ++ sealed := by
  rw [execWith, issue_idle hb] at h
  rcases sealBody_next h with ⟨e, he, rfl⟩ | ⟨hcheck, ⟨j, -, -, rfl⟩ | ⟨j, -, -, rfl⟩ | hs⟩
  · cases hok
    exact absurd he (parameterCheck_ne (op := .sealPlain) (s := s))
  · cases hok
  · cases hok
  rcases sealWith_next hs with ⟨rfl, -⟩ | rfl | ⟨nonce, sealed, hdraw, hseal, hlen, hw⟩
  · cases hok
  · cases hok
  obtain ⟨-, hout, hread⟩ := writeOutput_of_ne_busError hw (by rw [hok]; decide)
  rw [Memory.length_readAll] at hlen
  have hnonce := draw_length hdraw
  have hroom := checkSeal_none hcheck
  simp only [accept_ops, accept_plat, accept_mem] at hseal hlen hnonce hroom hread
  have htotal : t.outLen.toNat = (nonce ++ sealed).length := by
    have := s.ops.outCap.isLt
    rw [hout, BitVec.toNat_ofNat, List.length_append, hnonce, hlen, Config.tagSize]
    omega
  exact ⟨nonce, sealed, hnonce, hseal, hlen, by rw [htotal]; exact hread⟩

/-- EMBED that completes with TRUNC = 0 has embedded its whole frame (R29, R152). -/
theorem exec_embed_noError {s t : State} (hb : s.status.busy = false) (h : exec .embed s = .next t)
    (hok : t.status.errcode = .noError) (htrunc : t.status.trunc = false) :
    frameBitCount s.ops.inLen.toNat ≤ s.ops.capacity ∧
      embeddedBetween s t.mem 0 s.ops.gridBytes := by
  rcases execEmbed_next hb h with ⟨e, he, rfl⟩ | ⟨-, m, ⟨hm, rfl⟩ | ⟨n, a, -, -, -, rfl⟩⟩
  · cases hok
    exact absurd he (parameterCheck_ne (op := .embed) (s := s))
  · refine ⟨?_, hm⟩
    simpa [embedStart_eq] using htrunc
  · cases hok

/-- EXTRACT's parameter checks (R153). -/
theorem checkExtract_some {o : Operands} {e : ErrCode} (h : checkExtract o = some e) :
    e = .range ∨ e = .overlap := by
  unfold checkExtract at h
  split_ifs at h <;> cases h
  · exact .inl rfl
  · exact .inr rfl

/-- EXTRACT that ends in no parameter or bus error goes on with the grid's slot bits (R153). -/
theorem exec_extract_slotBits {s t : State} (hb : s.status.busy = false)
    (h : exec .extract s = .next t) (hrange : t.status.errcode ≠ .range)
    (hoverlap : t.status.errcode ≠ .overlap) (hbus : t.status.errcode ≠ .busError) :
    extractFrom (slotBits s) (writeCapBits (accept .extract s)) = .next t := by
  simp only [exec, execExtract, issue_idle hb] at h
  rcases extractBody_next h with ⟨e, he, rfl⟩ | ⟨-, ⟨q, c, -, -, -, rfl⟩ | h⟩
  · rcases checkExtract_some he with rfl | rfl
    · exact absurd rfl hrange
    · exact absurd rfl hoverlap
  · exact absurd rfl hbus
  · rwa [flatMap_pixels_eq_map_slots] at h

/-- EXTRACT of a grid into which a whole frame was embedded writes the frame's payload (R153, R155). -/
theorem exec_extract_of_embedded {s u v : State} {m : List Host.Cell}
    (hfit : frameBitCount s.ops.inLen.toNat ≤ s.ops.capacity)
    (hm : embeddedBetween s m 0 s.ops.gridBytes) (hu : readsEmbeddedGrid s m u)
    (hb : u.status.busy = false) (h : exec .extract u = .next v)
    (hok : v.status.errcode = .noError) :
    v.outLen = s.ops.inLen ∧
      Memory.readAll v.mem u.ops.outBase.toNat s.ops.inLen.toNat =
        Memory.readAll s.mem s.ops.inBase.toNat s.ops.inLen.toNat := by
  obtain ⟨rest, hbits⟩ := slotBits_of_embedded hfit hm hu
  have hx := exec_extract_slotBits hb h (by rw [hok]; decide) (by rw [hok]; decide)
    (by rw [hok]; decide)
  have hslice := slicePayload_reassemble_frame_append
    (c := Memory.readAll s.mem s.ops.inBase.toNat s.ops.inLen.toNat)
    (by rw [Memory.length_readAll]; exact s.ops.inLen.isLt) rest
  rcases extractFrom_next hx with ⟨hnone, -⟩ | ⟨payload, hsome, hp⟩
  · rw [hbits, hslice] at hnone
    cases hnone
  rw [hbits, hslice] at hsome
  cases hsome
  rcases hp with ⟨-, rfl⟩ | ⟨-, hw⟩
  · cases hok
  obtain ⟨-, hlen, hread⟩ := writeOutput_of_ne_busError hw (by rw [hok]; decide)
  rw [Memory.length_readAll] at hlen hread
  exact ⟨by rw [hlen, BitVec.ofNat_toNat, BitVec.setWidth_eq], hread⟩

/-- OPEN's parameter checks on a ciphertext no shorter than a nonce and a tag (R122). -/
theorem checkOpen_some {p : Platform} {o : Operands} {e : ErrCode}
    (hlong : p.nonceSize.val + Config.tagSize ≤ o.inLen.toNat) (h : checkOpen p o = some e) :
    e = .range ∨ e = .overlap ∨ e = .outOverflow := by
  unfold checkOpen at h
  split_ifs at h
  · cases h; exact .inl rfl
  · cases h; exact .inr (.inl rfl)
  · omega
  · omega
  · cases h; exact .inr (.inr rfl)

/-- OPEN of a nonce and sealed bytes that the port opens to `p` writes `p` (R122). -/
theorem execWith_openSealed_plain {port : CryptoPort} {s t : State} {nonce sealed p : Bytes}
    (hb : s.status.busy = false) (hnonce : nonce.length = s.plat.nonceSize.val)
    (hsealed : sealed.length = p.length + Config.tagSize)
    (hin : Memory.readAll s.mem s.ops.inBase.toNat s.ops.inLen.toNat = nonce ++ sealed)
    (hopen : port.aeadOpen (Memory.readAll s.mem s.ops.keyBase.toNat 32) nonce sealed = .plain p)
    (h : execWith port .openSealed s = .next t) (hrange : t.status.errcode ≠ .range)
    (hoverlap : t.status.errcode ≠ .overlap) (hroom : t.status.errcode ≠ .outOverflow)
    (hbus : t.status.errcode ≠ .busError) :
    t.status.errcode = .noError ∧ t.outLen = BitVec.ofNat 32 p.length ∧
      Memory.readAll t.mem s.ops.outBase.toNat p.length = p := by
  have hlen : s.ops.inLen.toNat = s.plat.nonceSize.val + (p.length + Config.tagSize) := by
    rw [← Memory.length_readAll s.mem s.ops.inBase.toNat s.ops.inLen.toNat, hin,
      List.length_append, hnonce, hsealed]
  rw [execWith, issue_idle hb] at h
  rcases openBody_next h with ⟨e, he, rfl⟩ | ⟨-, ⟨j, -, -, rfl⟩ | ⟨j, -, -, rfl⟩ | ho⟩
  · rcases checkOpen_some (by rw [accept_ops, accept_plat]; omega) he with rfl | rfl | rfl
    · exact absurd rfl hrange
    · exact absurd rfl hoverlap
    · exact absurd rfl hroom
  · exact absurd rfl hbus
  · exact absurd rfl hbus
  simp only [accept_mem, accept_ops, hin] at ho
  rcases openWith_next ho with ⟨-, ha⟩ | ⟨p', ha, hp⟩ <;>
    rw [accept_plat, ← hnonce, List.take_left, List.drop_left, Config.keySize, hopen] at ha
  · cases ha
  cases ha
  rcases hp with ⟨hne, -⟩ | ⟨-, hw⟩
  · rw [accept_plat, ← hnonce, List.length_append, hsealed] at hne
    omega
  · exact writeOutput_of_ne_busError (s := accept .openSealed s) hw hbus

/-! ## The five commands in order -/

/-- Settles O58: SEAL's bytes are embedded whole and extracted again, so OPEN gets the nonce and the sealed
bytes under the key that sealed them, where the port's law applies. -/
theorem endToEndRoundTrip : Obligations.EndToEndRoundTrip := by
  unfold Obligations.EndToEndRoundTrip
  intro port s0 t0 s1 t1 s2 t2 s3 t3 s4 t4 hlaw hb0 hb1 hb2 hb3 hb4 hderive hok0 hkey1 hseal hok1
    hlen2 hin2 hembed hok2 htrunc hbase hwidth hheight hgrid hextract hok3 hnonce4 hlen4 hin4 hkey4
    hopen hrange hoverlap hroom hbus
  obtain ⟨nonce, sealed, hnonce, hsealed, hsize, hcipher⟩ :=
    execWith_sealPlain_noError hb1 hseal hok1
  obtain ⟨hfit, hfilled⟩ := exec_embed_noError hb2 hembed hok2 htrunc
  obtain ⟨hlen3, hread3⟩ := exec_extract_of_embedded hfit hfilled ⟨hbase, hwidth, hheight, hgrid⟩ hb3
    hextract hok3
  rw [hlen2] at hlen3 hread3
  have hback : Memory.readAll t3.mem s3.ops.outBase.toNat t3.outLen.toNat =
      Memory.readAll t1.mem s1.ops.outBase.toNat t1.outLen.toNat := by
    rw [hlen3, hread3, hin2]
  have hsameKey : Memory.readAll s4.mem s4.ops.keyBase.toNat 32 =
      Memory.readAll s1.mem s1.ops.keyBase.toNat 32 := by
    rw [hkey4, hkey1, execWith_deriveKey_noError hb0 hderive hok0]
  have hopens : port.aeadOpen (Memory.readAll s4.mem s4.ops.keyBase.toNat 32) nonce sealed =
      .plain (Memory.readAll s1.mem s1.ops.inBase.toNat s1.ops.inLen.toNat) := by
    rw [hsameKey]
    exact hlaw _ nonce _ sealed (Memory.length_readAll _ _ _) hnonce hsealed
  obtain ⟨hok4, hlen, hplain⟩ := execWith_openSealed_plain hb4 (by rw [hnonce, hnonce4])
    (by rw [hsize, Memory.length_readAll]) (by rw [hlen4, hin4, hback, hcipher]) hopens hopen hrange
    hoverlap hroom hbus
  rw [Memory.length_readAll] at hlen hplain
  exact ⟨⟨hlen3, hback⟩, hok4, by rw [hlen, BitVec.ofNat_toNat, BitVec.setWidth_eq], hplain⟩

end Sys2Proof.Machine
end

section
/-! PROOFS. The bit-packing codec (42_codec.md): the layout of a frame, what LSB substitution changes, CAPACITY,
what EMBED keeps, and the codec round trip. -/

namespace Sys2Proof.Machine

/-! ## EXTRACT of an embedded frame -/

/-- Slot bits that begin with a frame for which OUT has room make EXTRACT write the frame's ciphertext (R149,
R153). -/
theorem extractFrom_frame_append {c : Bytes} {s : State} (h : c.length < 2 ^ 32)
    (hroom : c.length ≤ s.ops.outCap.toNat) (rest : Bits) :
    extractFrom (frame c ++ rest) s = writeOutput c s := by
  simp only [extractFrom, slicePayload_reassemble_frame_append h, if_neg (Nat.not_lt.mpr hroom)]

/-- Settles O55: the grid's slot bits begin with the whole frame, so EXTRACT goes on to write its payload, where
only a bus error could stop it. -/
theorem codecRoundTrip : Obligations.CodecRoundTrip := by
  unfold Obligations.CodecRoundTrip
  intro s t u v hbs hbu hembed hok htrunc hbase hwidth hheight hroom hgrid hextract hrange hoverlap hbus
  obtain ⟨hfit, hfilled⟩ := exec_embed_noError hbs hembed hok htrunc
  obtain ⟨rest, hbits⟩ := slotBits_of_embedded hfit hfilled ⟨hbase, hwidth, hheight, hgrid⟩
  have hlen : (Memory.readAll s.mem s.ops.inBase.toNat s.ops.inLen.toNat).length = s.ops.inLen.toNat :=
    Memory.length_readAll _ _ _
  have hwrite := exec_extract_slotBits hbu hextract hrange hoverlap hbus
  rw [hbits, extractFrom_frame_append (by rw [hlen]; exact s.ops.inLen.isLt)
    (by rw [hlen]; exact hroom)] at hwrite
  obtain ⟨hnoError, hout, hread⟩ := writeOutput_of_ne_busError hwrite hbus
  rw [hlen] at hout hread
  exact ⟨hnoError, by rw [hout, BitVec.ofNat_toNat, BitVec.setWidth_eq], hread⟩

/-! ## Bits and frames -/

/-- Settles O17: the case of `reassemble_expandBytes_append` with nothing behind the bytes. -/
theorem reassembleInvertsExpand : Obligations.ReassembleInvertsExpand := by
  unfold Obligations.ReassembleInvertsExpand
  intro bs
  calc reassemble (expandBytes bs)
      = reassemble (expandBytes bs ++ []) := by rw [List.append_nil]
    _ = bs ++ reassemble [] := reassemble_expandBytes_append bs []
    _ = bs := List.append_nil bs

/-- Byte `i` of the four length bytes carries bits 8i to 8i + 7 of the length (R17). -/
theorem getLsbD_getD_le32 (n : Nat) {i b : Nat} (hi : i < 4) (hb : b < 8) :
    ((le32 n).getD i 0).getLsbD b = n.testBit (8 * i + b) := by
  have hbyte : (le32 n).getD i 0 = BitVec.ofNat 8 (n >>> (8 * i)) := by
    rw [Nat.shiftRight_eq_div_pow]
    interval_cases i <;> simp [le32]
  rw [hbyte, BitVec.getLsbD_ofNat, Nat.testBit_shiftRight, decide_eq_true hb, Bool.true_and]

/-- Frame bit `k` by its place in the frame bytes, MSB first (R141, R143). -/
theorem getElem?_frame (c : Bytes) {k : Nat} (h : k < 8 * (4 + c.length)) :
    (frame c)[k]? = some (((frameBytes c).getD (k / 8) 0).getLsbD (7 - k % 8)) := by
  rw [frame, getElem?_expandBytes _ (by rwa [length_frameBytes])]

theorem getD_frameBytes_length (c : Bytes) {i : Nat} (h : i < 4) :
    (frameBytes c).getD i 0 = (le32 c.length).getD i 0 :=
  List.getD_append _ _ _ _ h

theorem getD_frameBytes_payload (c : Bytes) (i : Nat) : (frameBytes c).getD (4 + i) 0 = c.getD i 0 := by
  have hlen : (le32 c.length).length = 4 := rfl
  rw [frameBytes, List.getD_append_right _ _ _ _ (by omega), hlen, Nat.add_sub_cancel_left]

/-- Settles O18: the first four frame bytes are the length's, and those behind them the ciphertext's. -/
theorem frameBitLayout : Obligations.FrameBitLayout := by
  unfold Obligations.FrameBitLayout
  refine fun c _ => ⟨length_frame c, fun t ht => ?_, fun t ht => ?_⟩
  · rw [getElem?_frame c (by omega), getD_frameBytes_length c (by omega),
      getLsbD_getD_le32 _ (by omega) (by omega), Nat.add_sub_assoc (by omega)]
  · rw [getElem?_frame c (by omega), show (32 + t) / 8 = 4 + t / 8 by omega,
      show (32 + t) % 8 = t % 8 by omega, getD_frameBytes_payload]

/-! ## LSB substitution -/

/-- LSB substitution bit by bit (R145). -/
theorem getLsbD_lsbPut (v : Byte) (f : Bool) (i : Nat) :
    (lsbPut v f).getLsbD i = if i = 0 then f else v.getLsbD i := by
  by_cases hi : i < 8
  · simp only [lsbPut, BitVec.getLsbD_or, BitVec.getLsbD_and, BitVec.getLsbD_setWidth, BitVec.getLsbD_ofBool]
    interval_cases i <;> simp
  · rw [if_neg (by omega), BitVec.getLsbD_of_ge _ _ (by omega), BitVec.getLsbD_of_ge _ _ (by omega)]

/-- LSB substitution keeps bits 7:1 (R145). -/
theorem lsbPut_and_fe (v : Byte) (f : Bool) : lsbPut v f &&& 0xFE = v &&& 0xFE := by
  apply BitVec.eq_of_getLsbD_eq
  intro i _
  rw [BitVec.getLsbD_and, BitVec.getLsbD_and, getLsbD_lsbPut]
  split
  · subst i
    simp
  · rfl

/-- LSB substitution on numbers: the frame bit is the parity, the rest is the byte's (R145). -/
theorem toNat_lsbPut (v : Byte) (f : Bool) : (lsbPut v f).toNat = 2 * (v.toNat / 2) + f.toNat := by
  apply Nat.eq_of_testBit_eq
  intro i
  rw [BitVec.testBit_toNat, getLsbD_lsbPut]
  cases i with
  | zero => cases f <;> simp [Nat.testBit_zero]
  | succ i =>
    have hhalf : (2 * (v.toNat / 2) + f.toNat) / 2 = v.toNat / 2 := by
      have := Bool.toNat_lt f
      omega
    rw [if_neg (Nat.succ_ne_zero i), Nat.testBit_succ, hhalf, ← Nat.testBit_succ, BitVec.testBit_toNat]

/-- The extracted bit is the byte's parity (R145). -/
theorem toNat_lsbGet (v : Byte) : (lsbGet v).toNat = v.toNat % 2 := by
  rw [lsbGet, BitVec.getLsbD, Nat.testBit_zero]
  rcases Nat.mod_two_eq_zero_or_one v.toNat with h | h <;> simp [h]

/-- Settles O19: the number and the kept bits of what was put, then what is read from it and from any byte. -/
theorem lsbPutChangesBitZeroOnly : Obligations.LsbPutChangesBitZeroOnly := by
  unfold Obligations.LsbPutChangesBitZeroOnly
  exact fun v f => ⟨toNat_lsbPut v f, lsbPut_and_fe v f, lsbGet_lsbPut v f, toNat_lsbGet v⟩

/-! ## EMBED -/

/-- EMBED that ends without error, truncated or not, has filled a destination grid that meets neither its source
grid nor its payload (R152). -/
theorem exec_embed_fills {s t : State} (hb : s.status.busy = false) (h : exec .embed s = .next t)
    (hok : t.status.errcode = .noError) :
    destinationApart s ∧ embeddedBetween s t.mem 0 s.ops.gridBytes := by
  rcases execEmbed_next hb h with ⟨e, he, rfl⟩ | ⟨hcheck, m, ⟨hm, rfl⟩ | ⟨n, a, -, -, -, rfl⟩⟩
  · cases hok
    exact absurd he (parameterCheck_ne (op := .embed) (s := s))
  · exact ⟨destinationApart_of_check hcheck, hm⟩
  · cases hok

/-- A byte of the source grid is none of a destination grid that lies apart from it. -/
theorem outside_dstGrid_of_destinationApart {s : State} {a : Nat} (hapart : destinationApart s)
    (ha : s.ops.srcGrid.contains a = true) :
    a < s.ops.dstBase.toNat ∨ s.ops.dstBase.toNat + s.ops.gridBytes ≤ a := by
  obtain ⟨hlo, hhi⟩ : s.ops.srcBase.toNat ≤ a ∧ a < s.ops.srcBase.toNat + s.ops.gridBytes :=
    Region.contains_iff.mp ha
  by_contra hin
  obtain ⟨hsrc, -⟩ := hapart (a - s.ops.dstBase.toNat) (by omega)
  exact hsrc (a - s.ops.srcBase.toNat) (by omega) (by omega)

/-- Settles O31: the destination grid holds the embedded bytes and nothing else changed. -/
theorem embedPreservesTheRest : Obligations.EmbedPreservesTheRest := by
  unfold Obligations.EmbedPreservesTheRest
  intro s t hb h hok
  obtain ⟨hapart, houtside, hfilled⟩ := exec_embed_fills hb h hok
  have hslot : ∀ j, j < s.ops.capacity →
      Memory.read t.mem (s.ops.dstBase.toNat + slotOffset j) = embeddedByte s (slotOffset j) :=
    fun j hj => hfilled _ (Nat.zero_le _) (slotOffset_lt hj)
  refine ⟨fun p hp => ?_, fun j hj => ?_, fun j hpast hj => ?_, fun a ha => ?_⟩
  · have halpha : 4 * p + 3 < s.ops.gridBytes := by
      simp only [Operands.gridBytes]
      omega
    rw [Nat.add_assoc, hfilled _ (Nat.zero_le _) halpha, embeddedByte_alpha]
  · rw [hslot j hj, embeddedByte_slot]
    split
    · exact lsbPut_and_fe _ _
    · rfl
  · rw [hslot j hj, embeddedByte_slot, if_neg (by simp only [frameBitCount]; omega)]
  · exact houtside a (outside_dstGrid_of_destinationApart hapart ha)

/-! ## CAPACITY -/

theorem toNat_sat32 (n : Nat) : (sat32 n).toNat = min n 0xFFFFFFFF := by
  rw [sat32, BitVec.toNat_ofNat]
  omega

/-- CAPACITY from idle is acceptance, the lines of R150 and the completion step (R151). -/
theorem exec_capacity_idle {s : State} (hb : s.status.busy = false) :
    exec .capacity s = .next (finish .noError (writeFits (writeCapBits (accept .capacity s)))) :=
  issue_idle hb

/-- Settles O21: each register by what the completed state holds, CAP_BITS saturated by `toNat_sat32`. -/
theorem capacityReportsCapBitsAndFits : Obligations.CapacityReportsCapBitsAndFits := by
  unfold Obligations.CapacityReportsCapBitsAndFits
  exact ⟨by decide, fun s hb => ⟨_, exec_capacity_idle hb, ⟨rfl, rfl, rfl, rfl, sameConfiguration.refl s⟩,
    toNat_sat32 _, rfl, rfl⟩⟩

end Sys2Proof.Machine
end

section
/-! PROOFS. Exceptions (60_exceptions.md): every command ends in one completion step, IRQ as IRQ_EN AND DONE, and
the block after an error. -/

namespace Sys2Proof.Machine

/-! ## Every command ends in a completion step -/

/-- `t` is the completion step (R97), with some code, of a state that is configured as `s` is. -/
def completedFrom (s t : State) : Prop := ∃ code u, sameConfiguration s u ∧ t = finish code u

theorem completedFrom_finish {s u : State} (code : ErrCode) (h : sameConfiguration s u) :
    completedFrom s (finish code u) :=
  ⟨code, u, h, rfl⟩

theorem completedFrom_raiseBusError {s u : State} (addr : Nat) (h : sameConfiguration s u) :
    completedFrom s (raiseBusError addr u) :=
  completedFrom_finish .busError h

theorem completedFrom_writeOutput {out : Bytes} {s u t : State} (hs : sameConfiguration s u)
    (h : writeOutput out u = .next t) : completedFrom s t := by
  rcases writeOutput_next h with ⟨-, rfl⟩ | ⟨j, -, -, rfl⟩
  · exact completedFrom_finish .noError hs
  · exact completedFrom_raiseBusError _ hs

theorem completedFrom_deriveKeyBody {port : CryptoPort} {s t : State}
    (h : deriveKeyBody port s = .next t) : completedFrom s t := by
  have hs := sameConfiguration.refl s
  rcases deriveKeyBody_next h with ⟨e, -, rfl⟩ | ⟨-, ⟨j, -, -, rfl⟩ | h⟩
  · exact completedFrom_finish e hs
  · exact completedFrom_raiseBusError _ hs
  · exact completedFrom_writeOutput hs h

theorem completedFrom_sealBody {port : CryptoPort} {s t : State} (h : sealBody port s = .next t) :
    completedFrom s t := by
  have hs := sameConfiguration.refl s
  have hdrawn : sameConfiguration s { s with draws := s.draws + 1 } := hs
  rcases sealBody_next h with ⟨e, -, rfl⟩ | ⟨-, ⟨j, -, -, rfl⟩ | ⟨j, -, -, rfl⟩ | h⟩
  · exact completedFrom_finish e hs
  · exact completedFrom_raiseBusError _ hs
  · exact completedFrom_raiseBusError _ hs
  · rcases sealWith_next h with ⟨rfl, -⟩ | rfl | ⟨nonce, sealed, -, -, -, h⟩
    · exact completedFrom_finish .rngFail hdrawn
    · exact completedFrom_finish .cipherFail hdrawn
    · exact completedFrom_writeOutput hdrawn h

theorem completedFrom_openBody {port : CryptoPort} {s t : State} (h : openBody port s = .next t) :
    completedFrom s t := by
  have hs := sameConfiguration.refl s
  rcases openBody_next h with ⟨e, -, rfl⟩ | ⟨-, ⟨j, -, -, rfl⟩ | ⟨j, -, -, rfl⟩ | h⟩
  · exact completedFrom_finish e hs
  · exact completedFrom_raiseBusError _ hs
  · exact completedFrom_raiseBusError _ hs
  · rcases openWith_next h with ⟨rfl, -⟩ | ⟨p, -, ⟨-, rfl⟩ | ⟨-, h⟩⟩
    · exact completedFrom_finish .authFail hs
    · exact completedFrom_finish .cipherFail hs
    · exact completedFrom_writeOutput hs h

theorem completedFrom_extractBody {s t : State} (h : extractBody s = .next t) : completedFrom s t := by
  have hs : sameConfiguration s (writeCapBits s) := sameConfiguration.refl s
  rcases extractBody_next h with ⟨e, -, rfl⟩ | ⟨-, ⟨q, c, -, -, -, rfl⟩ | h⟩
  · exact completedFrom_finish e hs
  · exact completedFrom_raiseBusError _ hs
  · rcases extractFrom_next h with ⟨-, rfl⟩ | ⟨payload, -, ⟨-, rfl⟩ | ⟨-, h⟩⟩
    · exact completedFrom_finish .framing hs
    · exact completedFrom_finish .outOverflow hs
    · exact completedFrom_writeOutput hs h

theorem sameConfiguration_embedStart (s : State) (m : List Host.Cell) :
    sameConfiguration s { embedStart s with mem := m } := by
  rw [embedStart_eq]
  exact sameConfiguration.refl s

/-- Acceptance leaves the configuration (R92), so a completion after it is one from the state before. -/
theorem completedFrom_of_accept {i : Instr} {s t : State} (h : completedFrom (accept i s) t) :
    completedFrom s t := h

/-- A command issued while idle that gives a next state ends in its completion step (R97, R181). -/
theorem completedFrom_exec {i : Instr} {s t : State} (hb : s.status.busy = false)
    (h : exec i s = .next t) : completedFrom s t := by
  cases i with
  | nop =>
    simp only [exec, execNop, issue_idle hb] at h
    rw [nopBody_next h]
    exact completedFrom_finish .noError (sameConfiguration.refl s)
  | deriveKey =>
    simp only [exec, execDeriveKey, issue_idle hb] at h
    exact completedFrom_of_accept (completedFrom_deriveKeyBody h)
  | sealPlain =>
    simp only [exec, execSeal, issue_idle hb] at h
    exact completedFrom_of_accept (completedFrom_sealBody h)
  | openSealed =>
    simp only [exec, execOpen, issue_idle hb] at h
    exact completedFrom_of_accept (completedFrom_openBody h)
  | capacity =>
    simp only [exec, execCapacity, issue_idle hb] at h
    rw [capacityBody_next h]
    exact completedFrom_finish .noError (sameConfiguration.refl s)
  | embed =>
    rcases execEmbed_next hb h with ⟨e, -, rfl⟩ | ⟨-, m, ⟨-, rfl⟩ | ⟨n, a, -, -, -, rfl⟩⟩
    · exact completedFrom_finish e (sameConfiguration.refl s)
    · exact completedFrom_finish .noError (sameConfiguration_embedStart s m)
    · exact completedFrom_raiseBusError a (sameConfiguration_embedStart s m)
  | extract =>
    simp only [exec, execExtract, issue_idle hb] at h
    exact completedFrom_of_accept (completedFrom_extractBody h)

theorem busy_of_completedFrom {s t : State} (h : completedFrom s t) : t.status.busy = false := by
  obtain ⟨code, u, -, rfl⟩ := h
  rfl

/-! ## Return from an error -/

/-- A CMD write of a command's word while idle is the acceptance of that command (R90). -/
theorem hostWrite_cmd_command {s : State} {w : Word} {i : Instr} (hb : s.status.busy = false)
    (hd : decode w = .ok i) :
    hostWrite (Reg.address s.plat.codecBase .cmd) 4 w s = { accept i s with response := .written } := by
  rw [hostWrite_cmd_idle w hb, acceptWord_command hd]

/-- A write of 6 to STATUS is the acknowledgement: bits 1 and 2 are set and bit 3 is not (R188). -/
theorem clearWritten_six (st : Status) : st.clearWritten 6 = { st with done := false, err := false } := by
  simp [Status.clearWritten]

/-- Settles O16: an error ends as every command does, idle, where the next command's word is accepted; the write
of 6 is one of STATUS that keeps ERRCODE and OVERRUN. -/
theorem returnFromError : Obligations.ReturnFromError := by
  unfold Obligations.ReturnFromError
  refine ⟨fun i s t hb h _ => ?_, fun s => ?_⟩
  · have hidle : t.status.busy = false := busy_of_completedFrom (completedFrom_exec hb h)
    refine ⟨hidle, fun w j hd => ?_⟩
    rw [hostWrite_cmd_command hidle hd]
    exact ⟨rfl, rfl, rfl, rfl, rfl, rfl, rfl⟩
  · rw [hostWrite_status, acknowledge, clearWritten_six]
    exact ⟨rfl, rfl, rfl, Bool.and_false _, rfl, rfl⟩

/-! ## IRQ -/

/-- A completion step asserts IRQ where IRQ_EN is set, whatever its code (R191). -/
theorem irq_finish (code : ErrCode) (s : State) : (finish code s).irq = s.ctrl.irqEn :=
  Bool.and_true _

/-- Acceptance deasserts IRQ: it clears DONE (R92, R191). -/
theorem irq_accept (i : Instr) (s : State) : (accept i s).irq = false :=
  Bool.and_false _

theorem irq_of_completedFrom {s t : State} (h : completedFrom s t) : t.irq = s.ctrl.irqEn := by
  obtain ⟨code, u, ⟨hctrl, -⟩, rfl⟩ := h
  rw [irq_finish, hctrl]

/-- A write of STATUS with bit 1 set deasserts IRQ: it clears DONE (R24, R191). -/
theorem irq_hostWrite_status {s : State} {v : Word} (hv : v.getLsbD 1 = true) :
    (hostWrite (Reg.address s.plat.codecBase .status) 4 v s).irq = false := by
  simp [hostWrite_status, State.irq, Status.clearWritten, hv]

/-- Settles O14: the completions, the acceptance and the two register writes that IRQ depends on. -/
theorem irqFollowsDoneAndEnable : Obligations.IrqFollowsDoneAndEnable := by
  unfold Obligations.IrqFollowsDoneAndEnable
  refine ⟨fun s => rfl, rfl, rfl, fun i s t hb h => irq_of_completedFrom (completedFrom_exec hb h),
    fun s v hv => irq_hostWrite_status hv, fun s w i hb hd => ?accepted, fun s w e hb hd => ?illegal,
    fun s v hb => ?ctrl⟩
  case accepted =>
    rw [hostWrite_cmd_command hb hd]
    exact irq_accept i s
  case illegal =>
    rw [hostWrite_cmd_idle w hb, acceptWord_illegal hd]
    exact irq_finish .illegalOp (clearForCommand s)
  case ctrl =>
    rw [hostWrite_reg_idle .ctrl hb rfl rfl]
    exact ⟨rfl, rfl⟩

end Sys2Proof.Machine
end

section
/-! PROOFS. The engine's steps and the meaning of a command (40_commands.md, R96, R102): a loop of reads, a loop
of writes and a transaction of the engine against the same line of the pseudocode. -/

namespace Sys2Proof.Machine

/-! ## Runs of the engine -/

/-- Enough engine steps, with no other agent's step between them, give this outcome. -/
def runsTo (port : CryptoPort) (s : State) (o : Outcome) : Prop :=
  ∃ n, ∀ m, n ≤ m → runEngine port m s = o

theorem runEngine_idle (port : CryptoPort) (n : Nat) {s : State} (hb : s.status.busy = false) :
    runEngine port n s = .next s := by
  cases n <;> simp [runEngine, hb]

theorem runEngine_succ_next {port : CryptoPort} {s t : State} (n : Nat) (hb : s.status.busy = true)
    (h : engineStep port false s = .next t) : runEngine port (n + 1) s = runEngine port n t := by
  simp [runEngine, hb, h]

/-- A step that ends the command, or stops the machine, is the last one of the run. -/
theorem runEngine_succ_last {port : CryptoPort} {s : State} (n : Nat) (hb : s.status.busy = true)
    (h : ∀ t, engineStep port false s = .next t → t.status.busy = false) :
    runEngine port (n + 1) s = engineStep port false s := by
  cases he : engineStep port false s with
  | next t => rw [runEngine_succ_next n hb he, runEngine_idle port n (h t he)]
  | fault r => simp [runEngine, hb, he]
  | refused r => simp [runEngine, hb, he]

theorem runsTo_of_next {port : CryptoPort} {s t : State} {o : Outcome} (hb : s.status.busy = true)
    (h : engineStep port false s = .next t) (ht : runsTo port t o) : runsTo port s o := by
  obtain ⟨n, hn⟩ := ht
  refine ⟨n + 1, fun m hm => ?_⟩
  obtain ⟨m, rfl⟩ : ∃ k, m = k + 1 := ⟨m - 1, by omega⟩
  rw [runEngine_succ_next m hb h, hn m (by omega)]

theorem runsTo_of_last {port : CryptoPort} {s : State} {o : Outcome} (hb : s.status.busy = true)
    (h : engineStep port false s = o) (ho : ∀ t, o = .next t → t.status.busy = false) :
    runsTo port s o := by
  refine ⟨1, fun m hm => ?_⟩
  obtain ⟨m, rfl⟩ : ∃ k, m = k + 1 := ⟨m - 1, by omega⟩
  rw [runEngine_succ_last m hb (by rwa [h]), h]

/-- States that plan the same step run to the same outcome. -/
theorem runsTo_of_planStep_eq {port : CryptoPort} {s t : State} {o : Outcome}
    (hs : s.status.busy = true) (ht : t.status.busy = true) (h : planStep s = planStep t)
    (hr : runsTo port t o) : runsTo port s o := by
  obtain ⟨n, hn⟩ := hr
  refine ⟨n + 1, fun m hm => ?_⟩
  obtain ⟨m, rfl⟩ : ∃ k, m = k + 1 := ⟨m - 1, by omega⟩
  have same : engineStep port false s = engineStep port false t := by
    rw [engineStep_busy hs, engineStep_busy ht, h]
  rw [← hn (m + 1) (by omega), runEngine, runEngine, if_pos hs, if_pos ht, same]

theorem halt_idle {h : Halt} {s t : State} (he : halt h s = .next t) : t.status.busy = false := by
  obtain ⟨a, -, rfl⟩ := halt_next he
  rfl

/-- A halted access leaves nothing of the engine it stopped. -/
theorem halt_engine (h : Halt) (s : State) (e : Engine) : halt h { s with engine := e } = halt h s := by
  cases h <;> rfl

/-! ## One access of a run -/

theorem engineRead_unraced {s : State} {a : Nat} (hr : s.raced = []) :
    engineRead false s a = (readByte s a).map fun b => (b, s) := by
  unfold engineRead readByte
  cases accessHalt s.plat a .read <;> simp [hr, Except.map]

theorem engineWrite_unraced {s : State} {a : Nat} {v : Byte} (hr : s.raced = []) :
    engineWrite s a v = writeByte s a v := by
  unfold engineWrite writeByte
  cases accessHalt s.plat a .write <;> simp [hr]

/-- A planned read, where nobody races: a halted access is the outcome, and the run goes on after the other. -/
theorem runsTo_read {port : CryptoPort} {s u : State} {a : Nat} {o : Outcome}
    (hb : s.status.busy = true) (hr : u.raced = []) (hp : planStep s = (u, .read a))
    (halted : ∀ h, accessHalt u.plat a .read = some h → o = halt h u)
    (performed : accessHalt u.plat a .read = none →
      runsTo port { u with engine := afterRead u.ops (Memory.read u.mem a) u.engine } o) :
    runsTo port s o := by
  have hstep := engineStep_busy (port := port) (raced := false) hb
  simp only [hp, performAction, engineRead_unraced hr, readByte] at hstep
  cases ha : accessHalt u.plat a .read with
  | some h =>
    simp only [ha, Except.map] at hstep
    rw [halted h ha]
    exact runsTo_of_last hb hstep fun _ => halt_idle
  | none =>
    simp only [ha, Except.map] at hstep
    exact runsTo_of_next hb hstep (performed ha)

/-- A planned write, where nobody races. -/
theorem runsTo_write {port : CryptoPort} {s u : State} {a : Nat} {v : Byte} {o : Outcome}
    (hb : s.status.busy = true) (hr : u.raced = []) (hp : planStep s = (u, .write a v))
    (halted : ∀ h, accessHalt u.plat a .write = some h → o = halt h u)
    (performed : accessHalt u.plat a .write = none →
      runsTo port { u with mem := Memory.write u.mem a v, engine := afterWrite u.ops u.engine } o) :
    runsTo port s o := by
  have hstep := engineStep_busy (port := port) (raced := false) hb
  simp only [hp, performAction, engineWrite_unraced hr, writeByte] at hstep
  cases ha : accessHalt u.plat a .write with
  | some h =>
    simp only [ha] at hstep
    rw [halted h ha]
    exact runsTo_of_last hb hstep fun _ => halt_idle
  | none =>
    simp only [ha] at hstep
    exact runsTo_of_next hb hstep (performed ha)

theorem runsTo_transact {port : CryptoPort} {s u : State} {o : Outcome} (hb : s.status.busy = true)
    (hp : planStep s = (u, .transact)) (h : runsTo port (transact port u) o) : runsTo port s o :=
  runsTo_of_next hb (by rw [engineStep_busy hb, hp]; rfl) h

theorem runsTo_raise {port : CryptoPort} {s u : State} {code : ErrCode} (hb : s.status.busy = true)
    (hp : planStep s = (u, .raise code)) : runsTo port s (.next (finish code u)) :=
  runsTo_of_last hb (by rw [engineStep_busy hb, hp]; rfl) (by rintro t ⟨⟩; rfl)

theorem runsTo_completePlain {port : CryptoPort} {s u : State} (hb : s.status.busy = true)
    (hp : planStep s = (u, .completePlain)) : runsTo port s (.next (finish .noError u)) :=
  runsTo_of_last hb (by rw [engineStep_busy hb, hp]; rfl) (by rintro t ⟨⟩; rfl)

theorem runsTo_complete {port : CryptoPort} {s u : State} {len : Nat} (hb : s.status.busy = true)
    (hp : planStep s = (u, .complete len)) : runsTo port s (.next (completeWith len u)) :=
  runsTo_of_last hb (by rw [engineStep_busy hb, hp]; rfl) (by rintro t ⟨⟩; rfl)

/-! ## Loops of accesses

A loop is given by its engine: `E bs` after the bytes `bs` have been read, `E j` after `j` bytes have been
written. -/

/-- A loop of reads of the engine is the run of reads of the pseudocode. -/
theorem runsTo_reads {port : CryptoPort} {s : State} {a n : Nat} {o : Outcome} (E : Bytes → Engine)
    (hb : s.status.busy = true) (hr : s.raced = [])
    (plan : ∀ bs, bs.length < n →
      planStep { s with engine := E bs } = ({ s with engine := E bs }, .read (a + bs.length)))
    (after : ∀ bs b, bs.length < n → afterRead s.ops b (E bs) = E (bs ++ [b]))
    (halted : ∀ h, readBytes s a n = .error h → o = halt h s)
    (done : ∀ bs, readBytes s a n = .ok bs → runsTo port { s with engine := E bs } o) :
    runsTo port { s with engine := E [] } o := by
  have loop : ∀ (k : Nat) (bs : Bytes), bs.length + k = n →
      (∀ h, readBytes s (a + bs.length) k = .error h → o = halt h s) →
      (∀ cs, readBytes s (a + bs.length) k = .ok cs → runsTo port { s with engine := E (bs ++ cs) } o) →
      runsTo port { s with engine := E bs } o := by
    intro k
    induction k with
    | zero => exact fun bs _ _ done => by simpa using done [] rfl
    | succ k ih =>
      intro bs hk halted done
      rw [readBytes_succ] at halted done
      refine runsTo_read (u := { s with engine := E bs }) hb hr (plan bs (by omega)) (fun h ha => ?_)
        fun ha => ?_
      · rw [halt_engine]
        exact halted h (by simp [show accessHalt s.plat _ _ = _ from ha])
      · simp only [show accessHalt s.plat (a + bs.length) .read = none from ha] at halted done
        rw [after bs _ (by omega)]
        refine ih _ (by simp; omega) (fun h hh => halted h ?_) fun cs hcs => ?_
        · rw [List.length_append, ← Nat.add_assoc] at hh
          simp [show readBytes s (a + bs.length + 1) k = .error h from hh, Except.map]
        · rw [List.length_append, ← Nat.add_assoc] at hcs
          rw [List.append_assoc]
          exact done _ (by simp [show readBytes s (a + bs.length + 1) k = .ok cs from hcs, Except.map])
  exact loop n [] (by simp) halted (by simpa using done)

/-- A loop of writes of the engine is the run of writes of the pseudocode. -/
theorem runsTo_writes {port : CryptoPort} {s : State} {a : Nat} {bs : Bytes} {o : Outcome}
    (E : Nat → Engine) (hb : s.status.busy = true) (hr : s.raced = [])
    (plan : ∀ m j, j < bs.length → planStep { s with mem := m, engine := E j } =
      ({ s with mem := m, engine := E j }, .write (a + j) (bs.getD j 0)))
    (after : ∀ j, j < bs.length → afterWrite s.ops (E j) = E (j + 1))
    (halted : ∀ t h, writeBytes s a bs = .error (t, h) → o = halt h t)
    (done : ∀ m, writeBytes s a bs = .ok { s with mem := m } →
      runsTo port { s with mem := m, engine := E bs.length } o) :
    runsTo port { s with engine := E 0 } o := by
  have loop : ∀ (rest : Bytes) (m : List Host.Cell) (j : Nat), bs.drop j = rest → j ≤ bs.length →
      (∀ t h, writeBytes { s with mem := m } (a + j) rest = .error (t, h) → o = halt h t) →
      (∀ m', writeBytes { s with mem := m } (a + j) rest = .ok { s with mem := m' } →
        runsTo port { s with mem := m', engine := E bs.length } o) →
      runsTo port { s with mem := m, engine := E j } o := by
    intro rest
    induction rest with
    | nil =>
      intro m j hdrop hj _ done
      have hend : j = bs.length := Nat.le_antisymm hj (List.drop_eq_nil_iff.mp hdrop)
      rw [hend]
      exact done m rfl
    | cons b rest ih =>
      intro m j hdrop hj halted done
      have hlt : j < bs.length := by
        by_contra hge
        rw [List.drop_eq_nil_of_le (by omega)] at hdrop
        cases hdrop
      rw [List.drop_eq_getElem_cons hlt] at hdrop
      injection hdrop with hbyte hdrop
      have hget : bs.getD j 0 = b := by rw [List.getD_eq_getElem _ _ hlt, hbyte]
      rw [writeBytes_cons] at halted done
      refine runsTo_write (u := { s with mem := m, engine := E j }) hb hr (plan m j hlt) (fun h ha => ?_)
        fun ha => ?_
      · rw [halt_engine h { s with mem := m }]
        exact halted _ h (by simp [show accessHalt s.plat _ _ = _ from ha])
      · simp only [show accessHalt s.plat (a + j) .write = none from ha] at halted done
        rw [hget]
        simp only [after j hlt]
        exact ih _ (j + 1) hdrop hlt halted done
  exact loop bs s.mem 0 rfl (Nat.zero_le _) halted done

/-! ## The lines that commands share -/

/-- The output writes of the engine are those of the pseudocode. -/
theorem runsTo_output {port : CryptoPort} {s : State} (hb : s.status.busy = true) (hr : s.raced = [])
    (out : Bytes) (e : Engine) :
    runsTo port { s with engine := withOutput out e } (writeOutput out s) := by
  refine runsTo_writes (a := s.ops.outBase.toNat) (bs := out) (fun j => { withOutput out e with i := j })
    hb hr (fun m j hj => ?_) (fun j _ => rfl) (fun t h hw => by rw [writeOutput, hw]) fun m hw => ?_
  · simp [planStep, withOutput, planOutput, hj]
  · rw [writeOutput, hw]
    exact runsTo_complete (u := { s with mem := m, engine := { withOutput out e with i := out.length } }) hb
      (by simp [planStep, withOutput, planOutput])

/-- The IN buffer reads, and the transaction in the step after the last (R118, R120, R122). -/
theorem runsTo_input {port : CryptoPort} {s : State} {o : Outcome} (hb : s.status.busy = true)
    (hr : s.raced = []) (e : Engine)
    (halted : ∀ h, readBytes s s.ops.inBase.toNat s.ops.inLen.toNat = .error h → o = halt h s)
    (done : ∀ bs, readBytes s s.ops.inBase.toNat s.ops.inLen.toNat = .ok bs →
      runsTo port (transact port
        { s with engine := { e with phase := transactionPhase e.curOp, i := 0, input := bs } }) o) :
    runsTo port { s with engine := { e with phase := .input, i := 0, input := [] } } o := by
  refine runsTo_reads (fun bs => { e with phase := .input, i := bs.length, input := bs }) hb hr
    (fun bs hbs => by simp [planStep, planInput, hbs]) (fun bs b _ => by simp [afterRead]) halted
    fun bs hbs => ?_
  have hlen : bs.length = s.ops.inLen.toNat := by rw [(readBytes_ok_iff.mp hbs).2]; simp
  refine runsTo_transact hb ?_ (done bs hbs)
  simp [planStep, planInput, hlen, enterPhase]

/-- The key reads of SEAL and OPEN (R117). -/
theorem runsTo_key {port : CryptoPort} {s : State} {o : Outcome} (hb : s.status.busy = true)
    (hr : s.raced = []) (e : Engine)
    (halted : ∀ h, readBytes s s.ops.keyBase.toNat Config.keySize = .error h → o = halt h s)
    (done : ∀ bs, readBytes s s.ops.keyBase.toNat Config.keySize = .ok bs →
      runsTo port { s with engine := { e with phase := .input, i := 0, key := bs } } o) :
    runsTo port { s with engine := { e with phase := .key, i := 0, key := [] } } o := by
  refine runsTo_reads (fun bs => { e with phase := .key, i := bs.length, key := bs }) hb hr
    (fun bs hbs => by simp [planStep, planKey, hbs]) (fun bs b _ => by simp [afterRead]) halted
    fun bs hbs => ?_
  have hlen : bs.length = Config.keySize := by rw [(readBytes_ok_iff.mp hbs).2]; simp
  refine runsTo_of_planStep_eq (by exact hb) (by exact hb) ?_ (done bs hbs)
  simp [planStep, planKey, hlen, enterPhase]

/-! ## The first step -/

/-- The first step's pure computation is the opening, then the code it ends with or the way to the first
access (R98, R184). -/
theorem planStep_accept {i : Instr} {s u : State} {code : Option ErrCode}
    (h : opening i (accept i s) = (u, code)) :
    planStep (accept i s) = code.elim (planFirst u) fun e => (u, .raise e) := by
  change planStart (accept i s) = _
  unfold planStart
  rw [accept_engine, show opening (Engine.atStart i).curOp (accept i s) = (u, code) from h]
  cases code <;> rfl

theorem opening_accept (i : Instr) (s : State) :
    opening i (accept i s) = ((opening i (accept i s)).1, parameterCheck i s) := by
  rw [← parameterCheck_accept i i, ← opening_code]

theorem planStep_accept_failed {i : Instr} {s : State} {code : ErrCode}
    (h : parameterCheck i s = some code) :
    planStep (accept i s) = ((opening i (accept i s)).1, .raise code) := by
  rw [planStep_accept (opening_accept i s), h]
  rfl

theorem planStep_accept_passed {i : Instr} {s : State} (h : parameterCheck i s = none) :
    planStep (accept i s) = planFirst (opening i (accept i s)).1 := by
  rw [planStep_accept (opening_accept i s), h]
  rfl

theorem runsTo_accept_failed {port : CryptoPort} {i : Instr} {s : State} {code : ErrCode}
    (h : parameterCheck i s = some code) :
    runsTo port (accept i s) (.next (finish code (opening i (accept i s)).1)) :=
  runsTo_raise rfl (planStep_accept_failed h)

/-! ## The crypto commands -/

theorem runsTo_deriveKey (port : CryptoPort) (s : State) :
    runsTo port (accept .deriveKey s) (deriveKeyBody port (accept .deriveKey s)) := by
  unfold deriveKeyBody
  split
  · rename_i code hc
    exact runsTo_accept_failed (i := .deriveKey) (s := s) hc
  · rename_i hc
    refine runsTo_of_planStep_eq (t := enterPhase .input (accept .deriveKey s)) rfl rfl
      (planStep_accept_passed (i := .deriveKey) hc)
      (runsTo_input (s := accept .deriveKey s) rfl rfl (Engine.atStart .deriveKey)
        (fun h hread => by rw [hread]) fun bs hread => ?_)
    rw [hread]
    exact runsTo_output (s := accept .deriveKey s) rfl rfl _ _

/-- A failed port answer ends the command in the step after the transaction (R98). -/
theorem runsTo_failure {port : CryptoPort} {s : State} (hb : s.status.busy = true) (code : ErrCode)
    (e : Engine) : runsTo port { s with engine := withFailure code e } (.next (finish code s)) :=
  runsTo_raise (u := { s with engine := withFailure code e }) hb rfl

section
variable {port : CryptoPort} {key plain nonce sealed : Bytes} {s : State}

theorem sealWith_failure (hdraw : port.draw s.draws s.plat.nonceSize.val = .failure) :
    sealWith port key plain s = .next (finish .rngFail { s with draws := s.draws + 1 }) := by
  simp only [sealWith, hdraw]

theorem sealWith_cipherFailure (hdraw : port.draw s.draws s.plat.nonceSize.val = .bytes nonce)
    (hseal : port.aeadSeal key nonce plain = .cipherFailure) :
    sealWith port key plain s = .next (finish .cipherFail { s with draws := s.draws + 1 }) := by
  simp only [sealWith, hdraw, hseal]

theorem sealWith_wrongLength (hdraw : port.draw s.draws s.plat.nonceSize.val = .bytes nonce)
    (hseal : port.aeadSeal key nonce plain = .sealedBytes sealed)
    (hlen : sealed.length ≠ plain.length + Config.tagSize) :
    sealWith port key plain s = .next (finish .cipherFail { s with draws := s.draws + 1 }) := by
  simp only [sealWith, hdraw, hseal, if_pos hlen]

theorem sealWith_sealed (hdraw : port.draw s.draws s.plat.nonceSize.val = .bytes nonce)
    (hseal : port.aeadSeal key nonce plain = .sealedBytes sealed)
    (hlen : sealed.length = plain.length + Config.tagSize) :
    sealWith port key plain s = writeOutput (nonce ++ sealed) { s with draws := s.draws + 1 } := by
  simp only [sealWith, hdraw, hseal, if_neg (not_not_intro hlen)]

end

/-- SEAL from its draw on (R120). -/
theorem runsTo_sealWith {port : CryptoPort} {s : State} (hb : s.status.busy = true) (hr : s.raced = [])
    {e : Engine} (hph : e.phase = .rng) :
    runsTo port (transact port { s with engine := e }) (sealWith port e.key e.input s) := by
  have failed := runsTo_failure (port := port) (s := { s with draws := s.draws + 1 }) hb
  cases hdraw : port.draw s.draws s.plat.nonceSize.val with
  | failure =>
    rw [sealWith_failure hdraw]
    simp only [transact, hph, hdraw]
    exact failed .rngFail e
  | bytes nonce =>
    simp only [transact, hph, hdraw]
    refine runsTo_transact hb rfl ?_
    cases hseal : port.aeadSeal e.key nonce e.input with
    | cipherFailure =>
      rw [sealWith_cipherFailure hdraw hseal]
      simp only [transact, afterSeal, hseal]
      exact failed .cipherFail _
    | sealedBytes sealed =>
      by_cases hlen : sealed.length = e.input.length + Config.tagSize
      · rw [sealWith_sealed hdraw hseal hlen]
        simp only [transact, afterSeal, hseal, if_neg (not_not_intro hlen)]
        exact runsTo_output (s := { s with draws := s.draws + 1 }) hb hr _ _
      · rw [sealWith_wrongLength hdraw hseal hlen]
        simp only [transact, afterSeal, hseal, if_pos hlen]
        exact failed .cipherFail _

theorem runsTo_sealPlain (port : CryptoPort) (s : State) :
    runsTo port (accept .sealPlain s) (sealBody port (accept .sealPlain s)) := by
  unfold sealBody
  split
  · rename_i code hc
    exact runsTo_accept_failed (i := .sealPlain) (s := s) hc
  · rename_i hc
    refine runsTo_of_planStep_eq (t := enterPhase .key (accept .sealPlain s)) rfl rfl
      (planStep_accept_passed (i := .sealPlain) hc)
      (runsTo_key (s := accept .sealPlain s) rfl rfl (Engine.atStart .sealPlain)
        (fun h hread => by rw [hread]) fun key hkey => ?_)
    rw [hkey]
    refine runsTo_input (s := accept .sealPlain s) rfl rfl
      { Engine.atStart .sealPlain with key := key } (fun h hread => by rw [hread])
      fun plain hplain => ?_
    rw [hplain]
    exact runsTo_sealWith (s := accept .sealPlain s) rfl rfl rfl

section
variable {port : CryptoPort} {key cipher p : Bytes} {s : State}

theorem openWith_authFailure
    (hopen : port.aeadOpen key (cipher.take s.plat.nonceSize.val) (cipher.drop s.plat.nonceSize.val) = .authFailure) :
    openWith port key cipher s = .next (finish .authFail s) := by
  simp only [openWith, hopen]

theorem openWith_wrongLength
    (hopen : port.aeadOpen key (cipher.take s.plat.nonceSize.val) (cipher.drop s.plat.nonceSize.val) = .plain p)
    (hlen : p.length ≠ (cipher.drop s.plat.nonceSize.val).length - Config.tagSize) :
    openWith port key cipher s = .next (finish .cipherFail s) := by
  simp only [openWith, hopen, if_pos hlen]

theorem openWith_plain
    (hopen : port.aeadOpen key (cipher.take s.plat.nonceSize.val) (cipher.drop s.plat.nonceSize.val) = .plain p)
    (hlen : p.length = (cipher.drop s.plat.nonceSize.val).length - Config.tagSize) :
    openWith port key cipher s = writeOutput p s := by
  simp only [openWith, hopen, if_neg (not_not_intro hlen)]

end

/-- OPEN from its transaction on (R122). -/
theorem runsTo_openWith {port : CryptoPort} {s : State} (hb : s.status.busy = true) (hr : s.raced = [])
    {e : Engine} (hph : e.phase = .unseal) :
    runsTo port (transact port { s with engine := e }) (openWith port e.key e.input s) := by
  cases hopen : port.aeadOpen e.key (e.input.take s.plat.nonceSize.val) (e.input.drop s.plat.nonceSize.val) with
  | authFailure =>
    rw [openWith_authFailure hopen]
    simp only [transact, hph, afterOpen, hopen]
    exact runsTo_failure hb .authFail e
  | plain p =>
    by_cases hlen : p.length = (e.input.drop s.plat.nonceSize.val).length - Config.tagSize
    · rw [openWith_plain hopen hlen]
      simp only [transact, hph, afterOpen, hopen, if_neg (not_not_intro hlen)]
      exact runsTo_output hb hr _ _
    · rw [openWith_wrongLength hopen hlen]
      simp only [transact, hph, afterOpen, hopen, if_pos hlen]
      exact runsTo_failure hb .cipherFail e

theorem runsTo_openSealed (port : CryptoPort) (s : State) :
    runsTo port (accept .openSealed s) (openBody port (accept .openSealed s)) := by
  unfold openBody
  split
  · rename_i code hc
    exact runsTo_accept_failed (i := .openSealed) (s := s) hc
  · rename_i hc
    refine runsTo_of_planStep_eq (t := enterPhase .key (accept .openSealed s)) rfl rfl
      (planStep_accept_passed (i := .openSealed) hc)
      (runsTo_key (s := accept .openSealed s) rfl rfl (Engine.atStart .openSealed)
        (fun h hread => by rw [hread]) fun key hkey => ?_)
    rw [hkey]
    refine runsTo_input (s := accept .openSealed s) rfl rfl
      { Engine.atStart .openSealed with key := key } (fun h hread => by rw [hread])
      fun cipher hcipher => ?_
    rw [hcipher]
    exact runsTo_openWith (s := accept .openSealed s) rfl rfl rfl

/-! ## The pixel cursor -/

/-- The pixel cursor is at pixel `p` in raster order, or behind the last one (R146). -/
def rasterAt (o : Operands) (e : Engine) (p : Nat) : Prop :=
  (e.y.toNat < o.height.toNat ∧ e.x.toNat < o.width.toNat ∧ p = e.y.toNat * o.width.toNat + e.x.toNat) ∨
  (p = o.npix ∧ ¬ (e.y.toNat < o.height.toNat ∧ e.x.toNat < o.width.toNat))

theorem rasterAt_start (o : Operands) {e : Engine} (hx : e.x = 0) (hy : e.y = 0) : rasterAt o e 0 := by
  by_cases h : 0 < o.height.toNat ∧ 0 < o.width.toNat
  · exact .inl ⟨by simpa [hy] using h.1, by simpa [hx] using h.2, by simp [hx, hy]⟩
  · refine .inr ⟨?_, by simpa [hx, hy] using h⟩
    rw [not_and_or] at h
    rcases h with h | h <;> simp [Operands.npix, show _ = 0 from Nat.eq_zero_of_not_pos h]

/-- A pixel of the grid is before the end of the raster order. -/
theorem raster_lt_npix {o : Operands} {x y : Nat} (hy : y < o.height.toNat) (hx : x < o.width.toNat) :
    y * o.width.toNat + x < o.npix := by
  have := pixel_lt hx hy
  simp only [pixelOffset, Operands.gridBytes] at this
  omega

/-- Before the last pixel the cursor is in the grid, and its pixel lies at offset `4 * p`. -/
theorem rasterAt_inGrid {o : Operands} {e : Engine} {p : Nat} (h : rasterAt o e p) (hp : p < o.npix) :
    e.y.toNat < o.height.toNat ∧ e.x.toNat < o.width.toNat ∧
      pixelOffset o.width.toNat e.x.toNat e.y.toNat = 4 * p := by
  rcases h with ⟨hy, hx, rfl⟩ | ⟨rfl, -⟩
  · exact ⟨hy, hx, rfl⟩
  · exact absurd hp (lt_irrefl _)

theorem rasterAt_end {o : Operands} {e : Engine} (h : rasterAt o e o.npix) :
    ¬ (e.y.toNat < o.height.toNat ∧ e.x.toNat < o.width.toNat) := by
  rcases h with ⟨hy, hx, he⟩ | ⟨-, h⟩
  · have := raster_lt_npix hy hx
    omega
  · exact h

theorem rasterAt_nextPixel {o : Operands} {e : Engine} {p : Nat} (h : rasterAt o e p) (hp : p < o.npix) :
    rasterAt o (nextPixel o e) (p + 1) := by
  obtain ⟨hy, hx, rfl⟩ | ⟨rfl, -⟩ := h
  · have hw := o.width.isLt
    have hh := o.height.isLt
    unfold nextPixel
    split
    · exact .inl ⟨hy, by simp only [BitVec.toNat_add]; simp; omega, by
        simp only [BitVec.toNat_add]; simp; omega⟩
    · have hx' : e.x.toNat + 1 = o.width.toNat := by omega
      have hy' : (e.y + 1).toNat = e.y.toNat + 1 := by simp; omega
      by_cases hlast : e.y.toNat + 1 < o.height.toNat
      · refine .inl ⟨by simpa only [hy'], by simp; omega, ?_⟩
        simp only [hy', Nat.succ_mul]
        simp; omega
      · refine .inr ⟨?_, fun hin => hlast (by simpa only [hy'] using hin.1)⟩
        have hrow : e.y.toNat + 1 = o.height.toNat := by omega
        rw [Operands.npix, ← hrow, Nat.mul_comm o.width.toNat, Nat.succ_mul]
        omega
  · exact absurd hp (lt_irrefl _)

/-- The cursor moves on with the rest of the engine as it was. -/
theorem nextPixel_eq (o : Operands) (e : Engine) : ∃ x y, nextPixel o e = { e with x := x, y := y } := by
  unfold nextPixel
  split <;> exact ⟨_, _, rfl⟩

theorem nextPixel_c (o : Operands) (e : Engine) : (nextPixel o e).c = e.c := by
  obtain ⟨x, y, h⟩ := nextPixel_eq o e
  rw [h]

theorem nextPixel_k (o : Operands) (e : Engine) : (nextPixel o e).k = e.k := by
  obtain ⟨x, y, h⟩ := nextPixel_eq o e
  rw [h]

theorem nextPixel_bits (o : Operands) (e : Engine) : (nextPixel o e).bits = e.bits := by
  obtain ⟨x, y, h⟩ := nextPixel_eq o e
  rw [h]

/-! ## EXTRACT -/

/-- The engine at a pixel of EXTRACT after the slots of `bs` have been read (R153). -/
def slotsRead (o : Operands) (e : Engine) (bs : Bytes) : Engine :=
  if bs.length < 3 then { e with bits := e.bits ++ bs.map lsbGet, c := Fin.ofNat 3 bs.length }
  else nextPixel o { e with bits := e.bits ++ bs.map lsbGet, c := 0 }

theorem slotsRead_nil (o : Operands) {e : Engine} (hc : e.c = 0) : slotsRead o e [] = e := by
  simp [slotsRead, ← hc]

theorem slotsRead_of_lt {o : Operands} {e : Engine} {bs : Bytes} (h : bs.length < 3) :
    slotsRead o e bs = { e with bits := e.bits ++ bs.map lsbGet, c := Fin.ofNat 3 bs.length } :=
  if_pos h

theorem slotsRead_of_eq {o : Operands} {e : Engine} {bs : Bytes} (h : bs.length = 3) :
    slotsRead o e bs = nextPixel o { e with bits := e.bits ++ bs.map lsbGet, c := 0 } :=
  if_neg (by omega)

theorem afterRead_slotsRead {o : Operands} {e : Engine} {bs : Bytes} (b : Byte)
    (hph : e.phase = .slots) (h : bs.length < 3) :
    afterRead o b (slotsRead o e bs) = slotsRead o e (bs ++ [b]) := by
  have hc : (Fin.ofNat 3 bs.length).val = bs.length := Nat.mod_eq_of_lt h
  rw [slotsRead_of_lt h]
  by_cases h2 : bs.length < 2
  · rw [slotsRead_of_lt (by simp; omega)]
    simp only [afterRead, hph, hc, h2, if_true, List.map_append, List.append_assoc, List.map_cons,
      List.map_nil]
    have hc' : Fin.ofNat 3 bs.length + 1 = Fin.ofNat 3 (bs ++ [b]).length := by
      apply Fin.ext
      simp [Fin.val_add]
    rw [hc']
  · rw [slotsRead_of_eq (by simp; omega)]
    simp only [afterRead, hph, hc, h2, if_false, List.map_append, List.append_assoc, List.map_cons,
      List.map_nil]

/-- The slot reads of EXTRACT and what follows them (R153). -/
theorem runsTo_slots {port : CryptoPort} {s : State} {o : Outcome} (hb : s.status.busy = true)
    (hr : s.raced = []) {n p : Nat} {e : Engine} (hp : p + n = s.ops.npix) (hat : rasterAt s.ops e p)
    (hph : e.phase = .slots) (hc : e.c = 0)
    (halted : ∀ h, readSlots s p n = .error h → o = halt h s)
    (done : ∀ bits, readSlots s p n = .ok bits → o = extractFrom (e.bits ++ bits) s) :
    runsTo port { s with engine := e } o := by
  induction n generalizing p e with
  | zero =>
    have hout : ¬ (e.y.toNat < s.ops.height.toNat ∧ e.x.toNat < s.ops.width.toNat) :=
      rasterAt_end (by rwa [← hp])
    have hgrid : cursorInGrid { s with engine := e } = false := by
      simpa [cursorInGrid] using hout
    have hplan : planStep { s with engine := e } = planSlots { s with engine := e } := by
      simp only [planStep, hph]
    rw [done [] rfl, List.append_nil, extractFrom]
    rw [planSlots, hgrid] at hplan
    simp only [Bool.false_eq_true, if_false] at hplan
    split
    · rename_i hs
      rw [hs] at hplan
      exact runsTo_raise (u := { s with engine := e }) hb hplan
    · rename_i payload hs
      rw [hs] at hplan
      simp only at hplan
      split
      · rename_i hlong
        rw [if_pos hlong] at hplan
        exact runsTo_raise (u := { s with engine := e }) hb hplan
      · rename_i hroom
        rw [if_neg hroom] at hplan
        exact runsTo_of_planStep_eq (t := { s with engine := withOutput payload e }) hb hb hplan
          (runsTo_output hb hr payload e)
  | succ n ih =>
    have hlt : p < s.ops.npix := by omega
    obtain ⟨hy, hx, hoff⟩ := rasterAt_inGrid hat hlt
    rw [← slotsRead_nil s.ops hc]
    refine runsTo_reads (a := s.ops.srcBase.toNat + 4 * p) (n := 3) (slotsRead s.ops e) hb hr
      (fun bs h => ?_) (fun bs b h => afterRead_slotsRead b hph h) (fun h hread => ?_) fun bs hread => ?_
    · have hval : (Fin.ofNat 3 bs.length).val = bs.length := Nat.mod_eq_of_lt h
      simp only [slotsRead_of_lt h, planStep, hph, planSlots, cursorInGrid, cursorPixel, hy, hx, hoff,
        hval, decide_true, Bool.and_self, if_true]
    · exact halted h (by simp only [readSlots, hread])
    · have hlen : bs.length = 3 := by rw [(readBytes_ok_iff.mp hread).2]; simp
      rw [slotsRead_of_eq hlen]
      refine ih (by omega) (rasterAt_nextPixel hat hlt) (nextPixel_phase.trans hph)
        (nextPixel_c _ _) (fun h hs => halted h (by simp only [readSlots, hread, hs])) fun bits hs => ?_
      rw [nextPixel_bits, List.append_assoc]
      exact done _ (by simp only [readSlots, hread, hs])

theorem runsTo_extract (port : CryptoPort) (s : State) :
    runsTo port (accept .extract s) (extractBody (accept .extract s)) := by
  unfold extractBody
  simp only
  split
  · rename_i code hc
    exact runsTo_accept_failed (i := .extract) (s := s) hc
  · rename_i hc
    refine runsTo_of_planStep_eq (t := enterPhase .slots (writeCapBits (accept .extract s))) rfl rfl
      (planStep_accept_passed (i := .extract) hc) ?_
    refine runsTo_slots (s := writeCapBits (accept .extract s)) (p := 0) rfl rfl (Nat.zero_add _)
      (rasterAt_start _ rfl rfl) rfl rfl (fun h hs => ?_) fun bits hs => ?_
    · simp only [writeCapBits_ops] at hs
      rw [hs]
    · simp only [writeCapBits_ops] at hs
      rw [hs]
      rfl

/-! ## EMBED -/

/-- The engine at a pixel of EMBED after the source bytes `bs` have been read (R152). -/
def sourceRead (e : Engine) (bs : Bytes) : Engine :=
  if bs.length < 4 then { e with q := bs, i := bs.length }
  else { e with q := bs, i := 0, phase := .channel, c := 0 }

theorem sourceRead_of_lt {e : Engine} {bs : Bytes} (h : bs.length < 4) :
    sourceRead e bs = { e with q := bs, i := bs.length } :=
  if_pos h

theorem sourceRead_of_eq {e : Engine} {bs : Bytes} (h : bs.length = 4) :
    sourceRead e bs = { e with q := bs, i := 0, phase := .channel, c := 0 } :=
  if_neg (by omega)

theorem sourceRead_nil {e : Engine} (hq : e.q = []) (hi : e.i = 0) : sourceRead e [] = e := by
  change { e with q := [], i := 0 } = e
  rw [← hq, ← hi]

theorem afterRead_sourceRead {o : Operands} {e : Engine} {bs : Bytes} (b : Byte)
    (hph : e.phase = .source) (h : bs.length < 4) :
    afterRead o b (sourceRead e bs) = sourceRead e (bs ++ [b]) := by
  rw [sourceRead_of_lt h]
  by_cases h3 : bs.length < 3
  · rw [sourceRead_of_lt (by simp; omega)]
    simp only [afterRead, hph, h3, if_true, List.length_append, List.length_singleton]
  · rw [sourceRead_of_eq (by simp; omega)]
    simp only [afterRead, hph, h3, if_false]

/-- The engine at a pixel of EMBED after `j` destination bytes have been written (R152). -/
def destWritten (o : Operands) (e : Engine) (j : Nat) : Engine :=
  if j < 4 then { e with i := j } else nextPixel o { e with i := 0, q := [], phase := .source }

theorem destWritten_of_lt {o : Operands} {e : Engine} {j : Nat} (h : j < 4) :
    destWritten o e j = { e with i := j } :=
  if_pos h

theorem destWritten_zero (o : Operands) {e : Engine} (hi : e.i = 0) : destWritten o e 0 = e := by
  change { e with i := 0 } = e
  rw [← hi]

theorem afterWrite_destWritten {o : Operands} {e : Engine} {j : Nat} (hph : e.phase = .dest)
    (h : j < 4) : afterWrite o (destWritten o e j) = destWritten o e (j + 1) := by
  rw [destWritten_of_lt h]
  by_cases h3 : j < 3
  · rw [destWritten_of_lt (by omega)]
    simp only [afterWrite, hph, h3, if_true]
  · rw [destWritten, if_neg (by omega)]
    simp only [afterWrite, hph, h3, if_false]

/-- The frame cursor, frame byte and pixel latch of an engine. -/
def Engine.work (e : Engine) : PixelWork := { k := e.k, cur := e.cur, q := e.q }

/-- Frame bit `w.k` of the frame byte `cur`, put into channel `c` (R145, R152). -/
def PixelWork.put (c : Nat) (cur : Byte) (w : PixelWork) : PixelWork :=
  { k := w.k + 1, cur := cur, q := w.q.set c (lsbPut (w.q.getD c 0) (frameBitOf cur w.k)) }

theorem embedChannel_past {s : State} {c : Nat} {w : PixelWork}
    (hk : ¬ w.k < frameBitCount s.ops.inLen.toNat) : embedChannel s c w = .ok w :=
  if_neg hk

theorem embedChannel_latched {s : State} {c : Nat} {w : PixelWork}
    (hk : w.k < frameBitCount s.ops.inLen.toNat) (h8 : w.k % 8 ≠ 0) :
    embedChannel s c w = .ok (w.put c w.cur) := by
  simp only [embedChannel, hk, h8, if_true, if_false, PixelWork.put]

theorem embedChannel_byte {s : State} {c : Nat} {w : PixelWork}
    (hk : w.k < frameBitCount s.ops.inLen.toNat) (h8 : w.k % 8 = 0) :
    embedChannel s c w = (frameByte s (w.k / 8)).map fun b => w.put c b := by
  simp only [embedChannel, hk, h8, if_true]
  cases frameByte s (w.k / 8) <;> rfl

/-- An engine at the pixel of `e`, its work done as far as `w`. -/
def workedTo (e : Engine) (w : PixelWork) (e' : Engine) : Prop := e'.x = e.x ∧ e'.y = e.y ∧ e'.work = w

theorem afterPayload_workedTo (b : Byte) (e : Engine) :
    workedTo e (e.work.put e.c.val b) (afterPayload b e) := by
  unfold afterPayload
  split <;> exact ⟨rfl, rfl, rfl⟩

/-- After a payload byte the engine goes on with the channels that remain (R152). -/
theorem planStep_afterPayload {s : State} {n : Nat} (hn : n ≤ 2) (b : Byte) {e : Engine}
    (hc : e.c.val = 2 - n) :
    planStep { s with engine := afterPayload b e } =
      planChannels n { s with engine := afterPayload b e } := by
  unfold afterPayload
  split
  · have hc' : (e.c + 1).val = 3 - n := by rw [Fin.val_add]; simp; omega
    simp only [planStep, hc', show 3 - (3 - n) = n by omega]
  · obtain rfl : n = 0 := by omega
    rfl

/-- The channels that remain of a pixel of EMBED, the payload reads among them (R152). -/
theorem runsTo_channels {port : CryptoPort} {s : State} {o : Outcome} (hb : s.status.busy = true)
    (hr : s.raced = []) {n : Nat} (hn : n ≤ 3) {t : State} {e : Engine} (ht : t.status.busy = true)
    (hplan : planStep t = planChannels n { s with engine := e })
    (halted : ∀ h, embedChannels s (List.range' (3 - n) n) e.work = .error h → o = halt h s)
    (done : ∀ w e', embedChannels s (List.range' (3 - n) n) e.work = .ok w → workedTo e w e' →
      e'.phase = .dest → e'.i = 0 → runsTo port { s with engine := e' } o) :
    runsTo port t o := by
  induction n generalizing t e with
  | zero =>
    exact runsTo_of_planStep_eq (t := { s with engine := { e with phase := .dest, i := 0 } }) ht hb
      hplan (done _ _ rfl ⟨rfl, rfl, rfl⟩ rfl rfl)
  | succ n ih =>
    have hrange : List.range' (3 - (n + 1)) (n + 1) = (2 - n) :: List.range' (3 - n) n := by
      rw [List.range'_succ, show 3 - (n + 1) = 2 - n by omega, show 2 - n + 1 = 3 - n by omega]
    rw [hrange] at halted done
    simp only [embedChannels] at halted done
    have goOn : ∀ (w : PixelWork) (t' : State) (e' : Engine), embedChannel s (2 - n) e.work = .ok w →
        t'.status.busy = true → planStep t' = planChannels n { s with engine := e' } →
        workedTo e w e' → runsTo port t' o := by
      rintro w t' e' hch ht' hplan' ⟨hx, hy, rfl⟩
      rw [hch] at halted done
      refine ih (by omega) ht' hplan' halted fun w e'' hw hl => done w e'' hw ?_
      exact ⟨hl.1.trans hx, hl.2.1.trans hy, hl.2.2⟩
    unfold planChannels at hplan
    by_cases hk : e.k < frameBitCount s.ops.inLen.toNat
    · rw [if_pos hk] at hplan
      by_cases h8 : e.k % 8 = 0
      · have hch := embedChannel_byte (s := s) (c := 2 - n) (w := e.work) hk h8
        rw [if_neg (not_not.mpr h8)] at hplan
        by_cases h4 : e.k / 8 < 4
        · rw [if_pos h4] at hplan
          rw [frameByte, if_pos (by exact h4)] at hch
          exact goOn _ t _ hch ht hplan ⟨rfl, rfl, rfl⟩
        · rw [if_neg h4] at hplan
          rw [frameByte, if_neg (by exact h4)] at hch
          refine runsTo_read (u := { s with engine := { e with phase := .payload, c := Fin.ofNat 3 (2 - n) } })
            ht hr hplan (fun h ha => ?_) fun ha => ?_
          · have hread : readByte s (s.ops.inBase.toNat + (e.work.k / 8 - 4)) = .error h :=
              readByte_error_iff.mpr ha
            rw [halt_engine]
            exact halted h (by rw [hch, hread]; rfl)
          · have hread : readByte s (s.ops.inBase.toNat + (e.work.k / 8 - 4)) = .ok _ :=
              readByte_ok_iff.mpr ⟨ha, rfl⟩
            have hc : (Fin.ofNat 3 (2 - n)).val = 2 - n := Nat.mod_eq_of_lt (by omega)
            rw [hread] at hch
            have hw := afterPayload_workedTo (Memory.read s.mem (s.ops.inBase.toNat + (e.k / 8 - 4)))
              { e with phase := .payload, c := Fin.ofNat 3 (2 - n) }
            simp only [hc] at hw
            exact goOn _ _ (afterPayload _ _) hch hb (planStep_afterPayload (by omega) _ hc) hw
      · rw [if_pos h8] at hplan
        exact goOn _ t _ (embedChannel_latched hk h8) ht hplan ⟨rfl, rfl, rfl⟩
    · rw [if_neg hk] at hplan
      exact goOn _ t e (embedChannel_past hk) ht hplan ⟨rfl, rfl, rfl⟩

theorem length_embedChannel {s : State} {c : Nat} {w w' : PixelWork} (h : embedChannel s c w = .ok w') :
    w'.q.length = w.q.length := by
  unfold embedChannel at h
  split at h
  · split at h <;> cases h
    simp
  · cases h
    rfl

theorem length_embedChannels {s : State} {cs : List Nat} {w w' : PixelWork}
    (h : embedChannels s cs w = .ok w') : w'.q.length = w.q.length := by
  induction cs generalizing w with
  | nil => cases h; rfl
  | cons c cs ih =>
    simp only [embedChannels] at h
    split at h
    · cases h
    · rename_i w1 hc
      exact (ih h).trans (length_embedChannel hc)

theorem embedPixels_source_halted {s : State} {p n k : Nat} {cur : Byte} {h : Halt}
    (hr : readBytes s (s.ops.srcBase.toNat + 4 * p) 4 = .error h) :
    embedPixels s p (n + 1) k cur = .error (s, h) := by
  simp only [embedPixels, hr]

theorem embedPixels_channel_halted {s : State} {p n k : Nat} {cur : Byte} {q : Bytes} {h : Halt}
    (hr : readBytes s (s.ops.srcBase.toNat + 4 * p) 4 = .ok q)
    (hc : embedChannels s [0, 1, 2] { k := k, cur := cur, q := q } = .error h) :
    embedPixels s p (n + 1) k cur = .error (s, h) := by
  simp only [embedPixels, hr, hc]

theorem embedPixels_dest_halted {s : State} {p n k : Nat} {cur : Byte} {q : Bytes} {w : PixelWork}
    {x : State × Halt} (hr : readBytes s (s.ops.srcBase.toNat + 4 * p) 4 = .ok q)
    (hc : embedChannels s [0, 1, 2] { k := k, cur := cur, q := q } = .ok w)
    (hw : writeBytes s (s.ops.dstBase.toNat + 4 * p) w.q = .error x) :
    embedPixels s p (n + 1) k cur = .error x := by
  simp only [embedPixels, hr, hc, hw]

theorem embedPixels_pixel_done {s t : State} {p n k : Nat} {cur : Byte} {q : Bytes} {w : PixelWork}
    (hr : readBytes s (s.ops.srcBase.toNat + 4 * p) 4 = .ok q)
    (hc : embedChannels s [0, 1, 2] { k := k, cur := cur, q := q } = .ok w)
    (hw : writeBytes s (s.ops.dstBase.toNat + 4 * p) w.q = .ok t) :
    embedPixels s p (n + 1) k cur = embedPixels t (p + 1) n w.k w.cur := by
  simp only [embedPixels, hr, hc, hw]

/-- The pixels of EMBED, each with its source reads, channels and destination writes (R152). -/
theorem runsTo_pixels {port : CryptoPort} {s : State} {o : Outcome} (hb : s.status.busy = true)
    (hr : s.raced = []) {n p : Nat} {e : Engine} (hp : p + n = s.ops.npix) (hat : rasterAt s.ops e p)
    (hph : e.phase = .source) (hi : e.i = 0) (hq : e.q = [])
    (halted : ∀ t h, embedPixels s p n e.k e.cur = .error (t, h) → o = halt h t)
    (done : ∀ t, embedPixels s p n e.k e.cur = .ok t → o = .next (finish .noError t)) :
    runsTo port { s with engine := e } o := by
  induction n generalizing s p e with
  | zero =>
    have hout : ¬ (e.y.toNat < s.ops.height.toNat ∧ e.x.toNat < s.ops.width.toNat) :=
      rasterAt_end (by rwa [← hp])
    have hgrid : cursorInGrid { s with engine := e } = false := by
      simpa [cursorInGrid] using hout
    rw [done s rfl]
    refine runsTo_completePlain (u := { s with engine := e }) hb ?_
    simp [planStep, hph, planSource, hgrid]
  | succ n ih =>
    have hlt : p < s.ops.npix := by omega
    obtain ⟨hy, hx, hoff⟩ := rasterAt_inGrid hat hlt
    rw [← sourceRead_nil hq hi]
    refine runsTo_reads (a := s.ops.srcBase.toNat + 4 * p) (n := 4) (sourceRead e) hb hr
      (fun bs h => ?_) (fun bs b h => afterRead_sourceRead b hph h)
      (fun h hread => halted s h (embedPixels_source_halted hread)) fun bs hread => ?_
    · simp only [sourceRead_of_lt h, planStep, hph, planSource, cursorInGrid, cursorPixel, hy, hx, hoff,
        decide_true, Bool.and_self, if_true]
    have hlen : bs.length = 4 := by rw [(readBytes_ok_iff.mp hread).2]; simp
    rw [sourceRead_of_eq hlen]
    refine runsTo_channels (n := 3) hb hr le_rfl (by exact hb) rfl
      (fun h hch => halted s h (embedPixels_channel_halted hread hch)) fun w e' hch hw hph' hi' => ?_
    obtain ⟨hx', hy', rfl⟩ := hw
    have hq' : e'.q.length = 4 := (length_embedChannels hch).trans hlen
    rw [← destWritten_zero s.ops hi']
    refine runsTo_writes (a := s.ops.dstBase.toNat + 4 * p) (bs := e'.q) (destWritten s.ops e') hb hr
      (fun m j hj => ?_) (fun j hj => afterWrite_destWritten hph' (by omega))
      (fun t h hwr => halted t h (embedPixels_dest_halted hread hch hwr)) fun m hwr => ?_
    · simp only [destWritten_of_lt (show j < 4 by omega), planStep, hph', planDest, cursorPixel, hx', hy',
        hoff]
    have hdone := embedPixels_pixel_done (n := n) hread hch hwr
    have hat' : rasterAt s.ops { e' with i := 0, q := [], phase := .source } p := by
      unfold rasterAt at hat ⊢
      simpa only [hx', hy'] using hat
    have hat'' := rasterAt_nextPixel hat' hlt
    obtain ⟨x, y, hnext⟩ := nextPixel_eq s.ops { e' with i := 0, q := [], phase := .source }
    rw [hnext] at hat''
    rw [hq', show destWritten s.ops e' 4 = _ from hnext]
    refine ih (s := { s with mem := m }) hb hr (by simp only []; omega) hat'' rfl rfl rfl
      (fun t h hh => halted t h (hdone.trans hh)) fun t hh => done t (hdone.trans hh)

theorem runsTo_embed (port : CryptoPort) (s : State) :
    runsTo port (accept .embed s) (embedBody (accept .embed s)) := by
  have hopening : opening .embed (accept .embed s) = _ := rfl
  unfold embedBody
  simp only
  split
  · rename_i code hc
    have hfailed := runsTo_accept_failed (port := port) (i := .embed) (s := s) hc
    simpa only [opening, hc] using hfailed
  · rename_i hc
    have hpassed := planStep_accept_passed (i := .embed) (s := s) hc
    simp only [opening, hc] at hpassed
    set u := writeTrunc (writeFits (writeCapBits (accept .embed s))) with hu
    have hengine : u.engine = Engine.atStart .embed := by rw [hu, writeTrunc_engine]; rfl
    have hops : u.ops = s.ops := by rw [hu, writeTrunc_ops]; rfl
    have hbusy : u.status.busy = true := by rw [hu, writeTrunc_busy]; rfl
    have hraced : u.raced = [] := by rw [hu, writeTrunc_raced]; rfl
    have hfirst : planFirst u = planStep (enterPhase .source u) := by
      simp only [planFirst, hengine, Engine.atStart]; rfl
    refine runsTo_of_planStep_eq (t := enterPhase .source u) rfl hbusy (hpassed.trans hfirst) ?_
    refine runsTo_pixels (s := u) (p := 0) (n := s.ops.npix)
      (e := { u.engine with phase := .source, i := 0 }) hbusy hraced (by rw [hops, Nat.zero_add])
      (rasterAt_start _ (by rw [hengine]; rfl) (by rw [hengine]; rfl)) rfl rfl (by rw [hengine]; rfl)
      (fun t h hh => ?_) fun t hh => ?_
    · rw [hengine] at hh
      simp only [accept_ops]
      rw [show embedPixels u 0 s.ops.npix 0 0 = _ from hh]
    · rw [hengine] at hh
      simp only [accept_ops]
      rw [show embedPixels u 0 s.ops.npix 0 0 = _ from hh]

/-! ## The commands -/

/-- The engine's steps from the acceptance of a command give what its meaning gives, in some number of
steps (R96). -/
theorem runsTo_accept (port : CryptoPort) (i : Instr) {s : State} (hb : s.status.busy = false) :
    runsTo port (accept i s) (execWith port i s) := by
  cases i <;> rw [execWith, issue_idle hb]
  case nop => exact runsTo_completePlain (u := accept .nop s) rfl rfl
  case deriveKey => exact runsTo_deriveKey port s
  case sealPlain => exact runsTo_sealPlain port s
  case openSealed => exact runsTo_openSealed port s
  case capacity =>
    exact runsTo_completePlain (u := writeFits (writeCapBits (accept .capacity s))) rfl rfl
  case embed => exact runsTo_embed port s
  case extract => exact runsTo_extract port s

end Sys2Proof.Machine
end

section
/-! PROOFS. The bound on the steps of a command (40_commands.md, R102): what is left of a running command, which
every engine step makes less, and the agreement of the engine with the meaning within the bound. -/

namespace Sys2Proof.Machine

/-! ## The steps that a command has left -/

/-- The pixels from the cursor on. -/
def pixelsLeft (o : Operands) (e : Engine) : Nat :=
  if e.y.toNat < o.height.toNat ∧ e.x.toNat < o.width.toNat then
    o.npix - (e.y.toNat * o.width.toNat + e.x.toNat)
  else 0

/-- The payload bytes that EMBED has not read, its frame cursor at `k`. -/
def payloadLeft (o : Operands) (k : Nat) : Nat := o.inLen.toNat + 4 - max 4 ((k + 7) / 8)

/-- The steps of a crypto command after its IN buffer reads. -/
def stepsAfterInput (op : Instr) (o : Operands) : Nat :=
  match op with
  | .deriveKey  => 1 + Config.keySize + 1
  | .sealPlain  => 2 + o.outCap.toNat + 1
  | .openSealed => 1 + o.outCap.toNat + 1
  | .nop | .capacity | .embed | .extract => 1

/-- A bound on the steps that a running command has left. -/
def stepsLeft (o : Operands) (e : Engine) : Nat :=
  match e.phase with
  | .start    => stepBound e.curOp o
  | .key      => Config.keySize - e.i + o.inLen.toNat + stepsAfterInput e.curOp o
  | .input    => o.inLen.toNat - e.i + stepsAfterInput e.curOp o
  | .hash     => 1 + Config.keySize + 1
  | .rng      => 2 + o.outCap.toNat + 1
  | .sealing  => 1 + o.outCap.toNat + 1
  | .unseal   => 1 + o.outCap.toNat + 1
  | .source   => 8 * pixelsLeft o e - e.i + payloadLeft o e.k + 1
  | .channel  => 8 * pixelsLeft o e - 4 + payloadLeft o e.k + 1
  | .payload  => 8 * pixelsLeft o e - 4 + (o.inLen.toNat + 4 - e.k / 8) + 1
  | .dest     => 8 * pixelsLeft o e - 4 - e.i + payloadLeft o e.k + 1
  | .slots    => 3 * pixelsLeft o e - e.c.val + o.outCap.toNat + 1
  | .output   => e.output.length - e.i + 1
  | .failed _ => 1

theorem pixelsLeft_of_rasterAt {o : Operands} {e : Engine} {p : Nat} (h : rasterAt o e p) :
    pixelsLeft o e = o.npix - p := by
  unfold pixelsLeft
  rcases h with ⟨hy, hx, rfl⟩ | ⟨rfl, h⟩
  · exact if_pos ⟨hy, hx⟩
  · rw [if_neg h, Nat.sub_self]

theorem pixelsLeft_le (o : Operands) (e : Engine) : pixelsLeft o e ≤ o.npix := by
  unfold pixelsLeft
  split <;> omega

/-- Each pixel takes the cursor one nearer to the end. -/
theorem pixelsLeft_nextPixel {s : State} (hg : cursorInGrid s = true) {e : Engine}
    (hx : e.x = s.engine.x) (hy : e.y = s.engine.y) :
    pixelsLeft s.ops (nextPixel s.ops e) + 1 = pixelsLeft s.ops s.engine := by
  obtain ⟨hlty, hltx⟩ := inGrid_iff.mp hg
  have hat : rasterAt s.ops s.engine _ := .inl ⟨hlty, hltx, rfl⟩
  have hat' : rasterAt s.ops e _ := .inl ⟨by rwa [hy], by rwa [hx], rfl⟩
  have hlt := raster_lt_npix hlty hltx
  rw [pixelsLeft_of_rasterAt hat, pixelsLeft_of_rasterAt (rasterAt_nextPixel hat' (by rwa [hx, hy])), hx, hy]
  omega

theorem payloadLeft_le (o : Operands) (k : Nat) : payloadLeft o k ≤ o.inLen.toNat := by
  unfold payloadLeft
  omega

theorem payloadLeft_succ_le (o : Operands) (k : Nat) : payloadLeft o (k + 1) ≤ payloadLeft o k := by
  unfold payloadLeft
  omega

theorem one_le_stepBound (op : Instr) (o : Operands) : 1 ≤ stepBound op o := by
  cases op <;> simp only [stepBound] <;> omega

/-- A running command has no more steps left than its bound, wherever it is. -/
theorem stepsLeft_le_stepBound {s : State} (h : phaseAgrees s) :
    stepsLeft s.ops s.engine ≤ stepBound s.engine.curOp s.ops := by
  have hpix := pixelsLeft_le s.ops s.engine
  have hpay := payloadLeft_le s.ops s.engine.k
  have hone := one_le_stepBound s.engine.curOp s.ops
  unfold phaseAgrees at h
  split at h <;> rename_i hph <;> simp only [stepsLeft, hph]
  · exact le_rfl
  · obtain ⟨hop | hop, -⟩ := h <;> simp only [hop, stepsAfterInput, stepBound] <;> omega
  · obtain ⟨hop | hop | hop, -⟩ := h <;> simp only [hop, stepsAfterInput, stepBound] <;> omega
  · simp only [h.1, stepBound]; omega
  · simp only [h.1, stepBound]; omega
  · simp only [h.1, stepBound]; omega
  · simp only [h.1, stepBound]; omega
  · simp only [h.1, stepBound, Operands.gridBytes]; omega
  · simp only [h.1, stepBound, Operands.gridBytes]; omega
  · obtain ⟨hop, -, -, hbyte⟩ := h
    simp only [hop, stepBound, Operands.gridBytes]; omega
  · simp only [h.1, stepBound, Operands.gridBytes]; omega
  · simp only [h.1, stepBound]; omega
  · obtain ⟨hop | hop | hop | hop, -, hlen, hkey⟩ := h <;> simp only [hop, stepBound] <;>
      simp only [hop, forall_const] at hkey <;> omega
  · exact hone

theorem one_le_stepsLeft (o : Operands) (e : Engine) : 1 ≤ stepsLeft o e := by
  have hin : 1 ≤ stepsAfterInput e.curOp o := by
    cases e.curOp <;> simp only [stepsAfterInput] <;> omega
  have hone := one_le_stepBound e.curOp o
  unfold stepsLeft
  split <;> omega

/-! ## The pure computation adds no step -/

theorem planOutput_engine (s : State) : (planOutput s).1 = s := by
  unfold planOutput
  split <;> rfl

theorem planSource_engine (s : State) : (planSource s).1 = s := by
  unfold planSource
  split <;> rfl

theorem planInput_stepsLeft {s : State} (hph : s.engine.phase = .input)
    (hop : s.engine.curOp = .deriveKey ∨ s.engine.curOp = .sealPlain ∨ s.engine.curOp = .openSealed) :
    stepsLeft s.ops (planInput s).1.engine ≤ stepsLeft s.ops s.engine := by
  unfold planInput
  split
  · exact le_rfl
  · rcases hop with hop | hop | hop <;>
      simp [stepsLeft, hop, hph, transactionPhase, stepsAfterInput, enterPhase]

theorem planKey_stepsLeft {s : State} (hph : s.engine.phase = .key)
    (hop : s.engine.curOp = .sealPlain ∨ s.engine.curOp = .openSealed) :
    stepsLeft s.ops (planKey s).1.engine ≤ stepsLeft s.ops s.engine := by
  unfold planKey
  split
  · exact le_rfl
  · refine (planInput_stepsLeft (s := enterPhase .input s) rfl (.inr hop)).trans ?_
    simp [stepsLeft, hph, enterPhase]

/-- The channels of a pixel leave its destination writes, or a payload read before them. -/
theorem planChannels_stepsLeft (n : Nat) (s : State) :
    stepsLeft s.ops (planChannels n s).1.engine ≤
      8 * pixelsLeft s.ops s.engine - 4 + payloadLeft s.ops s.engine.k + 1 := by
  induction n generalizing s with
  | zero => exact le_rfl
  | succ n ih =>
    have hmono := payloadLeft_succ_le s.ops s.engine.k
    have put : ∀ c cur, stepsLeft s.ops
        (planChannels n { s with engine := putFrameBit c cur s.engine }).1.engine ≤
        8 * pixelsLeft s.ops s.engine - 4 + payloadLeft s.ops s.engine.k + 1 := fun c cur =>
      (ih { s with engine := putFrameBit c cur s.engine }).trans
        (by simpa [putFrameBit, pixelsLeft] using hmono)
    unfold planChannels
    split
    · split
      · exact put _ _
      · split
        · exact put _ _
        · simp only [stepsLeft, payloadLeft]
          simp only [pixelsLeft]
          omega
    · exact ih s

theorem planSlots_stepsLeft {s : State} (hph : s.engine.phase = .slots) :
    stepsLeft s.ops (planSlots s).1.engine ≤ stepsLeft s.ops s.engine := by
  unfold planSlots
  split
  · exact le_rfl
  · split
    · exact le_rfl
    · split
      · exact le_rfl
      · rw [planOutput_engine]
        simp only [stepsLeft, hph]
        omega

theorem planFirst_stepsLeft {s : State} {op : Instr} (he : s.engine = Engine.atStart op) :
    stepsLeft s.ops (planFirst s).1.engine ≤ stepBound op s.ops := by
  have hpix := pixelsLeft_le s.ops s.engine
  have hpay := payloadLeft_le s.ops s.engine.k
  have hcur : s.engine.curOp = op := by rw [he]; rfl
  unfold planFirst
  rw [hcur]
  cases op with
  | nop => simp [he, stepsLeft, Engine.atStart]
  | deriveKey =>
    refine (planInput_stepsLeft (s := enterPhase .input s) rfl (.inl hcur)).trans ?_
    simp [stepsLeft, enterPhase, he, Engine.atStart, stepsAfterInput, stepBound]
    omega
  | sealPlain =>
    refine (planKey_stepsLeft (s := enterPhase .key s) rfl (.inl hcur)).trans ?_
    simp [stepsLeft, enterPhase, he, Engine.atStart, stepsAfterInput, stepBound]
    omega
  | openSealed =>
    refine (planKey_stepsLeft (s := enterPhase .key s) rfl (.inr hcur)).trans ?_
    simp [stepsLeft, enterPhase, he, Engine.atStart, stepsAfterInput, stepBound]
    omega
  | capacity => simp [he, stepsLeft, Engine.atStart]
  | embed =>
    simp only [planSource_engine, stepsLeft, enterPhase_engine, stepBound, Operands.gridBytes]
    simp only [pixelsLeft] at hpix ⊢
    omega
  | extract =>
    refine (planSlots_stepsLeft (s := enterPhase .slots s) rfl).trans ?_
    simp only [stepsLeft, enterPhase_engine, enterPhase_ops, stepBound]
    simp only [pixelsLeft] at hpix ⊢
    omega

/-- The opening leaves the engine at its first step. -/
theorem opening_engine (op : Instr) (s : State) : (opening op s).1.engine = s.engine := by
  cases op
  case embed =>
    simp only [opening]
    split
    · rfl
    · exact writeTrunc_engine _
  all_goals rfl

theorem opening_ops (op : Instr) (s : State) : (opening op s).1.ops = s.ops := by
  rw [opening_planned]
  rfl

theorem planStart_stepsLeft {s : State} (he : s.engine = Engine.atStart s.engine.curOp) :
    stepsLeft s.ops (planStart s).1.engine ≤ stepBound s.engine.curOp s.ops := by
  have hengine := opening_engine s.engine.curOp s
  have hops := opening_ops s.engine.curOp s
  unfold planStart
  split <;> rename_i ho <;> rw [ho] at hengine hops
  · rw [hengine, he]
    exact le_rfl
  · rw [← hops]
    exact planFirst_stepsLeft (hengine.trans he)

/-- The pure computation of a step adds no step to those that are left. -/
theorem planStep_stepsLeft {s : State} (h : phaseAgrees s) :
    stepsLeft s.ops (planStep s).1.engine ≤ stepsLeft s.ops s.engine := by
  unfold phaseAgrees at h
  split at h <;> rename_i hph
  · simpa only [planStep, stepsLeft, hph] using planStart_stepsLeft h.1
  · simpa only [planStep, hph] using planKey_stepsLeft hph h.1
  · simpa only [planStep, hph] using planInput_stepsLeft hph h.1
  · simp only [planStep, hph, le_refl]
  · simp only [planStep, hph, le_refl]
  · simp only [planStep, hph, le_refl]
  · simp only [planStep, hph, le_refl]
  · simp only [planStep, hph, planSource_engine, le_refl]
  · simpa only [planStep, stepsLeft, hph] using planChannels_stepsLeft _ s
  · simp only [planStep, hph, le_refl]
  · simp only [planStep, hph, planDest, le_refl]
  · simpa only [planStep, hph] using planSlots_stepsLeft hph
  · simp only [planStep, hph, planOutput_engine, le_refl]
  · simp only [planStep, hph, le_refl]

/-! ## An access or a transaction takes one step off -/

theorem afterRead_stepsLeft {s : State} {a : Nat} (b : Byte) (h : readReady s a) :
    stepsLeft s.ops (afterRead s.ops b s.engine) < stepsLeft s.ops s.engine := by
  obtain ⟨-, h⟩ := h
  split at h <;> rename_i hph
  · obtain ⟨-, hi, -⟩ := h
    simp only [afterRead, stepsLeft, hph]
    omega
  · obtain ⟨-, hi, -⟩ := h
    simp only [afterRead, stepsLeft, hph]
    omega
  · obtain ⟨-, hi, hg, -⟩ := h
    have hpix := pixelsLeft_nextPixel hg rfl rfl
    simp only [afterRead, hph]
    split
    · simp only [stepsLeft, hph]
      simp only [pixelsLeft] at hpix ⊢
      omega
    · simp only [stepsLeft, hph]
      simp only [pixelsLeft] at hpix ⊢
      omega
  · obtain ⟨-, hg, hk, hbyte, -⟩ := h
    simp only [frameBitCount] at hk
    simp only [afterRead, hph, afterPayload]
    split
    · simp only [stepsLeft, hph, putFrameBit, payloadLeft]
      simp only [pixelsLeft]
      omega
    · simp only [stepsLeft, hph, putFrameBit, payloadLeft]
      simp only [pixelsLeft]
      omega
  · obtain ⟨-, hg, -⟩ := h
    have hpix := pixelsLeft_nextPixel hg
      (e := { s.engine with bits := s.engine.bits ++ [lsbGet b], c := 0 }) rfl rfl
    simp only [afterRead, hph]
    split
    · rename_i hc
      have hc' : (s.engine.c + 1).val = s.engine.c.val + 1 := by rw [Fin.val_add]; simp; omega
      simp only [stepsLeft, hph, hc']
      simp only [pixelsLeft] at hpix ⊢
      omega
    · have hc := s.engine.c.isLt
      simp only [hph] at hpix
      simp only [stepsLeft, nextPixel_phase, nextPixel_c, hph]
      simp only [Fin.val_zero]
      omega
  all_goals cases h

theorem afterWrite_stepsLeft {s : State} {a : Nat} (h : writeReady s a) :
    stepsLeft s.ops (afterWrite s.ops s.engine) < stepsLeft s.ops s.engine := by
  obtain ⟨-, h⟩ := h
  split at h <;> rename_i hph
  · obtain ⟨-, hg, hi, -⟩ := h
    have hpix := pixelsLeft_nextPixel hg
      (e := { s.engine with i := 0, q := [], phase := .source }) rfl rfl
    simp only [] at hpix
    simp only [afterWrite, hph]
    split
    · simp only [stepsLeft, hph]
      simp only [pixelsLeft] at hpix ⊢
      omega
    · simp only [stepsLeft, nextPixel_phase, nextPixel_i, nextPixel_k, hph]
      omega
  · obtain ⟨-, hi, -⟩ := h
    simp only [afterWrite, stepsLeft, hph]
    omega
  all_goals cases h

/-- A port answer that ends the transactions of a command: it has failed the command, or the output bytes are
ready (R98, R118, R120, R122). -/
def answered (e e' : Engine) : Prop := (∃ code, e' = withFailure code e) ∨ ∃ out, e' = withOutput out e

theorem answered_afterSeal (answer : SealAnswer) (e : Engine) : answered e (afterSeal answer e) := by
  unfold afterSeal
  split
  · exact .inl ⟨_, rfl⟩
  · split
    · exact .inl ⟨_, rfl⟩
    · exact .inr ⟨_, rfl⟩

theorem answered_afterOpen (len : Nat) (answer : OpenAnswer) (e : Engine) :
    answered e (afterOpen len answer e) := by
  unfold afterOpen
  split
  · exact .inl ⟨_, rfl⟩
  · split
    · exact .inl ⟨_, rfl⟩
    · exact .inr ⟨_, rfl⟩

/-- After the last transaction there are the output writes, for which there is room, and the completion. -/
theorem stepsLeft_answered {s : State} {e : Engine} (h : answered e s.engine) (ha : phaseAgrees s) :
    stepsLeft s.ops s.engine ≤ s.ops.outCap.toNat + 1 := by
  rcases h with ⟨code, h⟩ | ⟨out, h⟩
  · rw [h]
    exact Nat.le_add_left 1 _
  · rw [phaseAgrees, h] at ha
    obtain ⟨-, -, hroom, -⟩ := ha
    rw [h]
    exact Nat.add_le_add_right hroom 1

theorem transact_stepsLeft {port : CryptoPort} {s : State} (h : transactReady s) :
    stepsLeft s.ops (transact port s).engine < stepsLeft s.ops s.engine := by
  obtain ⟨hagrees, -⟩ := transact_past (port := port) h
  have hops : (transact port s).ops = s.ops := by rw [transact_planned]
  have hlast : ∀ e, answered e (transact port s).engine →
      stepsLeft s.ops (transact port s).engine ≤ s.ops.outCap.toNat + 1 := by
    intro e he
    have := stepsLeft_answered he hagrees
    rwa [hops] at this
  obtain ⟨-, h⟩ := h
  split at h <;> rename_i hph
  · have hleft : stepsLeft s.ops s.engine = 1 + Config.keySize + 1 := by simp only [stepsLeft, hph]
    have hengine : (transact port s).engine = withOutput (port.hash s.engine.input).toList s.engine := by
      simp only [transact, hph]
    have hlen : (port.hash s.engine.input).toList.length = Config.keySize := by simp [Config.keySize]
    rw [hleft, hengine, show stepsLeft s.ops _ = (port.hash s.engine.input).toList.length + 1 from rfl, hlen]
    omega
  · have hleft : stepsLeft s.ops s.engine = 2 + s.ops.outCap.toNat + 1 := by simp only [stepsLeft, hph]
    rw [hleft]
    simp only [transact, hph]
    split
    · change 1 < 2 + s.ops.outCap.toNat + 1
      omega
    · simp only [stepsLeft]
      omega
  · have hleft : stepsLeft s.ops s.engine = 1 + s.ops.outCap.toNat + 1 := by simp only [stepsLeft, hph]
    have := hlast s.engine (by simp only [transact, hph]; exact answered_afterSeal _ _)
    omega
  · have hleft : stepsLeft s.ops s.engine = 1 + s.ops.outCap.toNat + 1 := by simp only [stepsLeft, hph]
    have := hlast s.engine (by simp only [transact, hph]; exact answered_afterOpen _ _ _)
    omega
  all_goals cases h

/-! ## One engine step -/

/-- What one engine step of a command that agrees with its engine does: it completes, or it keeps the agreement
and takes one step off those that are left. -/
theorem engineStep_advances {port : CryptoPort} {raced : Bool} {s t : State} (hb : s.status.busy = true)
    (ha : engineAgrees s) (h : engineStep port raced s = .next t) :
    t.status.busy = false ∨
      (t.status.busy = true ∧ engineAgrees t ∧ stepsLeft t.ops t.engine < stepsLeft s.ops s.engine) := by
  rw [engineStep_busy hb] at h
  have ready := planStep_ready hb ha
  have planned := planStep_planned s
  have left := planStep_stepsLeft (ha hb).1
  generalize planStep s = p at *
  obtain ⟨u, act⟩ := p
  simp only at h ready planned left
  have hub : u.status.busy = true := by rw [planned]; exact hb
  have hops : u.ops = s.ops := by rw [planned]; rfl
  rw [← hops] at left
  have goesOn : ∀ v : State, v.status = u.status → enginePast v →
      stepsLeft v.ops v.engine < stepsLeft u.ops u.engine →
      v.status.busy = true ∧ engineAgrees v ∧ stepsLeft v.ops v.engine < stepsLeft s.ops s.engine := by
    rintro v hst ⟨hphase, hcheck⟩ hlt
    rw [← hops]
    exact ⟨by rw [hst]; exact hub, fun _ => ⟨hphase, fun _ => hcheck⟩, hlt.trans_le left⟩
  rcases performAction_next h with
    ⟨a, dir, -, rfl, -⟩ | ⟨a, b, v, rfl, hr, rfl⟩ | ⟨a, b, v, rfl, hw, rfl⟩ | ⟨rfl, rfl⟩ | ⟨n, -, rfl⟩ |
      ⟨-, rfl⟩ | ⟨code, -, rfl⟩
  · exact .inl rfl
  · refine .inr ?_
    obtain ⟨-, ⟨-, rfl⟩ | ⟨-, rfl⟩⟩ := engineRead_ok hr
    · exact goesOn _ rfl (afterRead_past ready) (afterRead_stepsLeft b ready)
    · exact goesOn _ rfl (afterRead_past ready) (afterRead_stepsLeft _ ready)
  · refine .inr ?_
    obtain ⟨-, rfl | rfl⟩ := engineWrite_ok hw
    · exact goesOn _ rfl (afterWrite_past ready) (afterWrite_stepsLeft ready)
    · exact goesOn _ rfl (afterWrite_past ready) (afterWrite_stepsLeft ready)
  · refine .inr (goesOn _ (by rw [transact_planned]) (transact_past ready) ?_)
    have hlt := transact_stepsLeft (port := port) ready
    rwa [show u.ops = (transact port u).ops by rw [transact_planned]] at hlt ⊢
  · exact .inl rfl
  · exact .inl rfl
  · exact .inl rfl

theorem engineAgrees_of_idle {s : State} (hb : s.status.busy = false) : engineAgrees s :=
  fun h => absurd h (by simp [hb])

/-- A command that has just been accepted agrees with its engine. -/
theorem engineAgrees_accept (i : Instr) (s : State) : engineAgrees (accept i s) :=
  fun _ => ⟨⟨rfl, rfl⟩, fun h => absurd rfl h⟩

/-- As many engine steps as are left are enough: more of them give the same outcome. -/
theorem runEngine_enough {port : CryptoPort} {n m : Nat} {s : State} (ha : engineAgrees s)
    (hn : stepsLeft s.ops s.engine ≤ n) (hm : stepsLeft s.ops s.engine ≤ m) :
    runEngine port n s = runEngine port m s := by
  cases hb : s.status.busy
  · rw [runEngine_idle port n hb, runEngine_idle port m hb]
  have hone := one_le_stepsLeft s.ops s.engine
  induction n generalizing m s with
  | zero => omega
  | succ n ih =>
    obtain ⟨m, rfl⟩ : ∃ k, m = k + 1 := ⟨m - 1, by omega⟩
    by_cases hlast : ∀ t, engineStep port false s = .next t → t.status.busy = false
    · rw [runEngine_succ_last n hb hlast, runEngine_succ_last m hb hlast]
    · push Not at hlast
      obtain ⟨t, ht, htb⟩ := hlast
      obtain hidle | ⟨hbusy, hagrees, hlt⟩ := engineStep_advances hb ha ht
      · exact absurd hidle htb
      · rw [runEngine_succ_next n hb ht, runEngine_succ_next m hb ht]
        exact ih hagrees (by omega) (by omega) hbusy (one_le_stepsLeft _ _)

/-- Settles O45: the engine's steps run to the meaning's outcome, and the bound on them is enough. -/
theorem engineStepsRefineTheMeaning : Obligations.EngineStepsRefineTheMeaning := by
  unfold Obligations.EngineStepsRefineTheMeaning
  intro port i s hb
  obtain ⟨n, hn⟩ := runsTo_accept port i hb
  rw [← hn (max n (stepBound i s.ops)) (le_max_left _ _)]
  exact runEngine_enough (engineAgrees_accept i s) le_rfl (le_max_right _ _)

end Sys2Proof.Machine
end

section
/-! PROOFS. What an engine step can end in (60_exceptions.md), and every command completing (R93, R102): the
completion step, the accesses that a running command makes, and the outcome of a whole run. -/

namespace Sys2Proof.Machine

/-! ## The completion step -/

/-- Settles O13: of the actions of an engine step only a bus error and the three completions leave BUSY = 0, and
each is a completion step of the planned state. -/
theorem engineEndsOnlyByCompletion : Obligations.EngineEndsOnlyByCompletion := by
  unfold Obligations.EngineEndsOnlyByCompletion
  intro port raced s t hb h hidle
  rw [engineStep_busy hb] at h
  have planned := planStep_planned s
  generalize planStep s = p at *
  obtain ⟨u, act⟩ := p
  simp only at h planned
  have hub : u.status.busy = true := by rw [planned]; exact hb
  have completes : ∀ (code : ErrCode) (ea ol : Word), (code ≠ .busError → ea = s.errAddr) →
      (code ≠ .noError → ol = s.outLen) → t = finish code { u with errAddr := ea, outLen := ol } →
      t.status.done = true ∧ t.status.err = decide (t.status.errcode ≠ .noError) ∧
        t.irq = s.ctrl.irqEn ∧ (t.status.errcode ≠ .busError → t.errAddr = s.errAddr) ∧
        (t.status.errcode ≠ .noError → t.outLen = s.outLen) ∧ t.mem = s.mem ∧
        t.status.overrun = s.status.overrun ∧ sameConfiguration s t := by
    rintro code ea ol hea hol rfl
    rw [planned]
    exact ⟨rfl, rfl, irq_finish code _, hea, hol, rfl, rfl, sameConfiguration.refl s⟩
  have herrAddr : u.errAddr = s.errAddr := by rw [planned]; rfl
  have houtLen : u.outLen = s.outLen := by rw [planned]; rfl
  rcases performAction_next h with
    ⟨a, dir, -, ht, -⟩ | ⟨a, b, v, -, hr, rfl⟩ | ⟨a, b, v, -, hw, rfl⟩ | ⟨-, rfl⟩ | ⟨n, -, ht⟩ |
      ⟨-, ht⟩ | ⟨code, -, ht⟩
  · exact completes .busError (BitVec.ofNat 32 a) u.outLen (absurd rfl) (fun _ => houtLen) ht
  · obtain ⟨-, ⟨-, rfl⟩ | ⟨-, rfl⟩⟩ := engineRead_ok hr <;> cases hub.symm.trans hidle
  · obtain ⟨-, rfl | rfl⟩ := engineWrite_ok hw <;> cases hub.symm.trans hidle
  · rw [transact_planned] at hidle
    cases hub.symm.trans hidle
  · exact completes .noError u.errAddr (BitVec.ofNat 32 n) (fun _ => herrAddr) (absurd rfl) ht
  · exact completes .noError u.errAddr u.outLen (fun _ => herrAddr) (absurd rfl) ht
  · exact completes code u.errAddr u.outLen (fun _ => herrAddr) (fun _ => houtLen) ht

/-! ## The command that runs -/

theorem planInput_curOp (s : State) : (planInput s).1.engine.curOp = s.engine.curOp := by
  unfold planInput
  split <;> rfl

theorem planKey_curOp (s : State) : (planKey s).1.engine.curOp = s.engine.curOp := by
  unfold planKey
  split
  · rfl
  · exact planInput_curOp (enterPhase .input s)

theorem planChannels_curOp (n : Nat) (s : State) :
    (planChannels n s).1.engine.curOp = s.engine.curOp := by
  induction n generalizing s with
  | zero => rfl
  | succ n ih =>
    unfold planChannels
    split
    · split
      · exact ih _
      · split
        · exact ih _
        · rfl
    · exact ih s

theorem planSlots_curOp (s : State) : (planSlots s).1.engine.curOp = s.engine.curOp := by
  unfold planSlots
  split
  · rfl
  · split
    · rfl
    · split
      · rfl
      · rw [planOutput_engine]

theorem planFirst_curOp (s : State) : (planFirst s).1.engine.curOp = s.engine.curOp := by
  unfold planFirst
  split
  · rfl
  · exact planInput_curOp (enterPhase .input s)
  · exact planKey_curOp (enterPhase .key s)
  · exact planKey_curOp (enterPhase .key s)
  · rfl
  · rw [planSource_engine, enterPhase_engine]
  · exact planSlots_curOp (enterPhase .slots s)

theorem planStart_curOp (s : State) : (planStart s).1.engine.curOp = s.engine.curOp := by
  have hengine := opening_engine s.engine.curOp s
  unfold planStart
  split <;> rename_i ho <;> rw [ho] at hengine
  · rw [hengine]
  · rw [planFirst_curOp, hengine]

/-- The pure computation of a step is the running command's (R36). -/
theorem planStep_curOp (s : State) : (planStep s).1.engine.curOp = s.engine.curOp := by
  unfold planStep
  split
  · exact planStart_curOp s
  · exact planKey_curOp s
  · exact planInput_curOp s
  · rfl
  · rfl
  · rfl
  · rfl
  · rw [planSource_engine]
  · exact planChannels_curOp _ s
  · rfl
  · rfl
  · exact planSlots_curOp s
  · rw [planOutput_engine]
  · rfl

theorem afterRead_curOp (o : Operands) (b : Byte) (e : Engine) :
    (afterRead o b e).curOp = e.curOp := by
  unfold afterRead
  split
  case h_3 => split <;> rfl
  case h_4 => unfold afterPayload; split <;> rfl
  case h_5 =>
    split
    · rfl
    · exact nextPixel_curOp
  all_goals rfl

theorem afterWrite_curOp (o : Operands) (e : Engine) : (afterWrite o e).curOp = e.curOp := by
  unfold afterWrite
  split
  case h_1 =>
    split
    · rfl
    · exact nextPixel_curOp
  all_goals rfl

theorem answered_curOp {e e' : Engine} (h : answered e e') : e'.curOp = e.curOp := by
  rcases h with ⟨code, rfl⟩ | ⟨out, rfl⟩ <;> rfl

theorem transact_curOp (port : CryptoPort) (s : State) :
    (transact port s).engine.curOp = s.engine.curOp := by
  unfold transact
  split
  case h_2 => split <;> rfl
  case h_3 => exact answered_curOp (answered_afterSeal _ _)
  case h_4 => exact answered_curOp (answered_afterOpen _ _ _)
  all_goals rfl

/-- Until it ends a running command stays the one that runs (R36). -/
theorem engineStep_curOp {port : CryptoPort} {raced : Bool} {s t : State} (hb : s.status.busy = true)
    (h : engineStep port raced s = .next t) (ht : t.status.busy = true) :
    t.engine.curOp = s.engine.curOp := by
  rw [engineStep_busy hb] at h
  have hcur := planStep_curOp s
  generalize (planStep s).1 = u at h hcur
  rcases performAction_next h with
    ⟨a, dir, -, rfl, -⟩ | ⟨a, b, v, -, hr, rfl⟩ | ⟨a, b, v, -, hw, rfl⟩ | ⟨-, rfl⟩ | ⟨n, -, rfl⟩ |
      ⟨-, rfl⟩ | ⟨code, -, rfl⟩
  · cases ht
  · obtain ⟨-, ⟨-, rfl⟩ | ⟨-, rfl⟩⟩ := engineRead_ok hr <;> exact (afterRead_curOp _ _ _).trans hcur
  · obtain ⟨-, rfl | rfl⟩ := engineWrite_ok hw <;> exact (afterWrite_curOp _ _).trans hcur
  · exact (transact_curOp port u).trans hcur
  · cases ht
  · cases ht
  · cases ht

/-! ## Stops -/

/-- Where an engine step is refused: it reached device memory in a region of the running command (R59). -/
def refusedInRegion (op : Instr) (s : State) (r : Refusal) : Prop :=
  ∃ a, r = .deviceMemory a ∧ isDevice s.plat a = true ∧
    ∃ reg ∈ readRegions op s.ops ++ writeRegions op s.ops, reg.contains a = true

theorem halt_refused {h : Halt} {s : State} {r : Refusal} (he : halt h s = .refused r) :
    ∃ a, h = .device a ∧ r = .deviceMemory a := by
  cases h <;> cases he
  exact ⟨_, rfl, rfl⟩

theorem accessHalt_device {p : Platform} {a a' : Nat} {d : Dir} (h : accessHalt p a d = some (.device a')) :
    a' = a ∧ isDevice p a = true := by
  rcases accessHalt_some h with ⟨h, -⟩ | ⟨h, -⟩ | ⟨h, -, -, hd⟩ <;> cases h
  exact ⟨rfl, hd⟩

theorem engineStep_refused {port : CryptoPort} {raced : Bool} {s : State} {r : Refusal}
    (ha : engineAgrees s) (h : engineStep port raced s = .refused r) :
    refusedInRegion s.engine.curOp s r := by
  cases hb : s.status.busy
  · rw [engineStep_idle hb] at h
    cases h
  rw [engineStep_busy hb] at h
  have ready := planStep_ready hb ha
  have planned := planStep_planned s
  have hcur := planStep_curOp s
  generalize planStep s = p at *
  obtain ⟨u, act⟩ := p
  simp only at h ready planned hcur
  have hops : u.ops = s.ops := by rw [planned]; rfl
  have hplat : u.plat = s.plat := by rw [planned]; rfl
  rw [refusedInRegion, ← hops, ← hplat, ← hcur]
  cases act with
  | read a =>
    simp only [performAction] at h
    split at h
    · rename_i e he
      obtain ⟨a', rfl, rfl⟩ := halt_refused h
      obtain ⟨rfl, hd⟩ := accessHalt_device (engineRead_error he)
      obtain ⟨reg, hreg, hin⟩ := readReady_region ready
      exact ⟨_, rfl, hd, reg, List.mem_append_left _ hreg, hin⟩
    · cases h
  | write a v =>
    simp only [performAction] at h
    split at h
    · rename_i e he
      obtain ⟨a', rfl, rfl⟩ := halt_refused h
      obtain ⟨rfl, hd⟩ := accessHalt_device (engineWrite_error he)
      obtain ⟨reg, hreg, hin⟩ := writeReady_region ready
      exact ⟨_, rfl, hd, reg, List.mem_append_right _ hreg, hin⟩
    · cases h
  | transact => cases h
  | complete n => cases h
  | completePlain => cases h
  | raise code => cases h

/-- Everything a run of the engine can end in, its steps enough: DONE, or a refusal in the command's regions. -/
theorem runEngine_ends {port : CryptoPort} {n : Nat} {s : State} (hb : s.status.busy = true)
    (ha : engineAgrees s) (hn : stepsLeft s.ops s.engine ≤ n) :
    (∃ t, runEngine port n s = .next t ∧ t.status.done = true ∧ t.status.busy = false) ∨
      ∃ r, runEngine port n s = .refused r ∧ refusedInRegion s.engine.curOp s r := by
  have hone := one_le_stepsLeft s.ops s.engine
  induction n generalizing s with
  | zero => omega
  | succ n ih =>
    cases h : engineStep port false s with
    | next t =>
      rw [runEngine_succ_next n hb h]
      obtain hidle | ⟨hbusy, hagrees, hlt⟩ := engineStep_advances hb ha h
      · obtain ⟨hdone, -⟩ := engineEndsOnlyByCompletion port false s t hb h hidle
        exact .inl ⟨t, runEngine_idle port n hidle, hdone, hidle⟩
      · obtain ⟨⟨hops, -, hplat, -⟩, -⟩ := engineStep_keeps h
        refine (ih hbusy hagrees (by omega) (one_le_stepsLeft _ _)).imp_right ?_
        rintro ⟨r, hr, hin⟩
        rw [refusedInRegion, hops, hplat, engineStep_curOp hb h hbusy] at hin
        exact ⟨r, hr, hin⟩
    | fault f => exact absurd h (engineStep_not_fault port false ha f)
    | refused r =>
      rw [runEngine_succ_last n hb (by rw [h]; rintro t ⟨⟩)]
      exact .inr ⟨r, h, engineStep_refused ha h⟩

/-- Everything a command can end in at any crypto port (R102): DONE, or a refusal in its regions (R59). -/
theorem execWith_ends (port : CryptoPort) (i : Instr) {s : State} (hb : s.status.busy = false) :
    (∃ t, execWith port i s = .next t ∧ t.status.done = true ∧ t.status.busy = false) ∨
      ∃ r, execWith port i s = .refused r ∧ refusedInRegion i s r := by
  rw [← engineStepsRefineTheMeaning port i s hb]
  exact runEngine_ends (s := accept i s) rfl (engineAgrees_accept i s) le_rfl

theorem exec_not_fault {i : Instr} {s : State} (hb : s.status.busy = false) (f : Fault) :
    exec i s ≠ .fault f := by
  intro h
  rw [exec_eq_execWith] at h
  rcases execWith_ends Config.port i hb with ⟨t, ht, -⟩ | ⟨r, hr, -⟩
  · cases h.symm.trans ht
  · cases h.symm.trans hr

/-- Settles O38: the two ends of `execWith_ends` are no fault, and without device memory only the first is
left. -/
theorem everyCommandCompletes : Obligations.EveryCommandCompletes := by
  unfold Obligations.EveryCommandCompletes
  intro i s hb
  refine ⟨exec_not_fault hb, fun r hr => ?_, fun hdev => ?_⟩ <;>
    rcases execWith_ends Config.port i hb with ⟨t, ht, hdone, hidle⟩ | ⟨r', hr', hin⟩
  · rw [exec_eq_execWith, ht] at hr
    cases hr
  · rw [exec_eq_execWith, hr'] at hr
    cases hr
    exact hin
  · exact ⟨t, by rw [exec_eq_execWith, ht], hdone, hidle⟩
  · obtain ⟨a, -, hd, reg, hreg, hcontains⟩ := hin
    rw [hdev reg hreg a hcontains] at hd
    cases hd

end Sys2Proof.Machine
end

section
/-! PROOFS. Runs of the machine (30_encoding.md, 40_commands.md): the default schedule gives a running command the
engine's steps, so it reaches DONE, and RUN is its expansion. -/

namespace Sys2Proof.Machine

/-! ## Steps in a row -/

/-- Go on from an outcome that is a next state; a stop stays one. -/
def andThen (o : Outcome) (f : State → Outcome) : Outcome :=
  match o with
  | .next t    => f t
  | .fault r   => .fault r
  | .refused r => .refused r

theorem runSteps_succ (n : Nat) (s : State) : runSteps (n + 1) s = andThen (step s) (runSteps n) := by
  rw [runSteps]
  cases step s <;> rfl

theorem runEngine_succ (port : CryptoPort) (n : Nat) {s : State} (hb : s.status.busy = true) :
    runEngine port (n + 1) s = andThen (engineStep port false s) (runEngine port n) := by
  rw [runEngine, if_pos hb]
  cases engineStep port false s <;> rfl

theorem step_default_busy {s : State} (hb : s.status.busy = true) (hturns : s.turns = []) :
    step s = engineStep Config.port false s := by
  simp [step, scheduledStep, hturns, hb]

theorem step_default_idle {s : State} (hb : s.status.busy = false) (hturns : s.turns = []) :
    step s = hostTurn false s := by
  simp [step, scheduledStep, hturns, hb]

/-- With no turn scheduled the machine runs the engine until the command has ended, and goes on from there. -/
theorem runSteps_runEngine {n : Nat} {s : State} (hb : s.status.busy = true) (hturns : s.turns = [])
    (ha : engineAgrees s) (hn : stepsLeft s.ops s.engine ≤ n) :
    ∃ m, m ≤ n ∧ ∀ k, runSteps (m + k) s = andThen (runEngine Config.port n s) (runSteps k) := by
  have hone := one_le_stepsLeft s.ops s.engine
  induction n generalizing s with
  | zero => omega
  | succ n ih =>
    have hstep := step_default_busy hb hturns
    have last : (∀ t, engineStep Config.port false s = .next t → t.status.busy = false) →
        ∃ m, m ≤ n + 1 ∧
          ∀ k, runSteps (m + k) s = andThen (runEngine Config.port (n + 1) s) (runSteps k) := by
      intro hlast
      refine ⟨1, Nat.le_add_left 1 n, fun k => ?_⟩
      rw [Nat.add_comm, runSteps_succ, hstep, runEngine_succ_last n hb hlast]
    by_cases hlast : ∀ t, engineStep Config.port false s = .next t → t.status.busy = false
    · exact last hlast
    · push Not at hlast
      obtain ⟨t, ht, htb⟩ := hlast
      obtain hidle | ⟨hbusy, hagrees, hlt⟩ := engineStep_advances hb ha ht
      · exact absurd hidle htb
      · obtain ⟨⟨-, -, -, hturns'⟩, -⟩ := engineStep_keeps ht
        obtain ⟨m, hm, hrun⟩ := ih hbusy (hturns'.trans hturns) hagrees (by omega) (one_le_stepsLeft _ _)
        refine ⟨m + 1, by omega, fun k => ?_⟩
        rw [show m + 1 + k = m + k + 1 by omega, runSteps_succ, hstep, ht, runEngine_succ_next n hb ht]
        exact hrun k

/-- Settles O49: the invariant's engine has no more steps left than the bound, and without device memory its run
ends in DONE. -/
theorem runningCommandReachesDone : Obligations.RunningCommandReachesDone := by
  unfold Obligations.RunningCommandReachesDone
  rintro s ⟨-, -, ha⟩ hb hturns hdev
  have hbound := stepsLeft_le_stepBound (ha hb).1
  obtain ⟨n, hn, hrun⟩ := runSteps_runEngine hb hturns ha hbound
  rcases runEngine_ends (port := Config.port) hb ha hbound with ⟨t, ht, hdone, hidle⟩ | ⟨r, -, a, -, hd, -⟩
  · refine ⟨n, t, hn, ?_, hdone, hidle⟩
    rw [← Nat.add_zero n, hrun 0, ht]
    rfl
  · rw [isDevice, hdev] at hd
    cases hd

/-! ## What belongs to the host

The engine's steps neither read nor change the host's program and the answer of the bus. -/

/-- A state with another program of the host and another answer of the bus. -/
def State.withHost (P : List HostOp) (R : Response) (s : State) : State :=
  { s with program := P, response := R }

section
variable (P : List HostOp) (R : Response)

@[simp] theorem State.withHost_engine (s : State) : (s.withHost P R).engine = s.engine := rfl

@[simp] theorem State.withHost_ops (s : State) : (s.withHost P R).ops = s.ops := rfl

@[simp] theorem State.withHost_plat (s : State) : (s.withHost P R).plat = s.plat := rfl

theorem planOutput_withHost (s : State) :
    planOutput (s.withHost P R) = ((planOutput s).1.withHost P R, (planOutput s).2) := by
  unfold planOutput
  rw [State.withHost_engine]
  split <;> rfl

theorem planInput_withHost (s : State) :
    planInput (s.withHost P R) = ((planInput s).1.withHost P R, (planInput s).2) := by
  unfold planInput
  rw [State.withHost_engine, State.withHost_ops]
  split <;> rfl

theorem planKey_withHost (s : State) :
    planKey (s.withHost P R) = ((planKey s).1.withHost P R, (planKey s).2) := by
  unfold planKey
  rw [State.withHost_engine, State.withHost_ops]
  split
  · rfl
  · exact planInput_withHost P R (enterPhase .input s)

theorem planSource_withHost (s : State) :
    planSource (s.withHost P R) = ((planSource s).1.withHost P R, (planSource s).2) := by
  unfold planSource
  rw [show cursorInGrid (s.withHost P R) = cursorInGrid s from rfl]
  split <;> rfl

theorem planChannels_withHost (n : Nat) (s : State) :
    planChannels n (s.withHost P R) = ((planChannels n s).1.withHost P R, (planChannels n s).2) := by
  induction n generalizing s with
  | zero => rfl
  | succ n ih =>
    unfold planChannels
    rw [State.withHost_engine, State.withHost_ops]
    split
    · split
      · exact ih { s with engine := putFrameBit (2 - n) s.engine.cur s.engine }
      · split
        · exact ih { s with engine := putFrameBit (2 - n) ((le32 s.ops.inLen.toNat).getD (s.engine.k / 8) 0) s.engine }
        · rfl
    · exact ih s

theorem planSlots_withHost (s : State) :
    planSlots (s.withHost P R) = ((planSlots s).1.withHost P R, (planSlots s).2) := by
  unfold planSlots
  rw [show cursorInGrid (s.withHost P R) = cursorInGrid s from rfl, State.withHost_engine, State.withHost_ops]
  split
  · rfl
  · split
    · rfl
    · split
      · rfl
      · exact planOutput_withHost P R { s with engine := { s.engine with phase := .output, i := 0, output := _ } }

theorem planFirst_withHost (s : State) :
    planFirst (s.withHost P R) = ((planFirst s).1.withHost P R, (planFirst s).2) := by
  unfold planFirst
  rw [show (s.withHost P R).engine.curOp = s.engine.curOp from rfl]
  split
  · rfl
  · exact planInput_withHost P R (enterPhase .input s)
  · exact planKey_withHost P R (enterPhase .key s)
  · exact planKey_withHost P R (enterPhase .key s)
  · rfl
  · exact planSource_withHost P R (enterPhase .source s)
  · exact planSlots_withHost P R (enterPhase .slots s)

theorem writeTrunc_withHost (s : State) :
    writeTrunc (s.withHost P R) = (writeTrunc s).withHost P R := by
  rw [writeTrunc_eq, writeTrunc_eq]
  rfl

theorem opening_withHost (op : Instr) (s : State) :
    opening op (s.withHost P R) = ((opening op s).1.withHost P R, (opening op s).2) := by
  cases op
  case embed =>
    simp only [opening]
    rw [show checkEmbed (s.withHost P R).ctrl (s.withHost P R).ops = checkEmbed s.ctrl s.ops from rfl]
    split
    · rfl
    · exact congrArg (·, none) (writeTrunc_withHost P R (writeFits (writeCapBits s)))
  all_goals rfl

theorem planStart_withHost (s : State) :
    planStart (s.withHost P R) = ((planStart s).1.withHost P R, (planStart s).2) := by
  have hopening := opening_withHost P R s.engine.curOp s
  unfold planStart
  rw [show (s.withHost P R).engine.curOp = s.engine.curOp from rfl, hopening]
  rcases opening s.engine.curOp s with ⟨u, _ | code⟩
  · exact planFirst_withHost P R u
  · rfl

/-- The pure computation of a step does not look at what belongs to the host. -/
theorem planStep_withHost (s : State) :
    planStep (s.withHost P R) = ((planStep s).1.withHost P R, (planStep s).2) := by
  unfold planStep
  rw [show (s.withHost P R).engine.phase = s.engine.phase from rfl]
  split
  · exact planStart_withHost P R s
  · exact planKey_withHost P R s
  · exact planInput_withHost P R s
  · rfl
  · rfl
  · rfl
  · rfl
  · exact planSource_withHost P R s
  · exact planChannels_withHost P R _ s
  · rfl
  · rfl
  · exact planSlots_withHost P R s
  · exact planOutput_withHost P R s
  · rfl

theorem halt_withHost (h : Halt) (s : State) :
    halt h (s.withHost P R) = andThen (halt h s) fun t => .next (t.withHost P R) := by
  cases h <;> rfl

theorem transact_withHost (port : CryptoPort) (s : State) :
    transact port (s.withHost P R) = (transact port s).withHost P R := by
  cases hphase : s.engine.phase
  case rng =>
    simp only [transact, State.withHost_engine, hphase]
    rw [show (s.withHost P R).draws = s.draws from rfl, State.withHost_plat]
    cases port.draw s.draws s.plat.nonceSize.val <;> rfl
  all_goals simp only [transact, State.withHost_engine, hphase] <;> rfl

theorem performAction_withHost (port : CryptoPort) (raced : Bool) (s : State) (act : Action) :
    performAction port raced (s.withHost P R) act =
      andThen (performAction port raced s act) fun t => .next (t.withHost P R) := by
  cases act with
  | read a =>
    simp only [performAction, engineRead, State.withHost_plat]
    cases accessHalt s.plat a .read with
    | some h => exact halt_withHost P R h s
    | none =>
      rw [show (s.withHost P R).raced = s.raced from rfl]
      cases raced || s.raced.contains a <;> rfl
  | write a v =>
    simp only [performAction, engineWrite, State.withHost_plat]
    cases accessHalt s.plat a .write with
    | some h => exact halt_withHost P R h s
    | none =>
      rw [show (s.withHost P R).raced = s.raced from rfl]
      cases s.raced.contains a <;> rfl
  | transact => exact congrArg Host.Outcome.next (transact_withHost P R port s)
  | complete len => rfl
  | completePlain => rfl
  | raise code => rfl

theorem engineStep_withHost (port : CryptoPort) (raced : Bool) (s : State) :
    engineStep port raced (s.withHost P R) =
      andThen (engineStep port raced s) fun t => .next (t.withHost P R) := by
  cases hb : s.status.busy
  · rw [engineStep_idle hb, engineStep_idle (by exact hb)]
    rfl
  · rw [engineStep_busy hb, engineStep_busy (by exact hb), planStep_withHost, performAction_withHost]

theorem runEngine_withHost (port : CryptoPort) (n : Nat) (s : State) :
    runEngine port n (s.withHost P R) =
      andThen (runEngine port n s) fun t => .next (t.withHost P R) := by
  induction n generalizing s with
  | zero => rfl
  | succ n ih =>
    cases hb : s.status.busy
    · rw [runEngine_idle port _ hb, runEngine_idle port _ (by exact hb)]
      rfl
    · rw [runEngine_succ port n hb, runEngine_succ port n (by exact hb), engineStep_withHost]
      cases engineStep port false s with
      | next t => exact ih t
      | fault r => rfl
      | refused r => rfl

end

/-! ## RUN -/

theorem hostTurn_cons {raced : Bool} {op : HostOp} {ops : List HostOp} {s : State}
    (h : s.program = op :: ops) :
    hostTurn raced s = hostStep raced keepPolling op { s with program := ops } := by
  simp only [hostTurn, h]

/-- RUN while idle is the meaning of its word, and the read that sees DONE (R84). -/
theorem hostRun_idle {again : HostOp → State → State} {w : Word} {i : Instr} {s : State}
    (hb : s.status.busy = false) (hd : decode w = .ok i) :
    hostRun again w s = andThen (exec i s) fun t => .next (answerDone t) := by
  simp only [hostRun, hb, hd, Bool.false_eq_true, if_false]
  cases exec i s <;> rfl

/-- DONE of a command that has ended is what RUN's POLL waits for (R84). -/
theorem doneMask_and_toWord {st : Status} (h : st.done = true) : st.toWord &&& doneMask = doneMask := by
  have hmask : doneMask = flagAt true 1 := by decide
  have hbit : st.toWord.getLsbD 1 = true := by
    simp only [Status.toWord, BitVec.getLsbD_or, getLsbD_flagAt _ _ (show 1 < 32 by decide), h]
    simp
  rw [hmask, BitVec.and_comm, flagAt_and, hbit]
  rfl

/-- The POLL of RUN's expansion, once the command has ended, answers as RUN does (R84). -/
theorem step_donePoll {s : State} {ps : List HostOp} (hb : s.status.busy = false) (hdone : s.status.done = true)
    (hturns : s.turns = []) (hp : s.program = donePoll s :: ps) :
    step s = .next { answerDone s with program := ps } := by
  rw [step_default_idle hb hturns, hostTurn_cons hp]
  have hread := hostRead_reg { s with program := ps } .status
  simp only [donePoll, hostStep, pollOnce]
  simp only at hread
  rw [hread]
  simp only [readReg, doneMask_and_toWord hdone, beq_self_eq_true]
  rfl

/-- Settles O46: after the CMD write the machine runs the engine as the meaning does, up to the host's own fields,
and the POLL then gives RUN's answer. -/
theorem runIsWriteThenPoll : Obligations.RunIsWriteThenPoll := by
  unfold Obligations.RunIsWriteThenPoll
  intro s w i ps hb hturns hprogram hd
  set idle : State := { s with program := ps } with hidle
  set rest : List HostOp := donePoll s :: ps with hrest
  set start : State := (accept i idle).withHost rest .written with hstart
  have hrun : step s = andThen (exec i idle) fun t => .next (answerDone t) := by
    rw [step_default_idle hb hturns, hostTurn_cons hprogram]
    exact hostRun_idle hb hd
  have hwrite : step { s with program := (HostOp.run w).expand s.plat.codecBase ++ ps } = .next start := by
    rw [step_default_idle (by exact hb) (by exact hturns), hostTurn_cons (by rfl)]
    exact congrArg Host.Outcome.next (hostWrite_cmd_command (s := { s with program := rest }) hb hd)
  obtain ⟨n, hn, hsteps⟩ := runSteps_runEngine (s := start) rfl hturns (engineAgrees_accept i idle)
    (le_refl (stepBound i s.ops))
  have hmeaning : runEngine Config.port (stepBound i s.ops) start =
      andThen (exec i idle) fun t => .next (t.withHost rest .written) := by
    rw [hstart, runEngine_withHost, exec_eq_execWith, ← engineStepsRefineTheMeaning Config.port i idle hb]
  refine ⟨n + 1 + 1, by omega, ?_⟩
  rw [runSteps_succ, hwrite, hrun]
  change runSteps (n + 1) start = _
  rw [hsteps 1, hmeaning]
  cases he : exec i idle with
  | fault r => rfl
  | refused r => rfl
  | next t =>
    obtain ⟨code, u, ⟨-, -, hplat, hprog, htrn, -⟩, rfl⟩ := completedFrom_exec (s := idle) hb he
    have hpoll : rest = donePoll ((finish code u).withHost rest .written) :: ps := by
      rw [hrest]
      simp only [donePoll, State.withHost, finish_plat, hplat, hidle]
    change runSteps 1 ((finish code u).withHost rest .written) = .next (answerDone (finish code u))
    rw [runSteps_succ, step_donePoll (s := (finish code u).withHost rest .written) rfl rfl (htrn.trans hturns) hpoll]
    change Host.Outcome.next _ = _
    rw [show ps = u.program from hprog.symm]
    rfl

end Sys2Proof.Machine
end

section
/-! PROOFS. The invariant (10_state.md sections 1 and 2): what every step keeps, and the accesses outside data memory
that it makes impossible. -/

namespace Sys2Proof.Machine

/-! ## What the parts of a step keep -/

theorem accept_inv {s : State} (i : Instr) (hmem : Memory.wf s.mem = true) : (accept i s).Inv :=
  ⟨hmem, ⟨fun _ => ⟨rfl, rfl, rfl, rfl, rfl⟩, nofun, fun _ => rfl, fun _ => rfl, nofun⟩, engineAgrees_accept i s⟩

theorem acceptIllegal_inv {s : State} (hmem : Memory.wf s.mem = true) : (acceptIllegal s).Inv :=
  ⟨hmem, ⟨nofun, fun _ => nofun, fun _ => rfl, fun _ => rfl, nofun⟩, nofun⟩

theorem acceptWord_inv {s : State} (w : Word) (hmem : Memory.wf s.mem = true) : (acceptWord w s).Inv := by
  cases hd : decode w with
  | ok i => rw [acceptWord_command hd]; exact accept_inv i hmem
  | error e => rw [acceptWord_illegal hd]; exact acceptIllegal_inv hmem

/-- A W1C write of STATUS clears DONE, ERR and OVERRUN only, which the invariant allows in every state. -/
theorem clearWritten_inv {s : State} (v : Word) (hi : s.Inv) :
    ({ s with status := s.status.clearWritten v } : State).Inv := by
  obtain ⟨hmem, ⟨hbusy, herr, haddr, hlen, htrunc⟩, hengine⟩ := hi
  refine ⟨hmem, ⟨fun hb => ?_, fun he => herr ?_, haddr, hlen, htrunc⟩, hengine⟩
  · obtain ⟨hdone, herr', hcode, haddr', hlen'⟩ := hbusy hb
    refine ⟨?_, ?_, hcode, haddr', hlen'⟩
    · simp [Status.clearWritten, hdone]
    · simp [Status.clearWritten, herr']
  · simp only [Status.clearWritten, Bool.and_eq_true] at he
    exact he.1

theorem writeReg_inv {s : State} (r : Reg) (v : Word) (hi : s.Inv) : (writeReg s r v).Inv := by
  rcases writeReg_cases s r v with e | ⟨-, e⟩ | ⟨-, e⟩ | ⟨-, -, e⟩ | ⟨hb, c, o, e⟩ <;> rw [e]
  · exact hi
  · exact hi
  · exact clearWritten_inv v hi
  · exact acceptWord_inv v hi.1
  · exact ⟨hi.1, hi.2.1, engineAgrees_of_idle hb⟩

theorem hostWrite_inv {s : State} (addr size : Nat) (v : Word) (hi : s.Inv) : (hostWrite addr size v s).Inv := by
  obtain ⟨a, e | ⟨r, -, -, e⟩⟩ := hostWrite_cases addr size v s <;> rw [e]
  · exact hi
  · exact writeReg_inv r v hi

theorem agentStore_inv {s : State} (a : Word) (v : Byte) (hi : s.Inv) : (agentStore a v s).Inv := by
  obtain ⟨hmem, hrest⟩ := hi
  rcases agentStore_cases a v s with ⟨-, e⟩ | ⟨-, e⟩ <;> rw [e] <;>
    exact ⟨Memory.wf_write _ hmem a.isLt, hrest⟩

theorem agentLoad_inv {s : State} (raced : Bool) (a : Word) (hi : s.Inv) : (agentLoad raced a s).Inv := by
  rcases agentLoad_cases raced a s with ⟨-, e⟩ | ⟨-, -, e⟩ | e <;> rw [e]
  · exact ⟨Memory.wf_write _ hi.1 a.isLt, hi.2⟩
  · exact hi
  · exact hi

/-- A read of POLL changes the answer only. -/
theorem pollOnce_eq (addr : Nat) (mask value : Word) (s : State) :
    ∃ r, (pollOnce addr mask value s).1 = { s with response := r } := by
  obtain ⟨r, hr⟩ := hostRead_eq addr 4 s
  refine ⟨r, ?_⟩
  unfold pollOnce
  simp only [hr]
  cases r <;> rfl

theorem runEngine_inv {port : CryptoPort} {n : Nat} {s t : State} (hi : s.Inv)
    (h : runEngine port n s = .next t) : t.Inv := by
  induction n generalizing s with
  | zero => cases h; exact hi
  | succ n ih =>
    cases hb : s.status.busy
    · rw [runEngine_idle port _ hb] at h
      cases h
      exact hi
    · rw [runEngine_succ port n hb] at h
      cases hs : engineStep port false s with
      | next u => rw [hs] at h; exact ih (engineStep_inv hi hs) h
      | fault r => rw [hs] at h; cases h
      | refused r => rw [hs] at h; cases h

/-- The meaning of a command keeps the invariant because the engine's steps, which give it, do. -/
theorem exec_inv {i : Instr} {s t : State} (hb : s.status.busy = false) (hmem : Memory.wf s.mem = true)
    (h : exec i s = .next t) : t.Inv := by
  rw [exec_eq_execWith, ← engineStepsRefineTheMeaning Config.port i s hb] at h
  exact runEngine_inv (accept_inv i hmem) h

theorem hostRun_inv {again : HostOp → State → State} {w : Word} {s t : State} (hi : s.Inv)
    (hagain : ∀ op u, u.Inv → (again op u).Inv) (h : hostRun again w s = .next t) : t.Inv := by
  cases hb : s.status.busy
  · cases hd : decode w with
    | error e =>
      simp only [hostRun, hb, hd, Bool.false_eq_true, if_false, Host.Outcome.next.injEq] at h
      subst h
      exact acceptIllegal_inv hi.1
    | ok i =>
      rw [hostRun_idle hb hd] at h
      cases he : exec i s with
      | next u =>
        have hu : u.Inv := exec_inv hb hi.1 he
        rw [he] at h
        cases h
        exact hu
      | fault r => rw [he] at h; cases h
      | refused r => rw [he] at h; cases h
  · simp only [hostRun, hb, if_true, Host.Outcome.next.injEq] at h
    subst h
    exact hagain _ _ hi

theorem hostStep_inv {raced : Bool} {again : HostOp → State → State} {op : HostOp} {s t : State} (hi : s.Inv)
    (hagain : ∀ op u, u.Inv → (again op u).Inv) (h : hostStep raced again op s = .next t) : t.Inv := by
  cases op with
  | write addr size v => cases h; exact hostWrite_inv addr size v hi
  | read addr size =>
    cases h
    obtain ⟨r, e⟩ := hostRead_eq addr size s
    rw [e]
    exact hi
  | poll addr mask value =>
    obtain ⟨r, hr⟩ := pollOnce_eq addr mask value s
    simp only [hostStep] at h
    split at h <;> rename_i u hp <;> rw [hp] at hr <;> simp only at hr <;> subst hr <;> cases h
    · exact hi
    · exact hagain _ _ hi
  | run w => exact hostRun_inv hi hagain h
  | store a v => cases h; exact agentStore_inv a v hi
  | load a => cases h; exact agentLoad_inv raced a hi

theorem hostTurn_inv {raced : Bool} {s t : State} (hi : s.Inv) (h : hostTurn raced s = .next t) : t.Inv := by
  cases hp : s.program with
  | nil => simp only [hostTurn, hp] at h; cases h; exact hi
  | cons op ops =>
    rw [hostTurn_cons hp] at h
    exact hostStep_inv (again := keepPolling) (s := { s with program := ops }) hi (fun _ _ hu => hu) h

theorem resetBlock_inv {s : State} (hmem : Memory.wf s.mem = true) : (resetBlock s).Inv :=
  ⟨hmem, ⟨nofun, nofun, fun _ => rfl, fun _ => rfl, nofun⟩, nofun⟩

theorem turnWith_inv {raced : Bool} {turn : Turn} {s t : State} (hi : s.Inv)
    (h : turnWith raced turn s = .next t) : t.Inv := by
  cases turn with
  | host => exact hostTurn_inv hi h
  | other op => exact hostStep_inv hi (fun _ _ hu => hu) h
  | engine => exact engineStep_inv hi h
  | reset => cases h; exact resetBlock_inv hi.1

/-! ## Who moves -/

/-- A step is a scheduled turn, the engine's step, or the host's turn. -/
theorem step_cases (s : State) :
    (∃ turn ts, s.turns = turn :: ts ∧
      step s = turnWith (racedAhead turn { s with turns := ts }) turn { s with turns := ts }) ∨
    (s.turns = [] ∧ s.status.busy = true ∧ step s = engineStep Config.port false s) ∨
    (s.turns = [] ∧ s.status.busy = false ∧ step s = hostTurn false s) := by
  cases hturns : s.turns with
  | cons turn ts => exact .inl ⟨turn, ts, rfl, by simp only [step, scheduledStep, hturns, takeTurn]⟩
  | nil =>
    cases hb : s.status.busy
    · exact .inr (.inr ⟨rfl, rfl, step_default_idle hb hturns⟩)
    · exact .inr (.inl ⟨rfl, rfl, step_default_busy hb hturns⟩)

/-- Settles O43: whoever moves keeps the invariant. -/
theorem stepKeepsInvariant : Obligations.StepKeepsInvariant := by
  unfold Obligations.StepKeepsInvariant
  intro s t hi h
  rcases step_cases s with ⟨turn, ts, -, e⟩ | ⟨-, -, e⟩ | ⟨-, -, e⟩ <;> rw [e] at h
  · exact turnWith_inv (s := { s with turns := ts }) hi h
  · exact engineStep_inv hi h
  · exact hostTurn_inv hi h

/-- Settles O42: the reset state is what a reset leaves of memory that was never written. -/
theorem resetMeetsInvariant : Obligations.ResetMeetsInvariant :=
  ⟨State.reset_mem_wf, ⟨nofun, nofun, fun _ => rfl, fun _ => rfl, nofun⟩, nofun⟩

/-! ## No step faults -/

theorem hostRun_not_fault (again : HostOp → State → State) (w : Word) (s : State) (f : Fault) :
    hostRun again w s ≠ .fault f := by
  intro h
  cases hb : s.status.busy
  · cases hd : decode w with
    | error e => simp only [hostRun, hb, hd, Bool.false_eq_true, if_false, reduceCtorEq] at h
    | ok i =>
      rw [hostRun_idle hb hd] at h
      cases he : exec i s with
      | next u => rw [he] at h; cases h
      | fault r => exact exec_not_fault hb r he
      | refused r => rw [he] at h; cases h
  · simp only [hostRun, hb, if_true, reduceCtorEq] at h

theorem hostStep_not_fault (raced : Bool) (again : HostOp → State → State) (op : HostOp) (s : State) (f : Fault) :
    hostStep raced again op s ≠ .fault f := by
  cases op with
  | poll addr mask value =>
    simp only [hostStep]
    split <;> nofun
  | run w => exact hostRun_not_fault again w s f
  | write => nofun
  | read => nofun
  | store => nofun
  | load => nofun

theorem hostTurn_not_fault (raced : Bool) (s : State) (f : Fault) : hostTurn raced s ≠ .fault f := by
  cases hp : s.program with
  | nil => simp only [hostTurn, hp]; nofun
  | cons op ops => rw [hostTurn_cons hp]; exact hostStep_not_fault raced keepPolling op _ f

/-- Settles O44: the engine does not fault where it agrees with its command, and no host operation faults, RUN of a
command included. -/
theorem invariantStepsNeverFault : Obligations.InvariantStepsNeverFault := by
  unfold Obligations.InvariantStepsNeverFault
  rintro s f ⟨-, -, ha⟩
  rcases step_cases s with ⟨turn, ts, -, e⟩ | ⟨-, -, e⟩ | ⟨-, -, e⟩ <;> rw [e]
  · cases turn with
    | host => exact hostTurn_not_fault _ _ f
    | other op => exact hostStep_not_fault _ (fun _ s => s) op _ f
    | engine => exact engineStep_not_fault Config.port _ (s := { s with turns := ts }) ha f
    | reset => nofun
  · exact engineStep_not_fault Config.port false ha f
  · exact hostTurn_not_fault false s f

end Sys2Proof.Machine
end

section
/-! PROOFS. The schedule (20_memory.md section 5, 40_commands.md section 1): what every turn keeps of the platform and
of the host's stores, what an engine step writes, and races on the bytes of a running command. -/

namespace Sys2Proof.Machine

/-! ## What every turn keeps -/

/-- What any operation of a host or another agent keeps, BUSY or not: the platform, the turns, and of the stores
still in the host's program it adds none. -/
def hostKeeps (s t : State) : Prop :=
  t.plat = s.plat ∧ t.turns = s.turns ∧
  ∀ (addr : Word) (v : Byte), .store addr v ∈ t.program → .store addr v ∈ s.program

theorem hostKeeps.of_eq {s t : State} (hplat : t.plat = s.plat) (hturns : t.turns = s.turns)
    (hprogram : t.program = s.program) : hostKeeps s t :=
  ⟨hplat, hturns, fun _ _ h => by rwa [hprogram] at h⟩

theorem hostKeeps_keepPolling (addr : Nat) (mask value : Word) (s : State) :
    hostKeeps s (keepPolling (.poll addr mask value) s) :=
  ⟨rfl, rfl, fun _ _ h => by simpa [keepPolling] using h⟩

theorem acceptWord_hostKeeps (w : Word) (s : State) : hostKeeps s (acceptWord w s) := by
  cases hd : decode w with
  | ok i => rw [acceptWord_command hd]; exact .of_eq rfl rfl rfl
  | error e => rw [acceptWord_illegal hd]; exact .of_eq rfl rfl rfl

theorem hostWrite_hostKeeps (addr size : Nat) (v : Word) (s : State) : hostKeeps s (hostWrite addr size v s) := by
  obtain ⟨a, e | ⟨r, -, -, e⟩⟩ := hostWrite_cases addr size v s <;> rw [e]
  · exact .of_eq rfl rfl rfl
  · rcases writeReg_cases s r v with e | ⟨-, e⟩ | ⟨-, e⟩ | ⟨-, -, e⟩ | ⟨-, c, o, e⟩ <;> rw [e]
    · exact .of_eq rfl rfl rfl
    · exact .of_eq rfl rfl rfl
    · exact .of_eq rfl rfl rfl
    · exact acceptWord_hostKeeps v s
    · exact .of_eq rfl rfl rfl

theorem hostRun_hostKeeps {again : HostOp → State → State} {w : Word} {s t : State}
    (hagain : ∀ a m v u, hostKeeps u (again (.poll a m v) u)) (h : hostRun again w s = .next t) :
    hostKeeps s t := by
  cases hb : s.status.busy
  · cases hd : decode w with
    | error e =>
      simp only [hostRun, hb, hd, Bool.false_eq_true, if_false, Host.Outcome.next.injEq] at h
      subst h
      exact .of_eq rfl rfl rfl
    | ok i =>
      rw [hostRun_idle hb hd] at h
      cases he : exec i s with
      | next u =>
        obtain ⟨code, u', ⟨-, -, hplat, hprogram, hturns, -⟩, rfl⟩ := completedFrom_exec hb he
        rw [he] at h
        cases h
        exact .of_eq hplat hturns hprogram
      | fault r => rw [he] at h; cases h
      | refused r => rw [he] at h; cases h
  · simp only [hostRun, hb, if_true, Host.Outcome.next.injEq] at h
    subst h
    exact hagain _ _ _ { setOverrun s with response := .written }

theorem hostStep_hostKeeps {raced : Bool} {again : HostOp → State → State} {op : HostOp} {s t : State}
    (hagain : ∀ a m v u, hostKeeps u (again (.poll a m v) u)) (h : hostStep raced again op s = .next t) :
    hostKeeps s t := by
  cases op with
  | write addr size v => cases h; exact hostWrite_hostKeeps addr size v s
  | read addr size =>
    cases h
    obtain ⟨r, e⟩ := hostRead_eq addr size s
    rw [e]
    exact .of_eq rfl rfl rfl
  | poll addr mask value =>
    obtain ⟨r, hr⟩ := pollOnce_eq addr mask value s
    simp only [hostStep] at h
    split at h <;> rename_i u hp <;> rw [hp] at hr <;> simp only at hr <;> subst hr <;> cases h
    · exact .of_eq rfl rfl rfl
    · exact hagain addr mask value { s with response := r }
  | run w => exact hostRun_hostKeeps hagain h
  | store a v =>
    cases h
    rcases agentStore_cases a v s with ⟨-, e⟩ | ⟨-, e⟩ <;> rw [e] <;> exact .of_eq rfl rfl rfl
  | load a =>
    cases h
    rcases agentLoad_cases raced a s with ⟨-, e⟩ | ⟨-, -, e⟩ | e <;> rw [e] <;> exact .of_eq rfl rfl rfl

theorem hostTurn_hostKeeps {raced : Bool} {s t : State} (h : hostTurn raced s = .next t) : hostKeeps s t := by
  cases hp : s.program with
  | nil => simp only [hostTurn, hp] at h; cases h; exact .of_eq rfl rfl rfl
  | cons op ops =>
    rw [hostTurn_cons hp] at h
    obtain ⟨hplat, hturns, hstores⟩ := hostStep_hostKeeps hostKeeps_keepPolling h
    exact ⟨hplat, hturns, fun addr v hm => by rw [hp]; exact List.mem_cons_of_mem op (hstores addr v hm)⟩

theorem turnWith_hostKeeps {raced : Bool} {turn : Turn} {s t : State} (h : turnWith raced turn s = .next t) :
    hostKeeps s t := by
  cases turn with
  | host => exact hostTurn_hostKeeps h
  | other op => exact hostStep_hostKeeps (again := fun _ s => s) (fun _ _ _ _ => .of_eq rfl rfl rfl) h
  | engine =>
    obtain ⟨⟨-, -, hplat, hturns⟩, hprogram⟩ := engineStep_keeps h
    exact .of_eq hplat hturns hprogram
  | reset => cases h; exact .of_eq rfl rfl rfl

/-- A step takes the head of the schedule, and keeps what every turn keeps. -/
theorem step_hostKeeps {s t : State} (h : step s = .next t) : hostKeeps { s with turns := s.turns.tail } t := by
  rcases step_cases s with ⟨turn, ts, hturns, e⟩ | ⟨hturns, -, e⟩ | ⟨hturns, -, e⟩ <;> rw [e] at h
  · rw [hturns]
    exact turnWith_hostKeeps h
  · obtain ⟨⟨-, -, hplat, hturns'⟩, hprogram⟩ := engineStep_keeps h
    exact .of_eq hplat (by rw [hturns', hturns]; rfl) hprogram
  · obtain ⟨hplat, hturns', hstores⟩ := hostTurn_hostKeeps h
    exact ⟨hplat, by rw [hturns', hturns]; rfl, hstores⟩

/-- Settles O51: the platform is among what a step keeps. -/
theorem platformNeverChanges : Obligations.PlatformNeverChanges := by
  unfold Obligations.PlatformNeverChanges
  intro s t h
  exact (step_hostKeeps h).1

/-! ## Steps of the host -/

theorem step_turn {turn : Turn} {ts : List Turn} {s : State} (h : s.turns = turn :: ts) :
    step s = turnWith (racedAhead turn { s with turns := ts }) turn { s with turns := ts } := by
  simp only [step, scheduledStep, h, takeTurn]

/-- Where the host has the turn, or nobody has and BUSY = 0, the step is the host's next operation. -/
theorem step_host {s : State} {op : HostOp} {ps : List HostOp} (hp : s.program = op :: ps)
    (h : s.turns.head? = some .host ∨ s.turns = [] ∧ s.status.busy = false) :
    ∃ raced, step s = hostStep raced keepPolling op { s with program := ps, turns := s.turns.tail } := by
  rcases h with h | ⟨hturns, hb⟩
  · obtain ⟨ts, hturns⟩ := List.head?_eq_some_iff.mp h
    refine ⟨racedAhead .host { s with turns := ts }, ?_⟩
    rw [step_turn hturns, hturns]
    exact hostTurn_cons (s := { s with turns := ts }) hp
  · refine ⟨false, ?_⟩
    rw [step_default_idle hb hturns, hostTurn_cons hp, show s.turns.tail = s.turns by rw [hturns]; rfl]

/-- Settles O39: the host's operation of the step is RUN, and RUN while idle is the meaning of its word. -/
theorem stepRunsTheDecodedCommand : Obligations.StepRunsTheDecodedCommand := by
  unfold Obligations.StepRunsTheDecodedCommand
  have run : ∀ (s : State) (w : Word) (i : Instr) (ps : List HostOp), s.status.busy = false →
      s.program = .run w :: ps → decode w = .ok i → (s.turns = [] ∨ s.turns.head? = some .host) →
      step s = andThen (exec i { s with program := ps, turns := s.turns.tail }) fun t => .next (answerDone t) := by
    intro s w i ps hb hp hd hturns
    obtain ⟨raced, e⟩ := step_host hp (hturns.symm.imp_right (⟨·, hb⟩))
    rw [e]
    exact hostRun_idle hb hd
  refine ⟨fun s w i ps hb hp hd hturns => ?_, fun s w i hb hd => ?_⟩
  · rw [run s w i ps hb hp hd hturns]
    cases exec i { s with program := ps, turns := s.turns.tail } <;> rfl
  · have hword : BitVec.ofNat 32 (w.toNat % 2 ^ 32) = w := by
      rw [Nat.mod_eq_of_lt w.isLt, BitVec.ofNat_toNat, BitVec.setWidth_eq]
    rw [run (s.withFetchWord 32 w.toNat) w i s.program hb (by rw [State.withFetchWord, hword]) hd (.inr rfl)]
    change andThen (exec i s) _ = _
    cases exec i s <;> rfl

/-- One read of POLL at a register's address answers its value, and compares it. -/
theorem pollOnce_reg (s : State) (r : Reg) (mask value : Word) :
    pollOnce (r.address s.plat.codecBase) mask value s =
      ({ s with response := .word (readReg s r) }, readReg s r &&& mask == value) := by
  simp only [pollOnce, hostRead_reg]

/-- Settles O40: the read of POLL answers the register's value, and only where it does not match is the operation put
back. -/
theorem pollRepeatsUntilMatch : Obligations.PollRepeatsUntilMatch := by
  unfold Obligations.PollRepeatsUntilMatch
  intro s r mask value ps hturns hp
  obtain ⟨raced, e⟩ := step_host hp hturns
  have hpoll : pollOnce (r.address s.plat.codecBase) mask value { s with program := ps, turns := s.turns.tail } =
      ({ s with program := ps, turns := s.turns.tail, response := .word (readReg s r) },
        readReg s r &&& mask == value) := pollOnce_reg _ r mask value
  rw [e, hostStep, hpoll]
  by_cases hm : readReg s r &&& mask = value
  · simp only [hm, beq_self_eq_true, if_true]
  · simp only [beq_eq_false_iff_ne.mpr hm, if_neg hm, keepPolling, hp]

/-- Settles O41: the default schedule gives the host, which has nothing to do, or the engine. -/
theorem endOfRunStays : Obligations.EndOfRunStays := by
  unfold Obligations.EndOfRunStays
  refine ⟨fun s hb hp hturns => ?_, fun s hb hturns => step_default_busy hb hturns⟩
  rw [step_default_idle hb hturns, hostTurn, hp]

/-! ## What an engine step writes -/

theorem planStep_mem (s : State) : (planStep s).1.mem = s.mem := by rw [planStep_planned]; rfl

theorem planStep_ops (s : State) : (planStep s).1.ops = s.ops := by rw [planStep_planned]; rfl

/-- An engine step changes memory by its write only. -/
theorem engineStep_mem {port : CryptoPort} {raced : Bool} {s t : State} (hb : s.status.busy = true)
    (h : engineStep port raced s = .next t) :
    t.mem = s.mem ∨ ∃ a v b, (planStep s).2 = .write a v ∧ t.mem = Memory.write s.mem a b := by
  rw [engineStep_busy hb] at h
  rw [← planStep_mem s]
  rcases performAction_next h with
    ⟨a, dir, -, rfl, -⟩ | ⟨a, b, w, -, hr, rfl⟩ | ⟨a, v, w, hact, hw, rfl⟩ | ⟨-, rfl⟩ | ⟨n, -, rfl⟩ |
      ⟨-, rfl⟩ | ⟨code, -, rfl⟩
  · exact .inl rfl
  · obtain ⟨-, ⟨-, rfl⟩ | ⟨-, rfl⟩⟩ := engineRead_ok hr <;> exact .inl rfl
  · obtain ⟨-, rfl | rfl⟩ := engineWrite_ok hw <;> exact .inr ⟨a, v, _, hact, rfl⟩
  · exact .inl (by rw [transact_planned])
  · exact .inl rfl
  · exact .inl rfl
  · exact .inl rfl

/-- Settles O47: the only change of memory is the action's write. -/
theorem engineStepWritesOneByte : Obligations.EngineStepWritesOneByte := by
  unfold Obligations.EngineStepWritesOneByte
  intro port raced s t hb h
  rcases engineStep_mem hb h with hkept | ⟨a, v, b, hact, hmem⟩
  · exact ⟨fun _ _ _ _ _ => by rw [hkept], fun _ => hkept⟩
  · refine ⟨fun a' v' hact' c hc => ?_, fun hno => absurd hact (hno a v)⟩
    obtain ⟨rfl, rfl⟩ : a = a' ∧ v = v' := by simpa using hact.symm.trans hact'
    rw [hmem, Memory.read_write_other s.mem b hc]

/-- Settles O48: the byte that an agreeing engine writes lies in a region that its command writes. -/
theorem engineWritesStayInRegions : Obligations.EngineWritesStayInRegions := by
  unfold Obligations.EngineWritesStayInRegions
  rintro port raced s t ⟨-, -, ha⟩ hb h c hout
  rcases engineStep_mem hb h with hkept | ⟨a, v, b, hact, hmem⟩
  · rw [hkept]
  · have hready := planStep_ready hb ha
    simp only [actionReady, hact] at hready
    obtain ⟨r, hr, hcontains⟩ := writeReady_region hready
    rw [planStep_curOp, planStep_ops] at hr
    have hc : c ≠ a := by
      rintro rfl
      exact absurd hcontains (by rw [hout r hr]; decide)
    rw [hmem, Memory.read_write_other s.mem b hc]

/-! ## Races -/

theorem engineRead_free {raced : Bool} {s : State} {a : Nat} (ha : accessHalt s.plat a .read = none)
    (hraced : raced = true ∨ a ∈ s.raced) :
    engineRead raced s a = .ok (Config.freeByte s.free, { s with free := s.free + 1 }) := by
  have hcontains : (raced || s.raced.contains a) = true := by simpa using hraced
  rw [engineRead, ha]
  simp only [hcontains, if_true]

/-- The only byte that another agent's store changes is the one it is for. -/
theorem agentStore_other (s : State) (a : Word) (v : Byte) {b : Nat} (hb : b ≠ a.toNat) :
    Memory.read (agentStore a v s).mem b = Memory.read s.mem b := by
  rcases agentStore_cases a v s with ⟨-, e⟩ | ⟨-, e⟩ <;> rw [e] <;> exact Memory.read_write_other s.mem _ hb

/-- Settles O52: the race and no race of each access, one clause each. -/
theorem racedBytesAreFree : Obligations.RacedBytesAreFree := by
  unfold Obligations.RacedBytesAreFree
  refine ⟨fun raced s a ha hraced => engineRead_free ha hraced, fun s t a v hraced h => ?_, fun s a v hregion => ?_,
    fun raced s a hwritten => ?_, fun raced s a hread hregion hraced => ?_, fun raced s a hread hfree => ?_,
    fun s a v hout => ?_, fun s a v b hb => agentStore_other s a v hb⟩
  · unfold engineWrite at h
    have hcontains : s.raced.contains a = true := by simpa using hraced
    split at h
    · cases h
    · rw [if_pos hcontains] at h
      cases h
      exact Memory.read_write_same s.mem a _
  · rw [agentStore, if_pos hregion]
    exact ⟨Memory.read_write_same s.mem _ _, List.mem_cons_self⟩
  · rw [agentLoad, if_pos hwritten]
    exact ⟨Memory.read_write_same s.mem _ _, rfl, List.mem_cons_self, fun b hb => Memory.read_write_other s.mem _ hb⟩
  · have hcontains : (raced || s.raced.contains a.toNat) = true := by simpa using hraced
    simp only [agentLoad, hread, hregion, hcontains, Bool.and_self, Bool.false_eq_true, if_false, if_true, loadFree]
  · have hnone : (inCommandRegion s a.toNat && (raced || s.raced.contains a.toNat)) = false := by
      rcases hfree with hout | ⟨hraced, hmem⟩
      · rw [hout, Bool.false_and]
      · simp [hraced, hmem]
    simp only [agentLoad, hread, hnone, Bool.false_eq_true, if_false]
  · rw [agentStore, if_neg (by rw [hout]; decide)]
    exact ⟨Memory.read_write_same s.mem _ _, rfl, rfl⟩

/-! ## Races to come -/

theorem storesTo_iff {a : Nat} {op : HostOp} :
    storesTo a op = true ↔ ∃ addr v, op = .store addr v ∧ addr.toNat = a := by
  cases op <;> simp [storesTo]

/-- A store is to come where another agent's turn or the host's program has it. -/
theorem storeToCome_iff {a : Nat} {s : State} :
    storeToCome a s = true ↔
      ∃ (addr : Word) (v : Byte), addr.toNat = a ∧ (.other (.store addr v) ∈ s.turns ∨ .store addr v ∈ s.program) := by
  unfold storeToCome
  rw [Bool.or_eq_true, List.any_eq_true, List.any_eq_true]
  constructor
  · rintro (⟨turn, hturn, hstores⟩ | ⟨op, hop, hstores⟩)
    · cases turn with
      | other op =>
        obtain ⟨addr, v, rfl, ha⟩ := storesTo_iff.mp hstores
        exact ⟨addr, v, ha, .inl hturn⟩
      | host => cases hstores
      | engine => cases hstores
      | reset => cases hstores
    · obtain ⟨addr, v, rfl, ha⟩ := storesTo_iff.mp hstores
      exact ⟨addr, v, ha, .inr hop⟩
  · rintro ⟨addr, v, ha, hturn | hop⟩
    · exact .inl ⟨_, hturn, storesTo_iff.mpr ⟨addr, v, rfl, ha⟩⟩
    · exact .inr ⟨_, hop, storesTo_iff.mpr ⟨addr, v, rfl, ha⟩⟩

theorem byteRead_engine {s : State} {a : Nat} : byteRead .engine s = some a ↔ (planStep s).2 = .read a := by
  unfold byteRead
  cases (planStep s).2 <;> simp

/-- Settles O53: an access in no race is the accessor's exact branch, and where no store or no race is to come the
engine's turn sees none. -/
theorem engineTurnsAreExactOutsideRaces : Obligations.EngineTurnsAreExactOutsideRaces := by
  unfold Obligations.EngineTurnsAreExactOutsideRaces
  refine ⟨fun s a hraced ha => ?_, fun s a v hraced ha => ?_, fun s ts hturns hstores => ?_,
    fun s ts hturns hrace => ?_⟩
  · rw [engineRead, ha]
    simp [hraced]
  · refine ⟨{ s with mem := Memory.write s.mem a v }, ?_, Memory.read_write_same s.mem a v,
      fun b hb => Memory.read_write_other s.mem v hb, rfl⟩
    rw [engineWrite, ha]
    simp [hraced]
  · have hnone : racedAhead .engine { s with turns := ts } = false := by
      unfold racedAhead
      split
      · rename_i a hread
        have hact := byteRead_engine.mp hread
        rw [Bool.and_eq_false_iff]
        left
        rw [← Bool.not_eq_true, storeToCome_iff]
        rintro ⟨addr, v, rfl, hstore⟩
        exact hstores addr v hstore hact
      · rfl
    rw [step_turn hturns, hnone]
    rfl
  · rw [step_turn hturns, racedAhead_of_no_race hrace]
    rfl

/-! ## A store that the schedule leads to -/

/-- The command whose step it is: BUSY, the command and its operands, hence its regions. -/
theorem turnWith_inCommandRegion {raced : Bool} {turn : Turn} {s t : State} {a : Nat} (hb : s.status.busy = true)
    (ht : t.status.busy = true) (hr : turn ≠ .reset) (h : turnWith raced turn s = .next t) :
    inCommandRegion t a = inCommandRegion s a := by
  obtain ⟨hops, -⟩ := turnWith_busy hb hr h
  have hcur : t.engine.curOp = s.engine.curOp := by
    cases turn with
    | host =>
      cases hp : s.program with
      | nil => simp only [turnWith, hostTurn, hp] at h; cases h; rfl
      | cons op ops =>
        rw [turnWith, hostTurn_cons hp] at h
        obtain ⟨-, hengine, -⟩ := hostStep_busy (again := keepPolling) (s := { s with program := ops }) hb
          (fun _ _ => ⟨⟨rfl, rfl, rfl, rfl⟩, rfl, rfl⟩) h
        rw [hengine]
    | other op =>
      obtain ⟨-, hengine, -⟩ := hostStep_busy hb (fun _ _ => ⟨⟨rfl, rfl, rfl, rfl⟩, rfl, rfl⟩) h
      rw [hengine]
    | engine => exact engineStep_curOp hb h ht
    | reset => exact absurd rfl hr
  rw [inCommandRegion, inCommandRegion, hcur, hops, hb, ht]

theorem busy_of_runsBusy {n : Nat} {s t : State} (h : runsBusy n s t) (ht : t.status.busy = true) :
    s.status.busy = true := by
  cases n with
  | zero => cases h; exact ht
  | succ n => exact h.1

/-- While BUSY the next operation of a host or another agent is that of the turn at the head of the schedule. -/
theorem nextHostOp_busy {s : State} {op : HostOp} (hb : s.status.busy = true) (h : nextHostOp s = some op) :
    ∃ turn ts, s.turns = turn :: ts ∧ turnOp turn s = some op := by
  cases hturns : s.turns with
  | nil => simp [nextHostOp, hturns, hb] at h
  | cons turn ts => exact ⟨turn, ts, rfl, by rw [← nextHostOp_of_turn hturns, h]⟩

/-- A store that the schedule leads to, BUSY throughout, is among the turns or the program from the start. -/
theorem storeToCome_of_runsBusy {n : Nat} {s t : State} {addr : Word} {v : Byte} (h : runsBusy n s t)
    (ht : t.status.busy = true) (hop : nextHostOp t = some (.store addr v)) :
    .other (.store addr v) ∈ s.turns ∨ .store addr v ∈ s.program := by
  induction n generalizing s with
  | zero =>
    cases h
    obtain ⟨turn, ts, hturns, hturn⟩ := nextHostOp_busy ht hop
    cases turn with
    | host => exact .inr (List.mem_of_mem_head? (by rw [turnOp] at hturn; rw [hturn]; rfl))
    | other op =>
      cases hturn
      exact .inl (by rw [hturns]; exact List.mem_cons_self)
    | engine => cases hturn
    | reset => cases hturn
  | succ n ih =>
    obtain ⟨-, u, hstep, hrest⟩ := h
    obtain ⟨-, hturns, hstores⟩ := step_hostKeeps hstep
    rcases ih hrest with hm | hm
    · rw [hturns] at hm
      exact .inl (List.mem_of_mem_tail hm)
    · exact .inr (hstores addr v hm)

/-- Where the schedule leads, BUSY throughout, to a store to a region of the command, the turns come to a race: were
there none, every step would be its turn taken with no race, up to the store itself, which is one. -/
theorem raceToCome_of_runsBusy {n : Nat} {s t : State} {addr : Word} {v : Byte} (h : runsBusy n s t)
    (ht : t.status.busy = true) (hop : nextHostOp t = some (.store addr v))
    (hregion : inCommandRegion s addr.toNat = true) : raceToCome s.turns s = true := by
  by_contra hno
  rw [Bool.not_eq_true] at hno
  induction n generalizing s with
  | zero =>
    cases h
    obtain ⟨turn, ts, hturns, hturn⟩ := nextHostOp_busy ht hop
    rw [hturns, raceToCome_cons ht] at hno
    rw [hturn] at hno
    exact absurd hregion (by rw [show inCommandRegion _ addr.toNat = false from hno.1]; decide)
  | succ n ih =>
    obtain ⟨hb, u, hstep, hrest⟩ := h
    have hub := busy_of_runsBusy hrest ht
    cases hturns : s.turns with
    | nil =>
      rw [step_default_busy hb hturns] at hstep
      obtain ⟨⟨hops, -, -, hturns'⟩, -⟩ := engineStep_keeps hstep
      refine ih hrest ?_ (by rw [hturns', hturns]; rfl)
      rw [inCommandRegion, engineStep_curOp hb hstep hub, hops, hub]
      rw [inCommandRegion, hb] at hregion
      exact hregion
    | cons turn ts =>
      rw [hturns] at hno
      rw [step_turn hturns, racedAhead_of_no_race hno] at hstep
      rw [raceToCome_cons hb] at hno
      by_cases hr : turn = .reset
      · subst hr
        cases hstep
        cases hub
      · obtain ⟨-, -, -, hturns'⟩ := turnWith_busy (s := { s with turns := ts }) hb hr hstep
        refine ih hrest ?_ (by rw [hturns']; exact hno.2 u hstep)
        rw [turnWith_inCommandRegion (s := { s with turns := ts }) hb hub hr hstep]
        exact hregion

/-- Settles O54: the store that the schedule leads to is seen at the read, which is then free. -/
theorem readBeforeStoreIsFree : Obligations.ReadBeforeStoreIsFree := by
  unfold Obligations.ReadBeforeStoreIsFree
  intro n s u t ts addr v hb hturns p hact hregion ha hstep hrest ht hop
  have hbusy : runsBusy (n + 1) s t := ⟨hb, u, hstep, hrest⟩
  have hrace := raceToCome_of_runsBusy hbusy ht hop hregion
  have hstore : storeToCome addr.toNat { s with turns := ts } = true := by
    refine storeToCome_iff.mpr ⟨addr, v, rfl, ?_⟩
    refine (storeToCome_of_runsBusy hbusy ht hop).imp_left fun hm => ?_
    rw [hturns] at hm
    exact (List.mem_cons.mp hm).resolve_left nofun
  have hahead : racedAhead .engine { s with turns := ts } = true := by
    rw [racedAhead, byteRead_engine.mpr hact]
    rw [hturns] at hrace
    exact Bool.and_eq_true_iff.mpr ⟨hstore, hrace⟩
  have hplanned := planStep_planned { s with turns := ts }
  change p.1 = State.planned _ p.1 at hplanned
  rw [step_turn hturns, hahead, turnWith, engineStep_busy (by exact hb)] at hstep
  change performAction Config.port true p.1 p.2 = _ at hstep
  have hhalt : accessHalt p.1.plat addr.toNat .read = none := by rw [hplanned]; exact ha
  have hops : p.1.ops = s.ops := by rw [hplanned]; rfl
  have hfree : p.1.free = s.free := by rw [hplanned]; rfl
  rw [hact, performAction, engineRead_free hhalt (.inl rfl)] at hstep
  rw [← hops, ← hfree]
  exact (Host.Outcome.next.inj hstep).symm

end Sys2Proof.Machine
end

section
/-! PROOFS. Round trips and their limits (41_crypto.md section 2, 42_codec.md section 3): a frame cut at the capacity,
OPEN of what SEAL wrote, and what EXTRACT depends on. -/

namespace Sys2Proof.Machine

/-! ## A frame that is cut -/

/-- Reassembly drops fewer than eight bits, so it gives a byte of each eight (R148). -/
theorem length_reassemble (bits : Bits) : (reassemble bits).length = bits.length / 8 := by
  induction bits using reassemble.induct with
  | case1 b7 b6 b5 b4 b3 b2 b1 b0 rest ih =>
    rw [reassemble, List.length_cons, ih]
    simp only [List.length_cons]
    omega
  | case2 bits hshort =>
    have hlen : bits.length < 8 := by
      match bits, hshort with
      | [], _ | [_], _ | [_, _], _ | [_, _, _], _ | [_, _, _, _], _ | [_, _, _, _, _], _
      | [_, _, _, _, _, _], _ | [_, _, _, _, _, _, _], _ => simp
      | b7 :: b6 :: b5 :: b4 :: b3 :: b2 :: b1 :: b0 :: rest, hshort =>
        exact absurd rfl (hshort b7 b6 b5 b4 b3 b2 b1 b0 rest)
    rw [reassemble, List.length_nil, Nat.div_eq_of_lt hlen]
    exact hshort

/-- The first `k` bits of a byte sequence reassemble to its first `k / 8` bytes. -/
theorem reassemble_take_expandBytes {bs : Bytes} {k : Nat} (h : k ≤ 8 * bs.length) :
    reassemble ((expandBytes bs).take k) = bs.take (k / 8) := by
  have hsplit : (expandBytes bs).take k =
      expandBytes (bs.take (k / 8)) ++ (expandBytes (bs.drop (k / 8))).take (k - 8 * (k / 8)) := by
    conv_lhs => rw [← List.take_append_drop (k / 8) bs, expandBytes, List.flatMap_append, List.take_append]
    change (expandBytes (bs.take (k / 8))).take k ++
      (expandBytes (bs.drop (k / 8))).take (k - (expandBytes (bs.take (k / 8))).length) = _
    have hlen : (expandBytes (bs.take (k / 8))).length = 8 * (k / 8) := by
      rw [length_expandBytes, List.length_take]
      omega
    rw [hlen, List.take_of_length_le (by omega)]
  have hrest : reassemble ((expandBytes (bs.drop (k / 8))).take (k - 8 * (k / 8))) = [] := by
    rw [← List.length_eq_zero_iff, length_reassemble, List.length_take]
    omega
  rw [hsplit, reassemble_expandBytes_append, hrest, List.append_nil]

/-- Frame bytes that are cut have no whole payload: their length prefix is missing or declares too much (R149). -/
theorem slicePayload_take_frameBytes {c : Bytes} {q : Nat} (hc : c.length < 2 ^ 32) (h : q < 4 + c.length) :
    slicePayload ((frameBytes c).take q) = none := by
  have hlen : ((frameBytes c).take q).length = q := by
    rw [List.length_take, length_frameBytes]
    omega
  by_cases hq : q < 4
  · rw [slicePayload, hlen, if_pos hq]
  · have hle : (le32 c.length).length ≤ q := Nat.le_of_not_lt hq
    have hprefix : u32le ((frameBytes c).take q) = c.length := by
      rw [frameBytes, List.take_append, List.take_of_length_le hle, u32le_le32_append hc]
    rw [slicePayload, hlen, hprefix, if_neg hq, if_pos (by omega)]

/-- EXTRACT finds no payload in a frame that is cut short of its last bit (R156). -/
theorem slicePayload_reassemble_take_frame {c : Bytes} {k : Nat} (hc : c.length < 2 ^ 32)
    (h : k < frameBitCount c.length) : slicePayload (reassemble ((frame c).take k)) = none := by
  unfold frameBitCount at h
  rw [frame, reassemble_take_expandBytes (by rw [length_frameBytes]; omega), slicePayload_take_frameBytes hc (by omega)]

/-- The slot bits of a grid in which a frame was cut are the frame's first bits, as many as there are slots. -/
theorem slotBits_of_cut {s u : State} {m : List Host.Cell}
    (hcut : s.ops.capacity < frameBitCount s.ops.inLen.toNat)
    (hm : embeddedBetween s m 0 s.ops.gridBytes) (hu : readsEmbeddedGrid s m u) :
    slotBits u = (frame (Memory.readAll s.mem s.ops.inBase.toNat s.ops.inLen.toNat)).take s.ops.capacity := by
  obtain ⟨hbase, hwidth, hheight, hgrid⟩ := hu
  obtain ⟨-, hfilled⟩ := hm
  have hcap : u.ops.capacity = s.ops.capacity := by
    simp only [Operands.capacity, Operands.npix, hwidth, hheight]
  have hframe := length_frame (Memory.readAll s.mem s.ops.inBase.toNat s.ops.inLen.toNat)
  rw [Memory.length_readAll] at hframe
  refine List.ext_getElem (by rw [length_slotBits, hcap, List.length_take, hframe]; omega) fun j hj hj' => ?_
  rw [length_slotBits, hcap] at hj
  have hoff : slotOffset j < s.ops.gridBytes := slotOffset_lt hj
  have hin : s.ops.dstGrid.contains (s.ops.dstBase.toNat + slotOffset j) = true :=
    Region.contains_iff.mpr ⟨Nat.le_add_right _ _, Nat.add_lt_add_left hoff _⟩
  rw [getElem_slotBits, hbase, hgrid _ hin, hfilled _ (Nat.zero_le _) hoff,
    lsbGet_embeddedByte_slot (by omega), List.getElem_take, List.getD_eq_getElem _ _ (by omega)]

/-- EMBED's parameter checks, in order (R152). -/
theorem checkEmbed_some {ct : Ctrl} {o : Operands} {e : ErrCode} (h : checkEmbed ct o = some e) :
    e = .range ∨ e = .overlap ∨
      e = .capacity ∧ o.capacity < frameBitCount o.inLen.toNat ∧ ct.truncPolicy = false := by
  unfold checkEmbed at h
  split_ifs at h with _ _ hcap
  · cases h; exact .inl rfl
  · cases h; exact .inr (.inl rfl)
  · cases h
    simp only [Bool.and_eq_true, decide_eq_true_eq, Bool.not_eq_true'] at hcap
    exact .inr (.inr ⟨rfl, hcap.1, hcap.2⟩)

/-- Under the hardened policy the checks that pass have found room for the frame. -/
theorem checkEmbed_none {ct : Ctrl} {o : Operands} (h : checkEmbed ct o = none) (hct : ct.truncPolicy = false) :
    frameBitCount o.inLen.toNat ≤ o.capacity := by
  unfold checkEmbed at h
  split_ifs at h with _ _ hcap
  simpa [hct] using hcap

/-- EMBED that ends in no range, overlap or bus error: CAPACITY for a frame that does not fit under the hardened
policy, and otherwise the whole grid is written. -/
theorem exec_embed_capacity {s t : State} (hb : s.status.busy = false) (h : exec .embed s = .next t)
    (hrange : t.status.errcode ≠ .range) (hoverlap : t.status.errcode ≠ .overlap)
    (hbus : t.status.errcode ≠ .busError) :
    (t.status.errcode = .capacity ∧ s.ops.capacity < frameBitCount s.ops.inLen.toNat ∧ s.ctrl.truncPolicy = false) ∨
    (checkEmbed s.ctrl s.ops = none ∧ t.status.errcode = .noError ∧
      t.status.trunc = decide (frameBitCount s.ops.inLen.toNat > s.ops.capacity) ∧
      embeddedBetween s t.mem 0 s.ops.gridBytes) := by
  rcases execEmbed_next hb h with ⟨e, he, rfl⟩ | ⟨hcheck, m, ⟨hm, rfl⟩ | ⟨n, a, -, -, -, rfl⟩⟩
  · rcases checkEmbed_some he with rfl | rfl | ⟨rfl, hcap⟩
    · exact absurd rfl hrange
    · exact absurd rfl hoverlap
    · exact .inl ⟨rfl, hcap⟩
  · exact .inr ⟨hcheck, rfl, by rw [embedStart_eq]; rfl, hm⟩
  · exact absurd rfl hbus

/-- Settles O56: the checks decide between CAPACITY and the whole grid, and a grid with a cut frame has no payload. -/
theorem capacityBoundary : Obligations.CapacityBoundary := by
  unfold Obligations.CapacityBoundary
  intro s t hb h hrange hoverlap hbus
  rcases exec_embed_capacity hb h hrange hoverlap hbus with
    ⟨hcode, hcap, hpolicy⟩ | ⟨hcheck, hcode, htrunc, hfilled⟩ <;> unfold frameBitCount at *
  · exact ⟨fun hfit => absurd hfit (by omega), fun _ _ => hcode, fun _ hlegacy => by simp [hpolicy] at hlegacy⟩
  · refine ⟨fun hfit => ⟨hcode, by rw [htrunc]; simpa using hfit⟩,
      fun hcut hpolicy => absurd (checkEmbed_none hcheck hpolicy) (by unfold frameBitCount; omega), fun hcut _ => ?_⟩
    refine ⟨hcode, by rw [htrunc]; simpa using hcut, ?_⟩
    intro u v hbu hbase hwidth hheight hgrid hextract hr ho hbe
    have hx := exec_extract_slotBits hbu hextract hr ho hbe
    have hnone := slicePayload_reassemble_take_frame (c := Memory.readAll s.mem s.ops.inBase.toNat s.ops.inLen.toNat)
      (k := s.ops.capacity) (by rw [Memory.length_readAll]; exact s.ops.inLen.isLt)
      (by rw [Memory.length_readAll]; exact hcut)
    rw [← slotBits_of_cut hcut hfilled ⟨hbase, hwidth, hheight, hgrid⟩] at hnone
    rcases extractFrom_next hx with ⟨-, rfl⟩ | ⟨payload, hsome, -⟩
    · exact ⟨rfl, rfl⟩
    · cases hnone.symm.trans hsome

/-! ## OPEN of what SEAL wrote -/

theorem checkOpen_outOverflow {p : Platform} {o : Operands} (h : checkOpen p o = some .outOverflow) :
    o.outCap.toNat < o.inLen.toNat - p.nonceSize.val - Config.tagSize := by
  unfold checkOpen at h
  split_ifs at h with _ _ _ _ hroom
  · cases h
  · cases h
  · cases h
  · cases h
  · exact hroom

/-- OPEN answers OUT_OVERFLOW only for a plaintext longer than OUT_CAP (R122). -/
theorem execWith_openSealed_outOverflow {port : CryptoPort} {s t : State} (hb : s.status.busy = false)
    (h : execWith port .openSealed s = .next t) (hcode : t.status.errcode = .outOverflow) :
    s.ops.outCap.toNat < s.ops.inLen.toNat - s.plat.nonceSize.val - Config.tagSize := by
  rw [execWith, issue_idle hb] at h
  rcases openBody_next h with ⟨e, he, rfl⟩ | ⟨-, ⟨j, -, -, rfl⟩ | ⟨j, -, -, rfl⟩ | ho⟩
  · rw [show e = .outOverflow from hcode] at he
    exact checkOpen_outOverflow he
  · cases hcode
  · cases hcode
  · rcases openWith_next ho with ⟨rfl, -⟩ | ⟨p, -, ⟨-, rfl⟩ | ⟨-, hw⟩⟩
    · cases hcode
    · cases hcode
    · rcases writeOutput_next hw with ⟨-, rfl⟩ | ⟨j, -, -, rfl⟩ <;> cases hcode

/-- Settles O57: OPEN gets the nonce and the sealed bytes under the key that sealed them, where the port's law
applies, and has room for the plaintext. -/
theorem sealThenOpen : Obligations.SealThenOpen := by
  unfold Obligations.SealThenOpen
  refine ⟨Config.port_lawful, ?_⟩
  intro port s t u v hlaw hbs hbu hseal hok hnonceSize hinLen hin hkey hroom hopen hrange hoverlap hbus
  obtain ⟨nonce, sealed, hnonce, hsealed, hsize, hcipher⟩ := execWith_sealPlain_noError hbs hseal hok
  have hlen : t.outLen.toNat = s.plat.nonceSize.val + (s.ops.inLen.toNat + Config.tagSize) := by
    rw [← Memory.length_readAll t.mem s.ops.outBase.toNat t.outLen.toNat, hcipher, List.length_append, hnonce, hsize]
  have hfits : v.status.errcode ≠ .outOverflow := by
    intro hcode
    have hover := execWith_openSealed_outOverflow hbu hopen hcode
    rw [hinLen, hnonceSize, hlen] at hover
    omega
  have hopens : port.aeadOpen (Memory.readAll u.mem u.ops.keyBase.toNat 32) nonce sealed =
      .plain (Memory.readAll s.mem s.ops.inBase.toNat s.ops.inLen.toNat) := by
    rw [hkey]
    exact hlaw _ nonce _ sealed (Memory.length_readAll _ _ _) hnonce hsealed
  obtain ⟨hok', hout, hplain⟩ := execWith_openSealed_plain hbu (by rw [hnonce, hnonceSize])
    (by rw [hsize, Memory.length_readAll]) (by rw [hinLen, hin, hcipher]) hopens hopen hrange hoverlap hfits hbus
  rw [Memory.length_readAll] at hout hplain
  exact ⟨hok', by rw [hout, BitVec.ofNat_toNat, BitVec.setWidth_eq], hplain⟩

/-! ## What EXTRACT depends on -/

/-- The slot reads look at the platform, SRC_BASE and the slots' LSBs only. -/
theorem readSlots_congr {s t : State} {p n : Nat} (hplat : t.plat = s.plat) (hsrc : t.ops.srcBase = s.ops.srcBase)
    (hlsb : ∀ q c, p ≤ q → q < p + n → c < 3 →
      lsbGet (Memory.read t.mem (s.ops.srcBase.toNat + 4 * q + c)) =
        lsbGet (Memory.read s.mem (s.ops.srcBase.toNat + 4 * q + c))) :
    readSlots t p n = readSlots s p n := by
  induction n generalizing p with
  | zero => rfl
  | succ n ih =>
    have hrest := ih (p := p + 1) fun q c hp hq hc => hlsb q c (by omega) (by omega) hc
    simp only [readSlots, hsrc, hrest]
    cases hr : readBytes s (s.ops.srcBase.toNat + 4 * p) 3 with
    | error h =>
      rw [readBytes_error_iff] at hr
      rw [← hplat, ← readBytes_error_iff] at hr
      rw [hr]
    | ok rgb =>
      obtain ⟨hall, rfl⟩ := readBytes_ok_iff.mp hr
      rw [← hplat] at hall
      rw [readBytes_ok_iff.mpr ⟨hall, rfl⟩]
      have hmap : (Memory.readAll t.mem (s.ops.srcBase.toNat + 4 * p) 3).map lsbGet =
          (Memory.readAll s.mem (s.ops.srcBase.toNat + 4 * p) 3).map lsbGet := by
        simp only [Memory.readAll, List.map_map]
        exact List.map_congr_left fun c hc => hlsb p c le_rfl (by omega) (List.mem_range.mp hc)
      simp only [hmap]

/-- The output writes complete, or halt at the first byte that cannot be written; which, the platform, OUT_BASE and
the number of bytes decide. -/
theorem writeOutput_cases (p : Platform) (base : Word) (out : Bytes) :
    (∀ s : State, s.plat = p → s.ops.outBase = base →
      writeOutput out s = .next (completeWith out.length { s with mem := Memory.writeAll s.mem base.toNat out })) ∨
    ∃ j h, j < out.length ∧ accessHalt p (base.toNat + j) .write = some h ∧
      ∀ s : State, s.plat = p → s.ops.outBase = base →
        writeOutput out s = halt h { s with mem := Memory.writeAll s.mem base.toNat (out.take j) } := by
  by_cases hall : ∀ j, j < out.length → accessHalt p (base.toNat + j) .write = none
  · refine .inl fun s hplat hbase => ?_
    subst hplat hbase
    exact writeOutput_complete hall
  · push Not at hall
    have hfirst := Nat.find_spec hall
    have hbefore := fun i => Nat.find_min hall (m := i)
    generalize Nat.find hall = j at hfirst hbefore
    obtain ⟨hj, hsome⟩ := hfirst
    obtain ⟨h, hh⟩ := Option.ne_none_iff_exists'.mp hsome
    refine .inr ⟨j, h, hj, hh, fun s hplat hbase => ?_⟩
    subst hplat hbase
    have hw : writeBytes s s.ops.outBase.toNat out =
        .error ({ s with mem := Memory.writeAll s.mem s.ops.outBase.toNat (out.take j) }, h) := by
      refine writeBytes_error_iff.mpr ⟨j, hj, hh, fun i hi => ?_, rfl⟩
      have := hbefore i hi
      by_contra hne
      exact this ⟨by omega, hne⟩
    rw [writeOutput, hw]

/-- `t` carried over to memory `m`: what was written to the memory of `s` at OUT_BASE is written to `m` instead, and
it covers the OUT_LEN bytes. -/
def carriedOver (s t : State) (m m' : List Host.Cell) : Prop :=
  ∃ bs, t.mem = Memory.writeAll s.mem s.ops.outBase.toNat bs ∧
    m' = Memory.writeAll m s.ops.outBase.toNat bs ∧ t.outLen.toNat ≤ bs.length

/-- What follows EXTRACT's reads depends on OUT_BASE and OUT_CAP of the operands, and on memory not at all. -/
theorem extractFrom_transfer {bits : Bits} {s t : State} {o : Operands} {m : List Host.Cell}
    (hbase : o.outBase = s.ops.outBase) (hcap : o.outCap = s.ops.outCap) (hlen : s.outLen = 0)
    (h : extractFrom bits s = .next t) :
    ∃ m', extractFrom bits { s with ops := o, mem := m } = .next { t with ops := o, mem := m' } ∧
      carriedOver s t m m' := by
  have untouched : ∀ code, ∃ m', (.next (finish code { s with ops := o, mem := m }) : Outcome) =
      .next { finish code s with ops := o, mem := m' } ∧ carriedOver s (finish code s) m m' :=
    fun code => ⟨m, rfl, [], rfl, rfl, by rw [finish_outLen, hlen]; exact Nat.le_refl 0⟩
  unfold extractFrom at h ⊢
  cases hp : slicePayload (reassemble bits) with
  | none =>
    simp only [hp] at h ⊢
    cases h
    exact untouched .framing
  | some payload =>
    simp only [hp, hcap] at h ⊢
    by_cases hroom : payload.length > s.ops.outCap.toNat
    · rw [if_pos hroom] at h ⊢
      cases h
      exact untouched .outOverflow
    · rw [if_neg hroom] at h ⊢
      rcases writeOutput_cases s.plat s.ops.outBase payload with hall | ⟨j, e, hj, -, hw⟩
      · rw [hall s rfl rfl] at h
        cases h
        rw [hall { s with ops := o, mem := m } rfl hbase]
        exact ⟨_, rfl, payload, rfl, rfl, by rw [completeWith_outLen, BitVec.toNat_ofNat]; exact Nat.mod_le _ _⟩
      · rw [hw s rfl rfl] at h
        obtain ⟨a, rfl, rfl⟩ := halt_next h
        rw [hw { s with ops := o, mem := m } rfl hbase]
        exact ⟨_, rfl, payload.take j, rfl, rfl, by rw [raiseBusError_outLen]; simp only [hlen]; exact Nat.zero_le _⟩

/-- Operands that EXTRACT does not tell apart: the same addresses, the same room, and as many pixels. -/
def sameExtract (o o' : Operands) : Prop :=
  o'.srcBase = o.srcBase ∧ o'.outBase = o.outBase ∧ o'.outCap = o.outCap ∧ o'.npix = o.npix

/-- EXTRACT over operands that it does not tell apart and memory with the same slot LSBs ends alike. -/
theorem exec_extract_transfer {s t : State} {o : Operands} {m : List Host.Cell} (hb : s.status.busy = false)
    (ho : sameExtract s.ops o)
    (hlsb : ∀ j, j < s.ops.capacity →
      lsbGet (Memory.read m (s.ops.srcBase.toNat + slotOffset j)) =
        lsbGet (Memory.read s.mem (s.ops.srcBase.toNat + slotOffset j)))
    (h : exec .extract s = .next t) :
    ∃ m', exec .extract { s with ops := o, mem := m } = .next { t with ops := o, mem := m' } ∧
      carriedOver s t m m' := by
  obtain ⟨hsrc, hbase, hcap, hnpix⟩ := ho
  set u : State := writeCapBits (accept .extract s) with hu
  have hstart : writeCapBits (accept .extract { s with ops := o, mem := m }) = { u with ops := o, mem := m } := by
    simp only [hu, writeCapBits, accept_ops, Operands.capacity, hnpix]
    rfl
  have hgrid : o.srcGrid = s.ops.srcGrid := by rw [Operands.srcGrid, Operands.gridBytes, hsrc, hnpix]; rfl
  have hout : o.outBuffer = s.ops.outBuffer := by rw [Operands.outBuffer, hbase, hcap]; rfl
  have hcheck : checkExtract o = checkExtract s.ops := by rw [checkExtract, hgrid, hout]; rfl
  have hslots : readSlots { u with ops := o, mem := m } 0 o.npix = readSlots u 0 s.ops.npix := by
    rw [hnpix]
    refine readSlots_congr rfl hsrc fun q c _ hq hc => ?_
    have hslot : slotOffset (3 * q + c) = 4 * q + c := by
      unfold slotOffset
      omega
    have := hlsb (3 * q + c) (by unfold Operands.capacity; omega)
    rwa [hslot, ← Nat.add_assoc] at this
  simp only [exec, execExtract] at h ⊢
  rw [issue_idle hb] at h
  rw [issue_idle (by exact hb)]
  unfold extractBody at h ⊢
  simp only [hstart, accept_ops, hcheck, ← hu] at h ⊢
  cases hc : checkExtract s.ops with
  | some e =>
    simp only [hc] at h ⊢
    cases h
    exact ⟨m, rfl, [], rfl, rfl, Nat.le_refl 0⟩
  | none =>
    simp only [hc, hslots] at h ⊢
    cases hr : readSlots u 0 s.ops.npix with
    | error e =>
      simp only [hr] at h ⊢
      obtain ⟨a, rfl, rfl⟩ := halt_next h
      exact ⟨m, rfl, [], rfl, rfl, Nat.le_refl 0⟩
    | ok bits =>
      simp only [hr] at h ⊢
      exact extractFrom_transfer hbase hcap rfl h

/-- Settles O59: the other memory gets the same output bytes. -/
theorem extractDependsOnSlotLsbsOnly : Obligations.ExtractDependsOnSlotLsbsOnly := by
  unfold Obligations.ExtractDependsOnSlotLsbsOnly
  intro s m t hb hlsb h
  obtain ⟨m', h', bs, hmem, hmem', hlen⟩ :=
    exec_extract_transfer (o := s.ops) hb ⟨rfl, rfl, rfl, rfl⟩ hlsb h
  refine ⟨_, h', rfl, rfl, rfl, rfl, fun j hj => ?_⟩
  rw [hmem, hmem', Memory.read_writeAll, Memory.read_writeAll, if_pos (by omega), if_pos (by omega)]

/-- Settles O60: EXTRACT does not tell grids of as many pixels apart. -/
theorem extractDependsOnPixelCountOnly : Obligations.ExtractDependsOnPixelCountOnly := by
  unfold Obligations.ExtractDependsOnPixelCountOnly
  intro s t w h hb hpixels hx
  obtain ⟨m', hx', bs, hmem, hmem', -⟩ :=
    exec_extract_transfer (o := { s.ops with width := w, height := h }) (m := s.mem) hb ⟨rfl, rfl, rfl, hpixels⟩
      (fun _ _ => rfl) hx
  rw [hmem', ← hmem] at hx'
  exact hx'

end Sys2Proof.Machine
end

section
/-! PROOFS. Commands that end in an error of their parameters, and commands whose accesses all complete (41_crypto.md
section 2, 42_codec.md section 2, 60_exceptions.md section 2). -/

namespace Sys2Proof.Machine

/-! ## Parameter errors -/

/-- A command whose parameter check fails completes with its code, right after its opening (R98, R184). -/
theorem exec_of_check {i : Instr} {s : State} {e : ErrCode} (hb : s.status.busy = false)
    (h : parameterCheck i s = some e) : exec i s = .next (finish e (opening i (accept i s)).1) := by
  cases i with
  | nop => cases h
  | capacity => cases h
  | deriveKey =>
    have hcheck : checkDeriveKey (accept .deriveKey s).ops = some e := h
    simp only [exec, execDeriveKey, issue_idle hb, deriveKeyBody, hcheck, opening]
  | sealPlain =>
    have hcheck : checkSeal (accept .sealPlain s).plat (accept .sealPlain s).ops = some e := h
    simp only [exec, execSeal, issue_idle hb, sealBody, hcheck, opening]
  | openSealed =>
    have hcheck : checkOpen (accept .openSealed s).plat (accept .openSealed s).ops = some e := h
    simp only [exec, execOpen, issue_idle hb, openBody, hcheck, opening]
  | embed =>
    have hcheck : checkEmbed (accept .embed s).ctrl (accept .embed s).ops = some e := h
    simp only [exec, execEmbed, issue_idle hb, embedBody, hcheck, opening]
  | extract =>
    have hcheck : checkExtract (accept .extract s).ops = some e := h
    simp only [exec, execExtract, issue_idle hb, extractBody, hcheck, opening]

theorem opening_embed_failed {s : State} {e : ErrCode} (h : checkEmbed s.ctrl s.ops = some e) :
    opening .embed s = (writeFits (writeCapBits s), some e) := by
  simp only [opening, h]

/-- A failed check writes no register but those of the opening, and makes no access and no draw (R187). -/
theorem failsUntouched_of_check {i : Instr} {s : State} {e : ErrCode} (hb : s.status.busy = false)
    (h : parameterCheck i s = some e) :
    failsUntouched i s e (opening i (accept i s)).1.capBits (opening i (accept i s)).1.status.fits := by
  refine ⟨_, exec_of_check hb h, ?_⟩
  cases i
  case embed =>
    rw [opening_embed_failed (s := accept .embed s) h]
    exact ⟨⟨rfl, rfl, rfl, rfl, sameConfiguration.refl s⟩, rfl, rfl⟩
  all_goals exact ⟨⟨rfl, rfl, rfl, rfl, sameConfiguration.refl s⟩, rfl, rfl⟩

/-- EMBED's opening has written CAP_BITS and FITS when its check fails (R150, R187). -/
theorem embed_failsUntouched {s : State} {e : ErrCode} (hb : s.status.busy = false)
    (h : checkEmbed s.ctrl s.ops = some e) :
    failsUntouched .embed s e (sat32 s.ops.capacity) (frameFits s.ops.inLen.toNat s.ops.capacity) := by
  have hfails := failsUntouched_of_check (i := .embed) hb h
  rw [opening_embed_failed (s := accept .embed s) h] at hfails
  exact hfails

/-- Settles O23: each clause by the check that fails first. -/
theorem deriveKeyParameterErrors : Obligations.DeriveKeyParameterErrors := by
  unfold Obligations.DeriveKeyParameterErrors
  intro s hb inOk outOk crosses
  refine ⟨fun h => ?_, fun hin hout hcross => ?_, fun hin hout hcross hroom => ?_⟩
  · refine failsUntouched_of_check (i := .deriveKey) hb (if_pos ?_)
    change (!inOk || !outOk) = true
    rcases h with h | h <;> simp [h]
  · refine failsUntouched_of_check (i := .deriveKey) hb ((if_neg ?_).trans (if_pos hcross))
    change ¬(!inOk || !outOk) = true
    simp [hin, hout]
  · refine failsUntouched_of_check (i := .deriveKey) hb ((if_neg ?_).trans ((if_neg ?_).trans (if_pos hroom)))
    · change ¬(!inOk || !outOk) = true
      simp [hin, hout]
    · change ¬crosses = true
      simp [hcross]

/-- Three ranges checked one by one are the three checked together. -/
theorem not_or_not_or_not (a b c : Bool) : (!a || !b || !c) = !(a && b && c) := by
  rw [Bool.not_and, Bool.not_and]

/-- Settles O26: each clause by the check that fails first. -/
theorem sealParameterErrors : Obligations.SealParameterErrors := by
  unfold Obligations.SealParameterErrors
  intro s hb rangesOk crosses
  have hranges : (!s.ops.inBuffer.rangeOk || !s.ops.outBuffer.rangeOk || !s.ops.keyBuffer.rangeOk) = !rangesOk :=
    not_or_not_or_not _ _ _
  have fails : ∀ e, checkSeal s.plat s.ops = some e → failsUntouched .sealPlain s e s.capBits s.status.fits :=
    fun e h => failsUntouched_of_check (i := .sealPlain) hb h
  refine ⟨fun h => fails _ ?_, fun h hcross => fails _ ?_, fun h hcross hroom => fails _ ?_⟩ <;>
    rw [checkSeal, hranges, h]
  · rfl
  · exact (if_neg (by decide)).trans (if_pos hcross)
  · refine (if_neg (by decide)).trans ((if_neg ?_).trans (if_pos hroom))
    change ¬crosses = true
    simp [hcross]

/-- Settles O28: each clause by the check that fails first. -/
theorem openParameterErrors : Obligations.OpenParameterErrors := by
  unfold Obligations.OpenParameterErrors
  intro s hb rangesOk crosses n
  have hranges : (!s.ops.inBuffer.rangeOk || !s.ops.outBuffer.rangeOk || !s.ops.keyBuffer.rangeOk) = !rangesOk :=
    not_or_not_or_not _ _ _
  have fails : ∀ e, checkOpen s.plat s.ops = some e → failsUntouched .openSealed s e s.capBits s.status.fits :=
    fun e h => failsUntouched_of_check (i := .openSealed) hb h
  have regions : rangesOk = true → crosses = false → checkOpen s.plat s.ops =
      if s.ops.inLen.toNat < n then some .malformed
      else if s.ops.inLen.toNat - n < Config.tagSize then some .authFail
      else if s.ops.inLen.toNat - n - Config.tagSize > s.ops.outCap.toNat then some .outOverflow
      else none := by
    intro h hcross
    rw [checkOpen, hranges, h]
    refine (if_neg (by decide)).trans (if_neg ?_)
    change ¬crosses = true
    simp [hcross]
  refine ⟨fun h => fails _ ?_, fun h hcross => fails _ ?_, fun h hcross hlen => fails _ ?_,
    fun h hcross hn hlen => fails _ ?_, fun h hcross hn hroom => fails _ ?_⟩
  · rw [checkOpen, hranges, h]
    rfl
  · rw [checkOpen, hranges, h]
    exact (if_neg (by decide)).trans (if_pos hcross)
  · rw [regions h hcross, if_pos hlen]
  · rw [regions h hcross, if_neg (by omega), if_pos (by unfold Config.tagSize; omega)]
  · rw [regions h hcross, if_neg (by omega), if_neg (by unfold Config.tagSize; omega)]
    exact if_pos hroom

/-- Settles O30: each clause by the check that fails first. -/
theorem embedParameterErrors : Obligations.EmbedParameterErrors := by
  unfold Obligations.EmbedParameterErrors
  intro s hb cap nbits rangesOk crosses
  have hranges : (!s.ops.srcGrid.rangeOk || !s.ops.dstGrid.rangeOk || !s.ops.inBuffer.rangeOk) = !rangesOk :=
    not_or_not_or_not _ _ _
  refine ⟨fun h => embed_failsUntouched hb ?_, fun h hcross => embed_failsUntouched hb ?_,
    fun h hcross hcap hpolicy => ?_⟩
  · rw [checkEmbed, hranges, h]
    rfl
  · rw [checkEmbed, hranges, h]
    exact (if_neg (by decide)).trans (if_pos hcross)
  · have hfits : frameFits s.ops.inLen.toNat s.ops.capacity = false := decide_eq_false (Nat.not_le.mpr hcap)
    rw [← hfits]
    refine embed_failsUntouched hb ?_
    rw [checkEmbed, hranges, h]
    refine (if_neg (by decide)).trans ((if_neg ?_).trans (if_pos ?_))
    · change ¬crosses = true
      simp [hcross]
    · rw [hpolicy, Bool.not_false, Bool.and_true]
      exact decide_eq_true hcap

/-- Settles O34: each clause by the check that fails first. -/
theorem extractParameterErrors : Obligations.ExtractParameterErrors := by
  unfold Obligations.ExtractParameterErrors
  intro s hb cap rangesOk
  have hranges : (!s.ops.srcGrid.rangeOk || !s.ops.outBuffer.rangeOk) = !rangesOk := (Bool.not_and _ _).symm
  have fails : ∀ e, checkExtract s.ops = some e → failsUntouched .extract s e (sat32 cap) s.status.fits :=
    fun e h => failsUntouched_of_check (i := .extract) hb h
  refine ⟨fun h => fails _ ?_, fun h hcross => fails _ ?_⟩ <;> rw [checkExtract, hranges, h]
  · rfl
  · exact (if_neg (by decide)).trans (if_pos hcross)

/-! ## What a command has done before its output -/

/-- What DERIVE_KEY, SEAL, OPEN and EXTRACT have changed of a state before their first write: the acceptance
clearing, EXTRACT's CAP_BITS and SEAL's draw. -/
structure OpenedBy (i : Instr) (s u : State) : Prop where
  config : sameConfiguration s u
  mem : u.mem = s.mem
  errAddr : u.errAddr = 0
  outLen : u.outLen = 0
  status : u.status = (accept i s).status
  capBits : i ≠ .extract → u.capBits = s.capBits
  draws : i ≠ .sealPlain → u.draws = s.draws

theorem openedBy_accept (i : Instr) (s : State) : OpenedBy i s (accept i s) :=
  ⟨sameConfiguration.refl s, rfl, rfl, rfl, rfl, fun _ => rfl, fun _ => rfl⟩

theorem openedBy_drawn (s : State) :
    OpenedBy .sealPlain s { accept .sealPlain s with draws := (accept .sealPlain s).draws + 1 } :=
  ⟨sameConfiguration.refl s, rfl, rfl, rfl, rfl, fun _ => rfl, fun h => absurd rfl h⟩

theorem openedBy_writeCapBits (s : State) : OpenedBy .extract s (writeCapBits (accept .extract s)) :=
  ⟨sameConfiguration.refl s, rfl, rfl, rfl, rfl, fun h => absurd rfl h, fun _ => rfl⟩

namespace OpenedBy

theorem finish_endsWith {i : Instr} {s u : State} (h : OpenedBy i s u) (code : ErrCode) :
    endsWith s (finish code u) code false s.status.fits u.capBits 0 :=
  ⟨by rw [finish_status, h.status]; rfl, h.errAddr, rfl, h.outLen, h.config⟩

/-- The completion of a command that has written `out` at OUT_BASE. -/
theorem completeWith_endsWith {i : Instr} {s u : State} (h : OpenedBy i s u) (out : Bytes) :
    endsWith s (completeWith out.length { u with mem := Memory.writeAll u.mem u.ops.outBase.toNat out })
      .noError false s.status.fits u.capBits (BitVec.ofNat 32 out.length) :=
  ⟨by rw [completeWith_status, h.status]; rfl, h.errAddr, rfl, rfl, h.config⟩

end OpenedBy

/-- A run of writes keeps every byte outside the bytes written. -/
theorem memoryKeptOutside_writeAll {s t : State} {a : Nat} {out : Bytes} (h : t.mem = Memory.writeAll s.mem a out) :
    memoryKeptOutside ⟨a, out.length⟩ s t := by
  intro b hb
  rw [h]
  refine Memory.read_writeAll_outside ?_
  rw [← Region.contains_iff (r := ⟨a, out.length⟩), hb]
  decide

/-! ## Accesses that complete -/

theorem Region.contains_add {r : Region} {j : Nat} (hj : j < r.size) : r.contains (r.base + j) = true :=
  Region.contains_iff.mpr ⟨Nat.le_add_right _ _, Nat.add_lt_add_left hj _⟩

theorem Region.accessible_at {p : Platform} {r : Region} {dir : Dir} (h : r.accessible p dir) {j : Nat}
    (hj : j < r.size) : accessHalt p (r.base + j) dir = none :=
  h _ (Region.contains_add hj)

theorem readBytes_accessible {s : State} {r : Region} (h : r.accessible s.plat .read) :
    readBytes s r.base r.size = .ok (Memory.readAll s.mem r.base r.size) :=
  readBytes_ok_iff.mpr ⟨fun _ hj => Region.accessible_at h hj, rfl⟩

/-- Where every byte of the output can be written, the command completes with it (R118, R120, R122, R153). -/
theorem writeOutput_accessible {i : Instr} {s u : State} {out : Bytes} {n : Nat} (hu : OpenedBy i s u)
    (hn : out.length = n) (h : Region.accessible s.plat ⟨s.ops.outBase.toNat, n⟩ .write) :
    ∃ t, writeOutput out u = .next t ∧
      endsWith s t .noError false s.status.fits u.capBits (BitVec.ofNat 32 n) ∧
      Memory.readAll t.mem s.ops.outBase.toNat n = out ∧
      memoryKeptOutside ⟨s.ops.outBase.toNat, n⟩ s t ∧ t.draws = u.draws := by
  subst hn
  obtain ⟨-, hops, hplat, -⟩ := hu.config
  have hwrites : ∀ j, j < out.length → accessHalt u.plat (u.ops.outBase.toNat + j) .write = none := by
    rw [hops, hplat]
    exact fun j hj => Region.accessible_at h hj
  refine ⟨_, writeOutput_complete hwrites, hu.completeWith_endsWith out, ?_, memoryKeptOutside_writeAll ?_, rfl⟩
  · rw [completeWith_mem, hops]
    exact Memory.readAll_writeAll _ _ _
  · rw [completeWith_mem, hops, hu.mem]

/-! ## Accesses that are refused -/

theorem accessHalt_bus {p : Platform} {a b : Nat} {dir : Dir} (h : accessHalt p b dir = some (.bus a)) :
    a = b ∧ a < 2 ^ 32 ∧ busOk p a dir = false := by
  rcases accessHalt_some h with ⟨h, -⟩ | ⟨h, hlt, hbus⟩ | ⟨h, -⟩ <;> cases h
  exact ⟨rfl, hlt, hbus⟩

theorem accessHalt_refused {p : Platform} {a : Nat} {dir : Dir} (ha : a < 2 ^ 32) (h : busOk p a dir = false) :
    accessHalt p a dir = some (.bus a) := by
  simp [accessHalt, h, Nat.not_le.mpr (show a < Config.addressSpace from ha)]

/-- A read that is refused after others that complete ends the reads with a bus error. -/
theorem readBytes_refused {s : State} {a n j : Nat} (hj : j < n) (ha : a + n ≤ 2 ^ 32)
    (h : busOk s.plat (a + j) .read = false)
    (hbefore : ∀ k, k < j → accessHalt s.plat (a + k) .read = none) :
    readBytes s a n = .error (.bus (a + j)) :=
  readBytes_error_iff.mpr ⟨j, hj, accessHalt_refused (by omega) h, hbefore⟩

/-- A write that is refused after others that complete ends the command, and leaves the bytes before it. -/
theorem writeOutput_refused {s : State} {out : Bytes} {j : Nat} (hj : j < out.length)
    (ha : s.ops.outBase.toNat + out.length ≤ 2 ^ 32) (h : busOk s.plat (s.ops.outBase.toNat + j) .write = false)
    (hbefore : ∀ k, k < j → accessHalt s.plat (s.ops.outBase.toNat + k) .write = none) :
    writeOutput out s = .next (raiseBusError (s.ops.outBase.toNat + j)
      { s with mem := Memory.writeAll s.mem s.ops.outBase.toNat (out.take j) }) := by
  rw [writeOutput, writeBytes_error_iff.mpr ⟨j, hj, accessHalt_refused (by omega) h, hbefore, rfl⟩]
  rfl

theorem toNat_errAddr {a : Nat} (ha : a < 2 ^ 32) (s : State) : (raiseBusError a s).errAddr.toNat = a := by
  rw [raiseBusError_errAddr, BitVec.toNat_ofNat, Nat.mod_eq_of_lt ha]

/-! ## DERIVE_KEY -/

theorem checkDeriveKey_eq_none {o : Operands} (hin : o.inBuffer.rangeOk = true) (hout : o.outBuffer.rangeOk = true)
    (hcross : o.inBuffer.overlaps o.outBuffer = false) (hroom : 32 ≤ o.outCap.toNat) : checkDeriveKey o = none := by
  simp [checkDeriveKey, hin, hout, hcross, hroom]

/-- DERIVE_KEY whose passphrase can be read goes on to write its hash (R118). -/
theorem exec_deriveKey_output {s : State} (hb : s.status.busy = false) (hcheck : checkDeriveKey s.ops = none)
    (hin : s.ops.inBuffer.accessible s.plat .read) :
    exec .deriveKey s =
      writeOutput (Config.hash (Memory.readAll s.mem s.ops.inBase.toNat s.ops.inLen.toNat)).toList
        (accept .deriveKey s) := by
  have hread := readBytes_accessible (s := accept .deriveKey s) hin
  simp only [Operands.inBuffer, accept_mem] at hread
  simp only [exec, execDeriveKey, issue_idle hb, deriveKeyBody, accept_ops, hcheck, hread]
  rfl

/-- Settles O22: the checks pass, the reads and then the writes complete. -/
theorem deriveKeyWritesTheHash : Obligations.DeriveKeyWritesTheHash := by
  unfold Obligations.DeriveKeyWritesTheHash
  intro s hb hin hout hcross hroom hreads hwrites
  rw [exec_deriveKey_output hb (checkDeriveKey_eq_none hin hout hcross hroom) hreads]
  exact writeOutput_accessible (openedBy_accept .deriveKey s) Vector.length_toList hwrites

/-- Settles O24: the reads or the writes end at byte `j`. -/
theorem deriveKeyBusErrors : Obligations.DeriveKeyBusErrors := by
  unfold Obligations.DeriveKeyBusErrors
  intro s hb hin hout hcross hroom
  have hcheck := checkDeriveKey_eq_none hin hout hcross hroom
  rw [rangeOk_iff] at hin hout
  refine ⟨fun j hj hbus hbefore => ?_, fun j hj hreads hbus hbefore => ?_⟩
  · have hread := readBytes_refused (s := accept .deriveKey s) hj hin hbus hbefore
    refine ⟨raiseBusError (s.ops.inBase.toNat + j) (accept .deriveKey s), ?_, rfl,
      toNat_errAddr (by omega) _, rfl, rfl, rfl, sameConfiguration.refl s⟩
    simp only [exec, execDeriveKey, issue_idle hb, deriveKeyBody, accept_ops, hcheck, hread]
    rfl
  · rw [exec_deriveKey_output hb hcheck hreads]
    have hlen := Vector.length_toList (xs := Config.hash (Memory.readAll s.mem s.ops.inBase.toNat s.ops.inLen.toNat))
    generalize (Config.hash (Memory.readAll s.mem s.ops.inBase.toNat s.ops.inLen.toNat)).toList = key at hlen
    have htake : (key.take j).length = j := by rw [List.length_take]; omega
    refine ⟨_, writeOutput_refused (s := accept .deriveKey s) (by omega) (by rw [accept_ops]; omega) hbus hbefore, rfl,
      toNat_errAddr (by rw [accept_ops]; omega) _, rfl, rfl, ?_, ?_, sameConfiguration.refl s⟩
    · have hread := Memory.readAll_writeAll (key.take j) s.mem s.ops.outBase.toNat
      rwa [htake] at hread
    · have hkept := memoryKeptOutside_writeAll (s := s) (a := s.ops.outBase.toNat) (out := key.take j)
        (t := { s with mem := Memory.writeAll s.mem s.ops.outBase.toNat (key.take j) }) rfl
      rwa [htake] at hkept

/-! ## SEAL and OPEN -/

theorem checkSeal_eq_none {p : Platform} {o : Operands} (hin : o.inBuffer.rangeOk = true)
    (hout : o.outBuffer.rangeOk = true) (hkey : o.keyBuffer.rangeOk = true)
    (hcrossIn : o.outBuffer.overlaps o.inBuffer = false) (hcrossKey : o.outBuffer.overlaps o.keyBuffer = false)
    (hroom : sealNeed p o.inLen.toNat ≤ o.outCap.toNat) : checkSeal p o = none := by
  simp [checkSeal, hin, hout, hkey, hcrossIn, hcrossKey, hroom]

/-- SEAL whose key and plaintext can be read goes on to its draw (R120). -/
theorem exec_sealPlain_reads {s : State} (hb : s.status.busy = false) (hcheck : checkSeal s.plat s.ops = none)
    (hkey : s.ops.keyBuffer.accessible s.plat .read) (hin : s.ops.inBuffer.accessible s.plat .read) :
    exec .sealPlain s =
      sealWith Config.port (Memory.readAll s.mem s.ops.keyBase.toNat 32)
        (Memory.readAll s.mem s.ops.inBase.toNat s.ops.inLen.toNat) (accept .sealPlain s) := by
  have hreadKey := readBytes_accessible (s := accept .sealPlain s) hkey
  have hreadIn := readBytes_accessible (s := accept .sealPlain s) hin
  simp only [Operands.inBuffer, Operands.keyBuffer, accept_mem] at hreadKey hreadIn
  simp only [exec, execSeal, issue_idle hb, sealBody, accept_ops, accept_plat, hcheck, hreadKey, hreadIn]
  rfl

/-- Settles O25: each answer of the port by its branch of SEAL. -/
theorem sealFollowsThePort : Obligations.SealFollowsThePort := by
  unfold Obligations.SealFollowsThePort
  intro s hb hin hout hkey hcrossIn hcrossKey need hroom hreadKey hreadIn hwrites key plain
  have hopened := openedBy_drawn s
  have hplain : plain.length = s.ops.inLen.toNat := Memory.length_readAll _ _ _
  rw [exec_sealPlain_reads hb (checkSeal_eq_none hin hout hkey hcrossIn hcrossKey hroom) hreadKey hreadIn]
  cases hdraw : Config.port.draw s.draws s.plat.nonceSize.val with
  | failure =>
    exact ⟨_, sealWith_failure (s := accept .sealPlain s) hdraw, rfl, hopened.finish_endsWith .rngFail, rfl⟩
  | bytes nonce =>
    dsimp only
    cases hseal : Config.aeadSeal key nonce plain with
    | cipherFailure =>
      exact ⟨_, sealWith_cipherFailure (s := accept .sealPlain s) hdraw hseal, rfl,
        hopened.finish_endsWith .cipherFail, rfl⟩
    | sealedBytes sealed =>
      dsimp only
      by_cases hlen : sealed.length = s.ops.inLen.toNat + 16
      · have htotal : (nonce ++ sealed).length = need := by
          rw [List.length_append, draw_length hdraw, hlen]
          exact (Nat.add_assoc _ _ _).symm
        obtain ⟨t, ht, hends, hread, hkept, hdraws⟩ := writeOutput_accessible hopened htotal hwrites
        refine ⟨t, (sealWith_sealed (s := accept .sealPlain s) hdraw hseal (by rw [hlen, hplain]; rfl)).trans ht,
          hdraws, ?_⟩
        rw [if_pos hlen]
        exact ⟨hends, hread, hkept⟩
      · refine ⟨_, sealWith_wrongLength (s := accept .sealPlain s) hdraw hseal (by rw [hplain]; exact hlen), rfl, ?_⟩
        rw [if_neg hlen]
        exact ⟨hopened.finish_endsWith .cipherFail, rfl⟩

theorem checkOpen_eq_none {p : Platform} {o : Operands} (hin : o.inBuffer.rangeOk = true)
    (hout : o.outBuffer.rangeOk = true) (hkey : o.keyBuffer.rangeOk = true)
    (hcrossIn : o.outBuffer.overlaps o.inBuffer = false) (hcrossKey : o.outBuffer.overlaps o.keyBuffer = false)
    (hlong : p.nonceSize.val + Config.tagSize ≤ o.inLen.toNat)
    (hroom : o.inLen.toNat - p.nonceSize.val - Config.tagSize ≤ o.outCap.toNat) : checkOpen p o = none := by
  have hnonce : ¬o.inLen.toNat < p.nonceSize.val := by omega
  have htag : ¬o.inLen.toNat - p.nonceSize.val < Config.tagSize := by omega
  simp only [checkOpen, hin, hout, hkey, hcrossIn, hcrossKey, Bool.not_true, Bool.or_self, Bool.false_eq_true, if_false,
    if_neg hnonce, if_neg htag, if_neg (Nat.not_lt.mpr hroom)]

/-- OPEN whose key and ciphertext can be read goes on to open them (R122). -/
theorem exec_openSealed_reads {s : State} (hb : s.status.busy = false) (hcheck : checkOpen s.plat s.ops = none)
    (hkey : s.ops.keyBuffer.accessible s.plat .read) (hin : s.ops.inBuffer.accessible s.plat .read) :
    exec .openSealed s =
      openWith Config.port (Memory.readAll s.mem s.ops.keyBase.toNat 32)
        (Memory.readAll s.mem s.ops.inBase.toNat s.ops.inLen.toNat) (accept .openSealed s) := by
  have hreadKey := readBytes_accessible (s := accept .openSealed s) hkey
  have hreadIn := readBytes_accessible (s := accept .openSealed s) hin
  simp only [Operands.inBuffer, Operands.keyBuffer, accept_mem] at hreadKey hreadIn
  simp only [exec, execOpen, issue_idle hb, openBody, accept_ops, accept_plat, hcheck, hreadKey, hreadIn]
  rfl

theorem Memory.take_readAll (m : List Host.Cell) (a : Nat) {k n : Nat} (h : k ≤ n) :
    (Memory.readAll m a n).take k = Memory.readAll m a k := by
  rw [Memory.readAll, ← List.map_take, List.take_range, Nat.min_eq_left h]
  rfl

theorem Memory.drop_readAll (m : List Host.Cell) (a k n : Nat) :
    (Memory.readAll m a n).drop k = Memory.readAll m (a + k) (n - k) := by
  refine List.ext_getElem (by simp) fun j _ _ => ?_
  simp [Memory.readAll, Nat.add_assoc]

/-- Settles O27: each answer of the port by its branch of OPEN. -/
theorem openFollowsThePort : Obligations.OpenFollowsThePort := by
  unfold Obligations.OpenFollowsThePort
  intro s hb hin hout hkey hcrossIn hcrossKey hlong plainLen hroom hreadKey hreadIn hwrites key nonce sealed
  have hopened := openedBy_accept .openSealed s
  rw [exec_openSealed_reads hb (checkOpen_eq_none hin hout hkey hcrossIn hcrossKey hlong hroom) hreadKey hreadIn]
  set cipher := Memory.readAll s.mem s.ops.inBase.toNat s.ops.inLen.toNat with hcipher
  have hnonce : cipher.take s.plat.nonceSize.val = nonce := Memory.take_readAll _ _ (by omega)
  have hsealed : cipher.drop s.plat.nonceSize.val = sealed := Memory.drop_readAll _ _ _ _
  have hlenEq : (cipher.drop s.plat.nonceSize.val).length - Config.tagSize = plainLen := by
    rw [List.length_drop, hcipher, Memory.length_readAll]
    rfl
  rw [← hnonce, ← hsealed]
  cases hopen : Config.aeadOpen key (cipher.take s.plat.nonceSize.val) (cipher.drop s.plat.nonceSize.val) with
  | authFailure =>
    exact ⟨_, openWith_authFailure (s := accept .openSealed s) hopen, rfl, hopened.finish_endsWith .authFail, rfl⟩
  | plain p =>
    dsimp only
    by_cases hlen : p.length = plainLen
    · obtain ⟨t, ht, hends, hread, hkept, hdraws⟩ := writeOutput_accessible hopened hlen hwrites
      refine ⟨t, (openWith_plain (s := accept .openSealed s) hopen (hlen.trans hlenEq.symm)).trans ht, hdraws, ?_⟩
      rw [if_pos hlen]
      exact ⟨hends, hread, hkept⟩
    · refine ⟨_, openWith_wrongLength (s := accept .openSealed s) hopen ?_, rfl, ?_⟩
      · rw [accept_plat, hlenEq]
        exact hlen
      · rw [if_neg hlen]
        exact ⟨hopened.finish_endsWith .cipherFail, rfl⟩

end Sys2Proof.Machine
end

section
/-! PROOFS. EMBED and EXTRACT to their ends (42_codec.md section 2, 60_exceptions.md section 3). -/

namespace Sys2Proof.Machine

/-! ## What an embedded prefix of the grid holds -/

section
variable {s : State} {m : List Host.Cell} {n : Nat}

theorem memoryKeptOutside_of_embedded {t : State} (h : embeddedBetween s m 0 n) (ht : t.mem = m) :
    memoryKeptOutside ⟨s.ops.dstBase.toNat, n⟩ s t := by
  intro a ha
  rw [ht]
  exact h.1 a (Region.contains_eq_false_iff.mp ha)

/-- An alpha byte is its source byte (R152). -/
theorem read_embedded_alpha (h : embeddedBetween s m 0 n) {p : Nat} (hp : 4 * p + 3 < n) :
    Memory.read m (s.ops.dstBase.toNat + 4 * p + 3) = Memory.read s.mem (s.ops.srcBase.toNat + 4 * p + 3) := by
  rw [← embeddedByte_alpha, ← h.2 (4 * p + 3) (Nat.zero_le _) hp]
  rfl

/-- A slot is its source slot, with the frame bit in bit 0 while frame bits remain (R152). -/
theorem read_embedded_slot (h : embeddedBetween s m 0 n) {j : Nat} (hj : slotOffset j < n) :
    Memory.read m (s.ops.dstBase.toNat + slotOffset j) =
      if j < frameBitCount s.ops.inLen.toNat then
        lsbPut (Memory.read s.mem (s.ops.srcBase.toNat + slotOffset j))
          ((frame (Memory.readAll s.mem s.ops.inBase.toNat s.ops.inLen.toNat)).getD j false)
      else Memory.read s.mem (s.ops.srcBase.toNat + slotOffset j) := by
  rw [h.2 (slotOffset j) (Nat.zero_le _) hj, embeddedByte_slot]

end

/-! ## EMBED -/

/-- EMBED whose checks pass and whose pixels meet no halted access embeds the whole grid (R152). -/
theorem exec_embed_complete {s : State} (hb : s.status.busy = false) (hcheck : checkEmbed s.ctrl s.ops = none)
    (hacc : ∀ n h, n < s.ops.gridBytes → ¬embedHalts s n h) :
    ∃ m, exec .embed s = .next (finish .noError { embedStart s with mem := m }) ∧
      embeddedBetween s m 0 s.ops.gridBytes := by
  have hops : (embedStart s).ops = s.ops := by rw [embedStart_eq]; rfl
  have hapart : destinationApart (embedStart s) := by
    rw [embedStart_eq]
    exact destinationApart_of_check (s := s) hcheck
  rcases embedPixels_spec (p := 0) (n := s.ops.npix) (k := 0) (cur := 0) hapart (by rw [hops]; omega)
    ⟨by simp, by simp⟩ with ⟨m, hm, hfilled⟩ | ⟨m, n, h, -, -, hn, -, hhalts⟩
  · refine ⟨m, ?_, ?_⟩
    · change embedPixels (writeTrunc (writeFits (writeCapBits (accept .embed s)))) 0 s.ops.npix 0 0 = _ at hm
      simp only [exec, execEmbed, issue_idle hb, embedBody, accept_ctrl, accept_ops, hcheck, hm]
    · rw [Nat.zero_add, embedStart_eq] at hfilled
      exact hfilled
  · rw [embedStart_eq] at hhalts
    exact absurd hhalts (hacc n h (by unfold Operands.gridBytes; omega))

theorem checkEmbed_eq_none {ct : Ctrl} {o : Operands} (hsrc : o.srcGrid.rangeOk = true)
    (hdst : o.dstGrid.rangeOk = true) (hin : o.inBuffer.rangeOk = true)
    (hcrossSrc : o.dstGrid.overlaps o.srcGrid = false) (hcrossIn : o.dstGrid.overlaps o.inBuffer = false)
    (hfit : frameBitCount o.inLen.toNat ≤ o.capacity ∨ ct.truncPolicy = true) : checkEmbed ct o = none := by
  have hroom : (decide (frameBitCount o.inLen.toNat > o.capacity) && !ct.truncPolicy) = false := by
    rcases hfit with hfit | hlegacy
    · rw [decide_eq_false (Nat.not_lt.mpr hfit), Bool.false_and]
    · rw [hlegacy, Bool.not_true, Bool.and_false]
  simp [checkEmbed, hsrc, hdst, hin, hcrossSrc, hcrossIn, hroom]

/-- Settles O29: none of the three kinds of halted access can occur, a payload byte's because its first bit has a
slot. -/
theorem embedWritesTheFrame : Obligations.EmbedWritesTheFrame := by
  unfold Obligations.EmbedWritesTheFrame
  intro s hb cap nbits payload src dst hsrc hdst hin hcrossSrc hcrossIn hfit hreads hwrites hpayload
  have hcheck : checkEmbed s.ctrl s.ops = none := checkEmbed_eq_none hsrc hdst hin hcrossSrc hcrossIn hfit
  have hgrid : s.ops.gridBytes = 4 * s.ops.npix := rfl
  obtain ⟨m, hm, hfilled⟩ := exec_embed_complete hb hcheck fun n h hn hhalts => by
    rcases hhalts with hh | ⟨h4, i, hi, hh⟩ | ⟨k, hk, rfl, hh⟩
    · exact absurd (hh.symm.trans (Region.accessible_at hwrites hn)) nofun
    · have hread := Region.accessible_at hreads (j := n + i) (show n + i < s.ops.gridBytes by omega)
      rw [show s.ops.srcGrid.base + (n + i) = s.ops.srcBase.toNat + n + i from (Nat.add_assoc _ _ _).symm, hh] at hread
      cases hread
    · rw [hpayload k hk (show 32 + 8 * k < 3 * s.ops.npix by omega)] at hh
      cases hh
  refine ⟨_, hm, ?_, by rw [embedStart_eq]; rfl, memoryKeptOutside_of_embedded hfilled rfl,
    fun p hp => read_embedded_alpha hfilled ?_, fun j hj => read_embedded_slot hfilled (slotOffset_lt hj)⟩
  · rw [embedStart_eq]
    exact ⟨rfl, rfl, rfl, rfl, sameConfiguration.refl s⟩
  · have : p < s.ops.npix := hp
    omega

/-- A halted access of EMBED with a bus error is at its own address. -/
theorem embedHalts_bus {s : State} {n a : Nat} (h : embedHalts s n (.bus a)) :
    a < 2 ^ 32 ∧
      (a = s.ops.dstBase.toNat + n ∨ (n % 4 = 0 ∧ ∃ i, i < 4 ∧ a = s.ops.srcBase.toNat + n + i) ∨
        ∃ m, m < s.ops.inLen.toNat ∧ n = 4 * ((32 + 8 * m) / 3) ∧ a = s.ops.inBase.toNat + m) := by
  rcases h with h | ⟨h4, i, hi, h⟩ | ⟨m, hm, hn, h⟩ <;> obtain ⟨ha, hlt, -⟩ := accessHalt_bus h
  · exact ⟨hlt, .inl ha⟩
  · exact ⟨hlt, .inr (.inl ⟨h4, i, hi, ha⟩)⟩
  · exact ⟨hlt, .inr (.inr ⟨m, hm, hn, ha⟩)⟩

/-- Settles O32: a bus error is the end of EMBED that leaves a prefix, whose length its place fixes. -/
theorem embedBusErrorLeavesPrefix : Obligations.EmbedBusErrorLeavesPrefix := by
  unfold Obligations.EmbedBusErrorLeavesPrefix
  intro s t hb h hcode src dst payload nbits
  rcases execEmbed_next hb h with ⟨e, he, rfl⟩ | ⟨-, m, ⟨-, rfl⟩ | ⟨n, a, hn, hprefix, hhalts, rfl⟩⟩
  · rcases checkEmbed_some he with rfl | rfl | ⟨rfl, -⟩ <;> cases hcode
  · cases hcode
  · obtain ⟨hlt, hplace⟩ := embedHalts_bus hhalts
    refine ⟨by rw [embedStart_eq]; rfl, by rw [embedStart_eq]; rfl, by rw [embedStart_eq]; rfl, n, hn.le, ?_,
      memoryKeptOutside_of_embedded hprefix rfl, fun p hp => read_embedded_alpha hprefix hp,
      fun j hj => read_embedded_slot hprefix hj⟩
    rw [toNat_errAddr hlt]
    exact hplace

/-! ## EXTRACT -/

/-- EXTRACT whose slots can be read goes on with the grid's slot bits (R153). -/
theorem exec_extract_reads {s : State} (hb : s.status.busy = false) (hcheck : checkExtract s.ops = none)
    (hreads : ∀ j, j < s.ops.capacity → accessHalt s.plat (s.ops.srcBase.toNat + slotOffset j) .read = none) :
    exec .extract s = extractFrom (slotBits s) (writeCapBits (accept .extract s)) := by
  have hchannels : ∀ q c, 0 ≤ q → q < 0 + s.ops.npix → c < 3 →
      accessHalt s.plat (s.ops.srcBase.toNat + 4 * q + c) .read = none := by
    intro q c _ hq hc
    have hslot : slotOffset (3 * q + c) = 4 * q + c := by
      unfold slotOffset
      omega
    have := hreads (3 * q + c) (by unfold Operands.capacity; omega)
    rwa [hslot, ← Nat.add_assoc] at this
  obtain ⟨bits, hbits⟩ := readSlots_complete (s := writeCapBits (accept .extract s)) hchannels
  obtain ⟨-, hvalue⟩ := readSlots_ok hbits
  simp only [Nat.zero_add, writeCapBits_ops, writeCapBits_mem, accept_ops, accept_mem, flatMap_pixels_eq_map_slots]
    at hvalue
  simp only [exec, execExtract, issue_idle hb, extractBody, accept_ops, hcheck, hbits, hvalue]
  rfl

section
variable {rb : Bytes}

theorem slicePayload_eq_none (h : rb.length < 4 ∨ 4 + u32le rb > rb.length) : slicePayload rb = none := by
  unfold slicePayload
  by_cases h4 : rb.length < 4
  · rw [if_pos h4]
  · rw [if_neg h4, if_pos (h.resolve_left h4)]

theorem slicePayload_eq_some (h : ¬(rb.length < 4 ∨ 4 + u32le rb > rb.length)) :
    slicePayload rb = some ((rb.drop 4).take (u32le rb)) := by
  obtain ⟨h4, hlen⟩ := not_or.mp h
  rw [slicePayload, if_neg h4, if_neg hlen]

end

section
variable {bits : Bits} {payload : Bytes} {s : State}

theorem extractFrom_framing (h : slicePayload (reassemble bits) = none) :
    extractFrom bits s = .next (finish .framing s) := by
  simp only [extractFrom, h]

theorem extractFrom_outOverflow (h : slicePayload (reassemble bits) = some payload)
    (hroom : payload.length > s.ops.outCap.toNat) : extractFrom bits s = .next (finish .outOverflow s) := by
  simp only [extractFrom, h, if_pos hroom]

theorem extractFrom_payload (h : slicePayload (reassemble bits) = some payload)
    (hroom : ¬payload.length > s.ops.outCap.toNat) : extractFrom bits s = writeOutput payload s := by
  simp only [extractFrom, h, if_neg hroom]

end

/-- Settles O33: what slicing finds in the reassembled bytes decides the end. -/
theorem extractReturnsTheDeclaredBytes : Obligations.ExtractReturnsTheDeclaredBytes := by
  unfold Obligations.ExtractReturnsTheDeclaredBytes
  intro s hb cap rb len hsrc hout hcross hreads hwrites
  have hopened := openedBy_writeCapBits s
  have hcheck : checkExtract s.ops = none := by simp [checkExtract, hsrc, hout, hcross]
  refine ⟨by rw [length_reassemble, length_slotBits]; rfl, ?_⟩
  rw [exec_extract_reads hb hcheck hreads]
  by_cases hframing : rb.length < 4 ∨ 4 + len > rb.length
  · refine ⟨_, extractFrom_framing (slicePayload_eq_none hframing), rfl, ?_⟩
    rw [if_pos hframing]
    exact ⟨hopened.finish_endsWith .framing, rfl⟩
  · have hslice : slicePayload (reassemble (slotBits s)) = some ((rb.drop 4).take len) := slicePayload_eq_some hframing
    have hlen : ((rb.drop 4).take len).length = len := by
      rw [List.length_take, List.length_drop]
      omega
    by_cases hroom : len > s.ops.outCap.toNat
    · refine ⟨_, extractFrom_outOverflow hslice (by rw [hlen]; exact hroom), rfl, ?_⟩
      rw [if_neg hframing, if_pos hroom]
      exact ⟨hopened.finish_endsWith .outOverflow, rfl⟩
    · obtain ⟨t, ht, hends, hread, hkept, hdraws⟩ :=
        writeOutput_accessible hopened hlen (hwrites (by omega) (by omega))
      refine ⟨t, (extractFrom_payload hslice (by rw [hlen]; exact hroom)).trans ht, hdraws, ?_⟩
      rw [if_neg hframing, if_neg hroom]
      exact ⟨hends, hread, hkept⟩

end Sys2Proof.Machine
end

section
/-! PROOFS. How commands end (20_memory.md sections 2 and 6, 60_exceptions.md section 3): bus errors and what they
leave, and the frame of every command; and the accesses of the window that do not act. -/

namespace Sys2Proof.Machine

/-! ## What the parameter checks rule out -/

/-- No parameter check answers BUS_ERROR (R184). -/
theorem parameterCheck_ne_busError {i : Instr} {s : State} : parameterCheck i s ≠ some .busError := by
  intro h
  cases i <;> simp only [parameterCheck, reduceCtorEq] at h
  · unfold checkDeriveKey at h
    split_ifs at h <;> cases h
  · unfold checkSeal at h
    split_ifs at h <;> cases h
  · unfold checkOpen at h
    split_ifs at h <;> cases h
  · unfold checkEmbed at h
    split_ifs at h <;> cases h
  · unfold checkExtract at h
    split_ifs at h <;> cases h

/-- Regions that do not overlap have no byte in common (R94). -/
theorem Region.not_contains_both {r t : Region} {a : Nat} (h : r.overlaps t = false) :
    ¬(r.contains a = true ∧ t.contains a = true) := by
  rintro ⟨hr, ht⟩
  rw [Region.contains_iff] at hr ht
  exact overlaps_false h (a - r.base) (a - t.base) (by omega) (by omega) (by omega)

/-- Where the checks pass, no byte that a command reads is one that it may write (R94, R184). -/
theorem check_apart {i : Instr} {s : State} {r w : Region} {a : Nat} (h : parameterCheck i s = none)
    (hr : r ∈ readRegions i s.ops) (hw : w ∈ writeRegions i s.ops) (ha : r.contains a = true) :
    w.contains a = false := by
  have apart : r.overlaps w = false ∨ w.overlaps r = false := by
    cases i <;> simp only [parameterCheck] at h <;>
      simp only [readRegions, writeRegions, List.mem_cons, List.not_mem_nil, or_false] at hr hw
    case deriveKey =>
      subst hr hw
      exact .inl (Bool.not_eq_true _ ▸ (check_passes.mp (check_passes.mp h).2).1)
    case extract =>
      subst hr hw
      exact .inr (Bool.not_eq_true _ ▸ (check_passes.mp (check_passes.mp h).2).1)
    all_goals
      have hcross := (check_passes.mp (check_passes.mp h).2).1
      rw [Bool.not_eq_true, Bool.or_eq_false_iff] at hcross
      subst hw
      rcases hr with rfl | rfl
    · exact .inr hcross.2
    · exact .inr hcross.1
    · exact .inr hcross.2
    · exact .inr hcross.1
    · exact .inr hcross.1
    · exact .inr hcross.2
  rw [← Bool.not_eq_true]
  intro hwa
  rcases apart with h | h
  · exact Region.not_contains_both h ⟨ha, hwa⟩
  · exact Region.not_contains_both h ⟨hwa, ha⟩

/-! ## The ends of the commands that write the OUT buffer -/

/-- How DERIVE_KEY, SEAL, OPEN and EXTRACT end: with an error and no byte written, with a bus error on a read of one
of their regions, with a bus error on an output byte, or with their output written. -/
inductive OutputEnd (i : Instr) (s : State) : State → Prop
  | failed {u : State} {code : ErrCode} (hu : OpenedBy i s u) (hne : code ≠ .noError) (hbus : code ≠ .busError) :
      OutputEnd i s (finish code u)
  | refusedRead {u : State} {r : Region} {a : Nat} (hu : OpenedBy i s u) (hr : r ∈ readRegions i s.ops)
      (ha : r.contains a = true) (hout : s.ops.outBuffer.contains a = false)
      (h : accessHalt s.plat a .read = some (.bus a)) : OutputEnd i s (raiseBusError a u)
  | refusedWrite {u : State} {out : Bytes} {j : Nat} (hu : OpenedBy i s u) (hout : outputOf i s = some out)
      (hroom : out.length ≤ s.ops.outCap.toNat) (hj : j < out.length)
      (h : accessHalt s.plat (s.ops.outBase.toNat + j) .write = some (.bus (s.ops.outBase.toNat + j))) :
      OutputEnd i s (raiseBusError (s.ops.outBase.toNat + j)
        { u with mem := Memory.writeAll s.mem s.ops.outBase.toNat (out.take j) })
  | completed {u : State} {out : Bytes} (hu : OpenedBy i s u) (hroom : out.length ≤ s.ops.outCap.toNat) :
      OutputEnd i s (completeWith out.length { u with mem := Memory.writeAll s.mem s.ops.outBase.toNat out })

/-- The commands that write the OUT buffer (R79). -/
def writesOutput (i : Instr) : Prop := i = .deriveKey ∨ i = .sealPlain ∨ i = .openSealed ∨ i = .extract

theorem writeRegions_of_writesOutput {i : Instr} (hi : writesOutput i) (o : Operands) :
    writeRegions i o = [o.outBuffer] := by
  rcases hi with rfl | rfl | rfl | rfl <;> rfl

theorem outputEnd_of_check {i : Instr} {s u : State} {e : ErrCode} (hu : OpenedBy i s u)
    (h : parameterCheck i s = some e) : OutputEnd i s (finish e u) :=
  .failed hu (fun he => parameterCheck_ne (he ▸ h)) (fun he => parameterCheck_ne_busError (he ▸ h))

theorem outputEnd_of_writeOutput {i : Instr} {s t u : State} {out : Bytes} (hu : OpenedBy i s u)
    (hout : outputOf i s = some out) (hroom : out.length ≤ s.ops.outCap.toNat) (h : writeOutput out u = .next t) :
    OutputEnd i s t := by
  obtain ⟨-, hops, hplat, -⟩ := hu.config
  rcases writeOutput_next h with ⟨-, rfl⟩ | ⟨j, hj, hrefused, rfl⟩
  · have hend := OutputEnd.completed hu hroom
    rwa [← hu.mem, ← hops] at hend
  · rw [hops, hplat] at hrefused
    have hend := OutputEnd.refusedWrite hu hout hroom hj hrefused
    rwa [← hu.mem, ← hops] at hend

/-- A refused read of byte `j` of a region that the command reads. -/
theorem outputEnd_of_read {i : Instr} {s u : State} {r : Region} {j : Nat} (hi : writesOutput i)
    (hu : OpenedBy i s u) (hcheck : parameterCheck i s = none) (hr : r ∈ readRegions i s.ops) (hj : j < r.size)
    (h : accessHalt s.plat (r.base + j) .read = some (.bus (r.base + j))) :
    OutputEnd i s (raiseBusError (r.base + j) u) := by
  have ha : r.contains (r.base + j) = true := Region.contains_add hj
  refine .refusedRead hu hr ha (check_apart hcheck hr ?_ ha) h
  rw [writeRegions_of_writesOutput hi]
  exact List.mem_singleton_self _

theorem exec_deriveKey_outputEnd {s t : State} (hb : s.status.busy = false) (h : exec .deriveKey s = .next t) :
    OutputEnd .deriveKey s t := by
  have hu := openedBy_accept .deriveKey s
  simp only [exec, execDeriveKey, issue_idle hb] at h
  rcases deriveKeyBody_next h with ⟨e, he, rfl⟩ | ⟨hcheck, ⟨j, hj, hrefused, rfl⟩ | hw⟩
  · exact outputEnd_of_check hu he
  · exact outputEnd_of_read (r := s.ops.inBuffer) (.inl rfl) hu hcheck List.mem_cons_self hj hrefused
  · exact outputEnd_of_writeOutput hu rfl (by rw [Vector.length_toList]; exact checkDerive_none hcheck) hw

theorem exec_sealPlain_outputEnd {s t : State} (hb : s.status.busy = false) (h : exec .sealPlain s = .next t) :
    OutputEnd .sealPlain s t := by
  have hu := openedBy_accept .sealPlain s
  have hdrawn := openedBy_drawn s
  have hi : writesOutput .sealPlain := .inr (.inl rfl)
  simp only [exec, execSeal, issue_idle hb] at h
  rcases sealBody_next h with ⟨e, he, rfl⟩ | ⟨hcheck, ⟨j, hj, hrefused, rfl⟩ | ⟨j, hj, hrefused, rfl⟩ | hs⟩
  · exact outputEnd_of_check hu he
  · exact outputEnd_of_read (r := s.ops.keyBuffer) hi hu hcheck List.mem_cons_self hj hrefused
  · exact outputEnd_of_read (r := s.ops.inBuffer) hi hu hcheck (List.mem_cons_of_mem _ List.mem_cons_self) hj hrefused
  rcases sealWith_next hs with ⟨rfl, -⟩ | rfl | ⟨nonce, sealed, hdraw, hseal, hlen, hw⟩
  · exact .failed hdrawn (by decide) (by decide)
  · exact .failed hdrawn (by decide) (by decide)
  · simp only [accept_draws, accept_plat, accept_ops, accept_mem] at hdraw hseal hlen
    have hroom := checkSeal_none hcheck
    simp only [accept_plat, accept_ops] at hroom
    have hout : outputOf .sealPlain s = some (nonce ++ sealed) := by
      simp only [outputOf, hdraw, show Config.aeadSeal _ nonce _ = .sealedBytes sealed from hseal]
    refine outputEnd_of_writeOutput hdrawn hout ?_ hw
    rw [List.length_append, draw_length hdraw, hlen, Memory.length_readAll, Config.tagSize]
    omega

theorem exec_openSealed_outputEnd {s t : State} (hb : s.status.busy = false) (h : exec .openSealed s = .next t) :
    OutputEnd .openSealed s t := by
  have hu := openedBy_accept .openSealed s
  have hi : writesOutput .openSealed := .inr (.inr (.inl rfl))
  simp only [exec, execOpen, issue_idle hb] at h
  rcases openBody_next h with ⟨e, he, rfl⟩ | ⟨hcheck, ⟨j, hj, hrefused, rfl⟩ | ⟨j, hj, hrefused, rfl⟩ | ho⟩
  · exact outputEnd_of_check hu he
  · exact outputEnd_of_read (r := s.ops.keyBuffer) hi hu hcheck List.mem_cons_self hj hrefused
  · exact outputEnd_of_read (r := s.ops.inBuffer) hi hu hcheck (List.mem_cons_of_mem _ List.mem_cons_self) hj hrefused
  rcases openWith_next ho with ⟨rfl, -⟩ | ⟨p, hopen, ⟨-, rfl⟩ | ⟨hlen, hw⟩⟩
  · exact .failed hu (by decide) (by decide)
  · exact .failed hu (by decide) (by decide)
  · obtain ⟨-, hroom⟩ := checkOpen_none hcheck
    have hout : outputOf .openSealed s = some p := by
      simp only [accept_plat, accept_ops, accept_mem] at hopen
      simp only [outputOf, show Config.aeadOpen _ _ _ = .plain p from hopen]
    refine outputEnd_of_writeOutput hu hout ?_ hw
    rw [hlen, Memory.length_readAll]
    exact hroom

theorem exec_extract_outputEnd {s t : State} (hb : s.status.busy = false) (h : exec .extract s = .next t) :
    OutputEnd .extract s t := by
  have hu := openedBy_writeCapBits s
  have hi : writesOutput .extract := .inr (.inr (.inr rfl))
  simp only [exec, execExtract, issue_idle hb] at h
  rcases extractBody_next h with ⟨e, he, rfl⟩ | ⟨hcheck, ⟨q, c, hq, hc, hrefused, rfl⟩ | hx⟩
  · exact outputEnd_of_check hu he
  · have hj : 4 * q + c < s.ops.srcGrid.size := by
      change 4 * q + c < 4 * s.ops.npix
      simp only [accept_ops] at hq
      omega
    rw [Nat.add_assoc] at hrefused ⊢
    exact outputEnd_of_read (r := s.ops.srcGrid) hi hu hcheck List.mem_cons_self hj hrefused
  rw [flatMap_pixels_eq_map_slots] at hx
  rcases extractFrom_next hx with ⟨-, rfl⟩ | ⟨payload, hout, ⟨-, rfl⟩ | ⟨hroom, hw⟩⟩
  · exact .failed hu (by decide) (by decide)
  · exact .failed hu (by decide) (by decide)
  · exact outputEnd_of_writeOutput hu hout hroom hw

/-- A command that writes the OUT buffer and gives a next state ends in one of four ways. -/
theorem exec_outputEnd {i : Instr} {s t : State} (hi : writesOutput i) (hb : s.status.busy = false)
    (h : exec i s = .next t) : OutputEnd i s t := by
  rcases hi with rfl | rfl | rfl | rfl
  · exact exec_deriveKey_outputEnd hb h
  · exact exec_sealPlain_outputEnd hb h
  · exact exec_openSealed_outputEnd hb h
  · exact exec_extract_outputEnd hb h

/-- Every command writes the OUT buffer but NOP, CAPACITY and EMBED. -/
theorem writesOutput_of_ne {i : Instr} (hnop : i ≠ .nop) (hcapacity : i ≠ .capacity) (hembed : i ≠ .embed) :
    writesOutput i := by
  cases i <;> simp_all [writesOutput]

/-! ## Bus errors and their addresses -/

/-- An engine step whose access is refused is the completion step of a bus error (R53, R186). -/
theorem engineStep_refused_access {port : CryptoPort} {raced : Bool} {s : State} {a : Nat}
    (hb : s.status.busy = true) (ha : a < 2 ^ 32)
    (h : (planStep s).2 = .read a ∧ busOk s.plat a .read = false ∨
      ∃ v, (planStep s).2 = .write a v ∧ busOk s.plat a .write = false) :
    engineStep port raced s = .next (raiseBusError a (planStep s).1) := by
  have hplat : (planStep s).1.plat = s.plat := by rw [planStep_planned]; rfl
  rw [engineStep_busy hb]
  rcases h with ⟨hact, hbus⟩ | ⟨v, hact, hbus⟩
  · rw [hact, performAction, engineRead, hplat, accessHalt_refused ha hbus]
    rfl
  · rw [hact, performAction, engineWrite, hplat, accessHalt_refused ha hbus]
    rfl

/-- A bus error of EMBED is at a byte of the grid it writes, of the grid it reads, or of its payload (R187). -/
theorem exec_embed_busError_region {s t : State} (hb : s.status.busy = false) (h : exec .embed s = .next t)
    (hcode : t.status.errcode = .busError) :
    ∃ dir, busOk s.plat t.errAddr.toNat dir = false ∧
      ∃ r ∈ regionsAccessed .embed s.ops dir, r.contains t.errAddr.toNat = true := by
  rcases execEmbed_next hb h with ⟨e, he, rfl⟩ | ⟨-, m, ⟨-, rfl⟩ | ⟨n, a, hn, -, hhalts, rfl⟩⟩
  · cases hcode
    exact absurd he (parameterCheck_ne_busError (i := .embed) (s := s))
  · cases hcode
  have hgrid : s.ops.gridBytes = 4 * s.ops.npix := rfl
  have found : ∀ {dir : Dir} {r : Region} {j : Nat}, r ∈ regionsAccessed .embed s.ops dir → j < r.size →
      accessHalt s.plat (r.base + j) dir = some (.bus a) →
      ∃ dir, busOk s.plat a dir = false ∧ ∃ r ∈ regionsAccessed .embed s.ops dir, r.contains a = true := by
    intro dir r j hr hj hh
    obtain ⟨rfl, -, hbus⟩ := accessHalt_bus hh
    exact ⟨dir, hbus, r, hr, Region.contains_add hj⟩
  rw [toNat_errAddr (embedHalts_bus hhalts).1]
  rcases hhalts with hh | ⟨h4, k, hk, hh⟩ | ⟨k, hk, -, hh⟩
  · exact found (dir := .write) (r := s.ops.dstGrid) List.mem_cons_self hn hh
  · rw [Nat.add_assoc] at hh
    exact found (dir := .read) (r := s.ops.srcGrid) List.mem_cons_self (show n + k < s.ops.gridBytes by omega) hh
  · exact found (dir := .read) (r := s.ops.inBuffer) (List.mem_cons_of_mem _ List.mem_cons_self) hk hh

/-- A command that ends with BUS_ERROR met a refused access in one of its regions (R53, R186). -/
theorem exec_busError_region {i : Instr} {s t : State} (hb : s.status.busy = false) (h : exec i s = .next t)
    (hcode : t.status.errcode = .busError) :
    ∃ dir, busOk s.plat t.errAddr.toNat dir = false ∧
      ∃ r ∈ regionsAccessed i s.ops dir, r.contains t.errAddr.toNat = true := by
  by_cases hnop : i = .nop
  · subst hnop
    rw [exec_nop_idle hb] at h
    cases h
    cases hcode
  by_cases hcapacity : i = .capacity
  · subst hcapacity
    rw [exec_capacity_idle hb] at h
    cases h
    cases hcode
  by_cases hembed : i = .embed
  · subst hembed
    exact exec_embed_busError_region hb h hcode
  have hi := writesOutput_of_ne hnop hcapacity hembed
  cases exec_outputEnd hi hb h with
  | failed hu hne hbus => exact absurd hcode hbus
  | refusedRead hu hr ha hout hh =>
    obtain ⟨-, hlt, hbus⟩ := accessHalt_bus hh
    rw [toNat_errAddr hlt]
    exact ⟨.read, hbus, _, hr, ha⟩
  | @refusedWrite u out j hu hout hroom hj hh =>
    obtain ⟨-, hlt, hbus⟩ := accessHalt_bus hh
    rw [toNat_errAddr hlt]
    refine ⟨.write, hbus, s.ops.outBuffer, ?_, Region.contains_add (r := s.ops.outBuffer) (hj.trans_le hroom)⟩
    rw [regionsAccessed, writeRegions_of_writesOutput hi]
    exact List.mem_singleton_self _
  | completed hu hroom => cases hcode

/-- Settles O35: the engine's refused access, and the region of a command's bus error. -/
theorem busErrorRecordsTheAddress : Obligations.BusErrorRecordsTheAddress := by
  unfold Obligations.BusErrorRecordsTheAddress
  refine ⟨fun port raced s a hb ha h => ?_, fun i s t hb h hcode => exec_busError_region hb h hcode⟩
  have hplanned := planStep_planned s
  refine ⟨_, engineStep_refused_access hb ha h, rfl, rfl, rfl, rfl, toNat_errAddr ha _, ?_, ?_, ?_⟩ <;> rw [hplanned]
  · rfl
  · rfl
  · exact sameConfiguration.refl s

/-- Settles O36: of the four ends only the two bus errors apply, the one on a read with memory as it was. -/
theorem outputBusErrorKeepsTheRest : Obligations.OutputBusErrorKeepsTheRest := by
  unfold Obligations.OutputBusErrorKeepsTheRest
  intro i s t hi hb h hcode
  cases exec_outputEnd hi hb h with
  | failed hu hne hbus => exact absurd hcode hbus
  | completed hu hroom => cases hcode
  | refusedRead hu hr ha hout hh =>
    obtain ⟨-, hlt, -⟩ := accessHalt_bus hh
    rw [toNat_errAddr hlt, raiseBusError_outLen, raiseBusError_mem, hu.mem]
    exact ⟨hu.outLen, fun _ => rfl, fun hin => absurd hin (by rw [hout]; decide), fun _ _ => rfl⟩
  | @refusedWrite u out j hu hout hroom hj hh =>
    obtain ⟨-, hlt, -⟩ := accessHalt_bus hh
    have hin : s.ops.outBuffer.contains (s.ops.outBase.toNat + j) = true :=
      Region.contains_add (r := s.ops.outBuffer) (hj.trans_le hroom)
    have htake : (out.take j).length = j := by rw [List.length_take]; omega
    rw [toNat_errAddr hlt, Nat.add_sub_cancel_left]
    refine ⟨hu.outLen, fun hno => absurd hin (by rw [hno]; decide), fun _ => ⟨out, hout, hj, ?_⟩, fun a ha => ?_⟩
    · have hread := Memory.readAll_writeAll (out.take j) s.mem s.ops.outBase.toNat
      rwa [htake] at hread
    · refine Memory.read_writeAll_outside ?_
      rw [htake]
      omega

/-! ## The frame of every command -/

namespace OutputEnd

variable {i : Instr} {s t : State}

/-- The state that the last step of the command completes. -/
theorem opened (h : OutputEnd i s t) :
    ∃ u, OpenedBy i s u ∧ t.status.trunc = u.status.trunc ∧ t.status.fits = u.status.fits ∧
      t.capBits = u.capBits ∧ t.draws = u.draws := by
  cases h with
  | failed hu => exact ⟨_, hu, rfl, rfl, rfl, rfl⟩
  | refusedRead hu => exact ⟨_, hu, rfl, rfl, rfl, rfl⟩
  | refusedWrite hu => exact ⟨_, hu, rfl, rfl, rfl, rfl⟩
  | completed hu => exact ⟨_, hu, rfl, rfl, rfl, rfl⟩

/-- ERR_ADDR is written by a bus error only, and OUT_LEN by a success only (R33, R35). -/
theorem results (h : OutputEnd i s t) :
    (t.status.errcode ≠ .busError → t.errAddr = 0) ∧ (t.status.errcode ≠ .noError → t.outLen = 0) := by
  cases h with
  | failed hu => exact ⟨fun _ => hu.errAddr, fun _ => hu.outLen⟩
  | refusedRead hu => exact ⟨fun hne => absurd rfl hne, fun _ => hu.outLen⟩
  | refusedWrite hu => exact ⟨fun hne => absurd rfl hne, fun _ => hu.outLen⟩
  | completed hu => exact ⟨fun _ => hu.errAddr, fun hne => absurd rfl hne⟩

/-- What is written lies in the OUT buffer. -/
theorem kept (h : OutputEnd i s t) : memoryKeptOutside s.ops.outBuffer s t := by
  have written : ∀ {bs : Bytes} {m : List Host.Cell} {a : Nat}, bs.length ≤ s.ops.outCap.toNat →
      s.ops.outBuffer.contains a = false →
      m = Memory.writeAll s.mem s.ops.outBase.toNat bs → Memory.read m a = Memory.read s.mem a := by
    rintro bs m a hlen ha rfl
    refine Memory.read_writeAll_outside fun hin => ?_
    rw [← Bool.not_eq_true, Region.contains_iff] at ha
    exact ha ⟨hin.1, hin.2.trans_le (Nat.add_le_add_left hlen _)⟩
  intro a ha
  cases h with
  | failed hu => rw [finish_mem, hu.mem]
  | refusedRead hu => rw [raiseBusError_mem, hu.mem]
  | refusedWrite hu _ hroom hj => exact written (by rw [List.length_take]; omega) ha rfl
  | completed hu hroom => exact written hroom ha rfl

/-- On success what is written is the first OUT_LEN bytes of the OUT buffer (R35). -/
theorem kept_outside_output (h : OutputEnd i s t) (hcode : t.status.errcode = .noError) :
    t.outLen.toNat ≤ s.ops.outCap.toNat ∧ memoryKeptOutside ⟨s.ops.outBase.toNat, t.outLen.toNat⟩ s t := by
  cases h with
  | failed hu hne => exact absurd hcode hne
  | refusedRead hu => cases hcode
  | refusedWrite hu => cases hcode
  | @completed u out hu hroom =>
    have hlen : (BitVec.ofNat 32 out.length).toNat = out.length := by
      have := s.ops.outCap.isLt
      rw [BitVec.toNat_ofNat, Nat.mod_eq_of_lt (by omega)]
    rw [completeWith_outLen, hlen]
    exact ⟨hroom, memoryKeptOutside_writeAll rfl⟩

end OutputEnd

/-- What every command leaves when it ends, STATUS.ERR and the configuration (R34, R97). -/
theorem exec_completion {i : Instr} {s t : State} (hb : s.status.busy = false) (h : exec i s = .next t) :
    sameConfiguration s t ∧ t.status.busy = false ∧ t.status.done = true ∧
      t.status.err = decide (t.status.errcode ≠ .noError) ∧ t.status.overrun = s.status.overrun := by
  have hoverrun := exec_overrun hb h
  obtain ⟨code, u, hconfig, rfl⟩ := completedFrom_exec hb h
  exact ⟨hconfig, rfl, rfl, rfl, hoverrun⟩

/-- What EMBED leaves when it ends: OUT_LEN 0, ERR_ADDR of a bus error only, no draw, and memory outside the
destination grid (R68). -/
theorem exec_embed_frame {s t : State} (hb : s.status.busy = false) (h : exec .embed s = .next t) :
    (t.status.errcode ≠ .busError → t.errAddr = 0) ∧ t.outLen = 0 ∧ t.draws = s.draws ∧
      memoryKeptOutside s.ops.dstGrid s t := by
  rcases execEmbed_next hb h with ⟨e, -, rfl⟩ | ⟨-, m, ⟨hm, rfl⟩ | ⟨n, a, hn, hm, -, rfl⟩⟩
  · exact ⟨fun _ => rfl, rfl, rfl, fun _ _ => rfl⟩
  · refine ⟨fun _ => ?_, ?_, ?_, memoryKeptOutside_of_embedded hm rfl⟩ <;> rw [embedStart_eq] <;> rfl
  · refine ⟨fun hne => absurd rfl hne, ?_, ?_, fun b hb => memoryKeptOutside_of_embedded hm rfl b ?_⟩
    · rw [embedStart_eq]; rfl
    · rw [embedStart_eq]; rfl
    · rw [← Bool.not_eq_true, Region.contains_iff] at hb ⊢
      exact fun hin => hb ⟨hin.1, hin.2.trans (Nat.add_lt_add_left hn _)⟩

/-- Settles O37: NOP and CAPACITY change memory not at all, EMBED its destination grid, and the others end as
`OutputEnd` says. -/
theorem commandFrame : Obligations.CommandFrame := by
  unfold Obligations.CommandFrame
  intro i s t hb h
  obtain ⟨hconfig, hbusy, hdone, herr, hoverrun⟩ := exec_completion hb h
  refine ⟨hconfig, hbusy, hdone, herr, hoverrun, ?_⟩
  by_cases hnop : i = .nop
  · subst hnop
    rw [exec_nop_idle hb] at h
    cases h
    exact ⟨fun _ => rfl, fun _ _ => rfl, fun _ _ _ => rfl, fun _ => rfl, fun _ => rfl, fun _ => rfl, fun _ => rfl,
      fun _ => rfl, fun _ _ => rfl, fun _ _ => ⟨Nat.zero_le _, fun _ _ => rfl⟩⟩
  by_cases hcapacity : i = .capacity
  · subst hcapacity
    rw [exec_capacity_idle hb] at h
    cases h
    exact ⟨fun _ => rfl, fun hne => absurd rfl hne, fun hne => absurd rfl hne, fun _ => rfl, fun _ => rfl, fun _ => rfl,
      fun _ => rfl, fun _ => rfl, fun _ _ => rfl, fun _ _ => ⟨Nat.zero_le _, fun _ _ => rfl⟩⟩
  by_cases hembed : i = .embed
  · subst hembed
    obtain ⟨haddr, hlen, hdraws, hkept⟩ := exec_embed_frame hb h
    exact ⟨fun hne => absurd rfl hne, fun _ hne => absurd rfl hne, fun _ hne => absurd rfl hne, haddr, fun _ => hlen,
      fun _ => hlen, fun _ => hdraws, fun hno => by simp at hno, fun a ha => hkept a (ha _ List.mem_cons_self),
      fun hne => absurd rfl hne⟩
  have hi := writesOutput_of_ne hnop hcapacity hembed
  have hend := exec_outputEnd hi hb h
  obtain ⟨u, hu, htrunc, hfits, hcapBits, hdraws⟩ := hend.opened
  obtain ⟨haddr, hlen⟩ := hend.results
  refine ⟨fun _ => by rw [htrunc, hu.status]; rfl, fun _ _ => by rw [hfits, hu.status]; rfl,
    fun _ _ hne => by rw [hcapBits, hu.capBits hne], haddr, hlen,
    fun hno => absurd hno (by simp [hnop, hcapacity, hembed]),
    fun hne => by rw [hdraws, hu.draws hne], fun hno => absurd hno (by simp [hnop, hcapacity]),
    fun a ha => hend.kept a (ha _ ?_),
    fun _ hcode => hend.kept_outside_output hcode⟩
  rw [writeRegions_of_writesOutput hi]
  exact List.mem_singleton_self _

/-! ## Words, and accesses of the window that do not act -/

/-- Settles O1: the eleven words. -/
theorem commandWordsDecode : Obligations.CommandWordsDecode := by
  unfold Obligations.CommandWordsDecode
  decide

theorem alignedOffset_eq_none {base addr size : Nat}
    (h : size ≠ 4 ∨ addr < base ∨ base + 256 ≤ addr ∨ (addr - base) % 4 ≠ 0) : alignedOffset base addr size = none :=
  if_neg (by omega)

/-- An access that touches the window and is no aligned 32-bit access of it is refused (R58; log 13). -/
theorem selectAccess_refused {base addr size : Nat} (hsize : 0 < size) (hbelow : addr < base + 256)
    (habove : base < addr + size) (hbad : size ≠ 4 ∨ addr < base ∨ (addr - base) % 4 ≠ 0) :
    selectAccess base addr size = .refused := by
  simp only [selectAccess, alignedOffset_eq_none (base := base) (addr := addr) (size := size) (by omega)]
  exact if_pos ⟨hsize, hbelow, habove⟩

/-- An access that touches no byte of the window is none of it (log 13). -/
theorem selectAccess_elsewhere {base addr size : Nat} (h : size = 0 ∨ base + 256 ≤ addr ∨ addr + size ≤ base) :
    selectAccess base addr size = .elsewhere := by
  simp only [selectAccess, alignedOffset_eq_none (base := base) (addr := addr) (size := size) (by omega)]
  exact if_neg (by omega)

/-- Settles O5: the address decode answers such an access before any register sees it. -/
theorem onlyAlignedWordAccessesAct : Obligations.OnlyAlignedWordAccessesAct := by
  unfold Obligations.OnlyAlignedWordAccessesAct
  intro s addr size v base
  have refused : ∀ h : selectAccess s.plat.codecBase addr size = .refused,
      hostRead addr size s = { s with response := .busError } ∧
        hostWrite addr size v s = { s with response := .busError } :=
    fun h => ⟨by simp only [hostRead, h], by simp only [hostWrite, h]⟩
  refine ⟨fun hsize hbase hbelow hbad => refused (selectAccess_refused hsize hbelow (by omega) (by omega)),
    fun hsize hbelow habove hbad => refused (selectAccess_refused hsize hbelow habove hbad), fun hout => ?_,
    fun r => hostRead_reg s r⟩
  have h : selectAccess s.plat.codecBase addr size = .elsewhere := selectAccess_elsewhere hout
  exact ⟨by simp only [hostRead, h], by simp only [hostWrite, h]⟩

end Sys2Proof.Machine
end
